-- ==== Sys2Proof/Word.lean ====
section
/-! DEFINITION. The word of the command ports and the names that stand beside it: channels, ports, packets (00_scope.md R9, R11, R12, R14). -/

namespace Sys2Proof

/-- One 32-bit port word, bit 31 the most significant (R11). -/
abbrev Word := BitVec 32

/-- An IEEE 754 binary32 datum held as its 32-bit pattern: sign bit 31, exponent bits 30:23, fraction
bits 22:0 (R12). Equality of two values is equality of patterns unless a rule says "numerically". -/
abbrev F32 := BitVec 32

/-- The two channels, 0 the first (left) and 1 the second (right) (R14). -/
inductive Ch where
  | ch0
  | ch1
  deriving DecidableEq, Repr, Inhabited

/-- The two command ports, one per agent: `rt` the real-time agent's, `an` the analysis agent's (R8, R9). -/
inductive Port where
  | rt
  | an
  deriving DecidableEq, Repr, Inhabited

/-- A packet of either direction: one command or response word, then its payload words; the port's
last-word marker makes the number of payload words known beside the word itself (R9, R70). -/
structure Packet where
  word    : Word
  payload : List Word
  deriving DecidableEq, Repr

/-- What R63 leaves open of a NaN result: its sign and its fraction, which is not zero (the fraction
field holds `frac + 1`). Every NaN pattern is the pattern of one of these. -/
structure NaNBits where
  sign : Bool
  frac : Fin 8388607
  deriving DecidableEq, Repr, Inhabited

end Sys2Proof
end

