-- ==== Sys2Proof/Machine/Float.lean ====
section
/-! DEFINITION. Binary32 arithmetic of the default numerics record (20_memory.md R62 to R64): addition,
subtraction, multiplication and division, each rounded once to nearest, ties to even, subnormals kept,
nothing fused. Every finite value is a whole multiple of 2^-149, so exact results are integers (or ratios
of integers) and one function rounds. -/

namespace Sys2Proof

/-- Sign bit 31 (R12). -/
def F32.sign (x : F32) : Bool := x.msb

/-- Exponent field, bits 30:23 (R12). -/
def F32.expo (x : F32) : Nat := x.toNat / 2 ^ 23 % 256

/-- Fraction field, bits 22:0 (R12). -/
def F32.frac (x : F32) : Nat := x.toNat % 2 ^ 23

/-- "Finite" means the exponent field is not 255 (R12). -/
def F32.isFinite (x : F32) : Bool := F32.expo x != 255

/-- Infinity of either sign: exponent field 255, fraction zero. -/
def F32.isInf (x : F32) : Bool := F32.expo x == 255 && F32.frac x == 0

/-- NaN: exponent field 255, fraction not zero (R63). -/
def F32.isNaN (x : F32) : Bool := F32.expo x == 255 && F32.frac x != 0

/-- Magnitude in units of 2^-149. For a finite value it is exact; an infinity's lies above every finite
value's, so that comparing magnitudes orders infinities too. -/
def F32.mag (x : F32) : Nat :=
  if F32.expo x = 0 then F32.frac x else (2 ^ 23 + F32.frac x) * 2 ^ (F32.expo x - 1)

/-- Value in units of 2^-149, signed. -/
def F32.units (x : F32) : Int :=
  if F32.sign x then -(F32.mag x : Int) else (F32.mag x : Int)

/-- "Greater than zero", numerically; false for both zeros and for every NaN (R63, R141). -/
def F32.gtZero (x : F32) : Bool := !F32.isNaN x && decide (0 < F32.units x)

/-- `+0.0`, `−0.0`, `+∞` (R12). -/
def F32.posZero : F32 := 0x00000000#32
def F32.negZero : F32 := 0x80000000#32
def F32.posInf : F32 := 0x7F800000#32

/-- A pattern from a sign and the 31 bits below it. -/
def F32.ofParts (neg : Bool) (low : Nat) : F32 :=
  BitVec.ofNat 32 (low + if neg then 2 ^ 31 else 0)

/-- The NaN whose open bits are drawn (R63). -/
def F32.nan (d : NaNBits) : F32 := F32.ofParts d.sign (255 * 2 ^ 23 + (d.frac.val + 1))

/-- The quotient of two naturals rounded to the nearest integer, ties to even (R62). -/
def F32.roundEven (num den : Nat) : Nat :=
  if 2 * (num % den) > den ∨ (2 * (num % den) = den ∧ num / den % 2 = 1) then num / den + 1 else num / den

/-- How far the last place of the result lies above 2^-149: zero for subnormals and the lowest binade. -/
def F32.shiftFor (num den : Nat) : Nat := (num / den).log2 - 23

/-- The low 31 bits of the magnitude `num/den · 2^-149` rounded to binary32: 24 significant bits, ties to
even, subnormals kept, overflow to infinity (R62). The carry out of the fraction moves into the exponent
field by itself. -/
def F32.roundMag (num den : Nat) : Nat :=
  min (255 * 2 ^ 23)
    (F32.shiftFor num den * 2 ^ 23 + F32.roundEven num (den * 2 ^ F32.shiftFor num den))

/-- A signed magnitude rounded to binary32. -/
def F32.round (neg : Bool) (num den : Nat) : F32 := F32.ofParts neg (F32.roundMag num den)

/-- The same value with the sign bit flipped. -/
def F32.negate (x : F32) : F32 := x ^^^ 0x80000000#32

/-- An integer as binary32 (R140 uses it on a power of two, where it is exact). -/
def F32.ofNat (n : Nat) : F32 := F32.round false (n * 2 ^ 149) 1

/-- IEEE 754 addition (R62). An exact zero sum is `+0.0` unless both operands are negative. -/
def F32.fadd (d : NaNBits) (a b : F32) : F32 :=
  if F32.isNaN a || F32.isNaN b then F32.nan d
  else if F32.isInf a then
    if F32.isInf b && F32.sign a != F32.sign b then F32.nan d else a
  else if F32.isInf b then b
  else if F32.units a + F32.units b = 0 then
    if F32.sign a && F32.sign b then F32.negZero else F32.posZero
  else F32.round (decide (F32.units a + F32.units b < 0)) (F32.units a + F32.units b).natAbs 1

/-- IEEE 754 subtraction: addition of the negated operand (R62). -/
def F32.fsub (d : NaNBits) (a b : F32) : F32 := F32.fadd d a (F32.negate b)

/-- IEEE 754 multiplication (R62): zero times infinity is NaN. -/
def F32.fmul (d : NaNBits) (a b : F32) : F32 :=
  if F32.isNaN a || F32.isNaN b then F32.nan d
  else if F32.isInf a || F32.isInf b then
    if F32.mag a = 0 || F32.mag b = 0 then F32.nan d
    else F32.ofParts (F32.sign a != F32.sign b) (255 * 2 ^ 23)
  else F32.round (F32.sign a != F32.sign b) (F32.mag a * F32.mag b) (2 ^ 149)

/-- IEEE 754 division (R62). R64: the block divides by the non-zero constant `NBIN` only; the other
cases are there because the function is total (R6). -/
def F32.fdiv (d : NaNBits) (a b : F32) : F32 :=
  if F32.isNaN a || F32.isNaN b then F32.nan d
  else if F32.isInf a then
    if F32.isInf b then F32.nan d else F32.ofParts (F32.sign a != F32.sign b) (255 * 2 ^ 23)
  else if F32.isInf b then F32.ofParts (F32.sign a != F32.sign b) 0
  else if F32.mag b = 0 then
    if F32.mag a = 0 then F32.nan d else F32.ofParts (F32.sign a != F32.sign b) (255 * 2 ^ 23)
  else F32.round (F32.sign a != F32.sign b) (F32.mag a * 2 ^ 149) (F32.mag b)

/-- The numerically larger of two finite values (R141). -/
def F32.fmax (a b : F32) : F32 := if F32.units a < F32.units b then b else a

end Sys2Proof
end

