-- ==== Sys2Proof/Machine/Window.lean ====
section
/-! DEFINITION. The default window table, the 4-term Blackman-Harris window of 42_spectrum.md R142, in
integer arithmetic with 160 binary places; each entry rounded once to binary32. The table is the default
value of a parameter: R142 says that a model must not rest a claim on its numbers. -/

namespace Sys2Proof.Window

/-- One, with 160 places. -/
def one : Int := 2 ^ 160

/-- π with 160 places, rounded down. -/
def pi : Int := 0x3243f6a8885a308d313198a2e03707344a4093822

/-- The sum of the Taylor terms of the cosine after the `k`-th, `n` of them. -/
def cosTail (x2 : Int) : Nat → Nat → Int → Int
  | 0, _, _ => 0
  | n + 1, k, term =>
    let next := -(term * x2) / (one * ((2 * k + 1) * (2 * k + 2) : Nat))
    next + cosTail x2 n (k + 1) next

/-- cos x for 0 ≤ x ≤ π, with 160 places. -/
def cos (x : Int) : Int := one + cosTail (x * x / one) 40 0 one

/-- 100000 · w(n) with 160 places, from the cosine `c` of 2πn/(N−1), by the double and triple angle. -/
def weigh (c : Int) : Int :=
  let c2 := c * c / one
  let c3 := c2 * c / one
  35875 * one - 48829 * c + 14128 * (2 * c2 - one) - 1168 * (4 * c3 - 3 * c)

/-- The magnitude to be rounded, in units of 2^-149 over `100000 · 2^160`; `w(n)` lies in [0, 1], and the
value is held to that range. -/
def scaled (c : Int) : Nat := min (weigh c).toNat (100000 * 2 ^ 160) * 2 ^ 149

/-- `WIN[n]` of the default table for `N` entries (R142). The window is symmetric, so that the cosine is
taken in [0, π]. -/
def blackmanHarris (N n : Nat) : F32 :=
  F32.round false (scaled (cos (2 * pi * (min n (N - 1 - n) : Nat) / ((N - 1 : Nat) : Int)))) (100000 * 2 ^ 160)

/-- The whole default table. Irreducible, so that no proof unrolls it by accident; `table_eq` is its definition. -/
@[irreducible] def table (N : Nat) : List F32 := (List.range N).map (blackmanHarris N)

theorem table_eq (N : Nat) : table N = (List.range N).map (blackmanHarris N) := by
  unfold table; rfl

end Sys2Proof.Window
end

