-- ==== Sys2Proof/Config.lean ====
section
/-! DEFINITION. What an implementation fixes (00_scope.md R6, R7) and what the spec leaves open: the
parameter record with its constraints and defaults, the two uninterpreted functions of the numerics record
with their named properties, the numerics record itself, and the free bits of NaN results. -/

namespace Sys2Proof

/-- Channels and sections per channel: fixed (R6). -/
def Config.NCH : Nat := 2
def Config.NSEC : Nat := 10

/-- Which numerics record a block is built with (R6, R62, U3): the default of R62, or any other, by a number
that stands for it (assumption log 16). -/
inductive NumChoice where
  | ieee754
  | other (k : Nat)
  deriving DecidableEq, Repr

/-- The parameter record `P` of R6, less the two fixed counts. It is plain data and stands in the machine's
state, where no step changes it (R7; assumption log 1); its `NUM` is `Params.NUM` below. -/
structure Params where
  blockMax : Nat
  cap      : Nat
  fftSize  : Nat
  frameCap : Nat
  floorDb  : F32
  win      : List F32
  num      : NumChoice
  deriving DecidableEq, Repr

/-- Magnitude bins per frame, `NBIN = N / 2` (R6). -/
def Params.nbin (P : Params) : Nat := P.fftSize / 2

/-- The constraints of R6. There is none on `NUM` beyond what its type says. -/
structure Params.Valid (P : Params) : Prop where
  blockMax_pos : 1 ≤ P.blockMax
  blockMax_le  : P.blockMax ≤ 65535
  block_fits   : P.blockMax ≤ P.fftSize
  cap_pos      : 1 ≤ P.cap
  cap_le       : P.cap ≤ 32767
  fft_ge       : 8 ≤ P.fftSize
  fft_le       : P.fftSize ≤ 65536
  fft_pow      : P.fftSize = 2 ^ P.fftSize.log2
  frame_pos    : 1 ≤ P.frameCap
  frame_le     : P.frameCap ≤ 32767
  floor_finite : F32.isFinite P.floorDb = true
  floor_neg    : F32.units P.floorDb < 0
  win_length   : P.win.length = P.fftSize
  win_finite   : ∀ w ∈ P.win, F32.isFinite w = true

/-- The defaults of R6. -/
def Params.default : Params where
  blockMax := 1024
  cap      := 32
  fftSize  := 4096
  frameCap := 5
  floorDb  := 0xC2C00000#32
  win      := Window.table 4096
  num      := .ieee754

/-- A function fit to be `NUM.fftmag` (R143). `FFTMAG_FUN` is its being a function of the input words;
the fields are that it gives `N/2` words, `FFTMAG_NONNEG` and `FFTMAG_ZERO`. Nothing else is assumed. -/
structure FftMag where
  f       : List F32 → List F32
  length  : ∀ xs, (f xs).length = xs.length / 2
  nonneg  : ∀ xs, ∀ m ∈ f xs, F32.isNaN m = true ∨ 0 ≤ F32.units m
  zero    : ∀ xs, (∀ x ∈ xs, F32.mag x = 0) → ∀ m ∈ f xs, F32.mag m = 0

/-- A function fit to be `NUM.db20` (R146): `DB20_FINITE`, `DB20_ONE`, `DB20_MONO`. Nothing else is
assumed. -/
structure Db20 where
  f      : F32 → F32
  finite : ∀ m, F32.isFinite m = true → F32.gtZero m = true → F32.isFinite (f m) = true
  one    : f 0x3F800000#32 = F32.posZero
  mono   : ∀ m n, F32.isFinite m = true → F32.isFinite n = true → F32.gtZero m = true →
    F32.units m ≤ F32.units n → F32.units (f m) ≤ F32.units (f n)

/-- Witnesses that the named properties can be met; they carry no meaning (the constants below are opaque). -/
def FftMag.silent : FftMag where
  f xs := List.replicate (xs.length / 2) F32.posZero
  length xs := by simp
  nonneg xs m hm := by rw [List.eq_of_mem_replicate hm]; decide
  zero xs _ m hm := by rw [List.eq_of_mem_replicate hm]; decide

def Db20.flat : Db20 where
  f _ := F32.posZero
  finite _ _ _ := by decide
  one := rfl
  mono _ _ _ _ _ _ := Int.le_refl _

/-- Free: any function with the named properties (R143, U5, U6; assumption log 5). -/
opaque Config.anyFftMag [Inhabited FftMag] : FftMag

/-- Free: any function with the named properties (R146, U7; assumption log 6). -/
opaque Config.anyDb20 [Inhabited Db20] : Db20

def Config.fftmag : FftMag := @Config.anyFftMag ⟨FftMag.silent⟩
def Config.db20 : Db20 := @Config.anyDb20 ⟨Db20.flat⟩

/-- A numerics record `NUM`: six total functions (R6, R62, R143, R146). The first argument of the four basic operations is
the free bits of a NaN result, should the operation produce one (R63). -/
structure Num where
  fadd   : NaNBits → F32 → F32 → F32
  fsub   : NaNBits → F32 → F32 → F32
  fmul   : NaNBits → F32 → F32 → F32
  fdiv   : NaNBits → F32 → F32 → F32
  fftmag : FftMag
  db20   : Db20

/-- The default `NUM` (R62). -/
def Config.ieee754 : Num where
  fadd   := F32.fadd
  fsub   := F32.fsub
  fmul   := F32.fmul
  fdiv   := F32.fdiv
  fftmag := Config.fftmag
  db20   := Config.db20

/-- Free: the numerics record a number stands for. It is any record at all, so that a claim about every
parameter record is a claim about every `NUM` (R6, U3; assumption log 16). -/
opaque Config.anyNum [Inhabited Num] (k : Nat) : Num

/-- The numerics record of a choice. -/
def NumChoice.record : NumChoice → Num
  | .ieee754 => Config.ieee754
  | .other k => @Config.anyNum ⟨Config.ieee754⟩ k

/-- `NUM`, the field of the parameter record through which all arithmetic goes (R6, R62). -/
def Params.NUM (P : Params) : Num := P.num.record

/-- Free: the open bits of a NaN produced in the filter chain of a channel, for the `n`-th sample the
channel has processed, the section and the operation (R63, U4; assumption log 4). -/
opaque Config.freeNaN (c : Ch) (n : Nat) (sec op : Nat) : NaNBits

/-- Free: the open bits of a NaN produced by the `j`-th operation of `SPEC` on a rolling buffer; a function
of the buffer, because equal buffers give equal frames (R63, R147; assumption log 4). -/
opaque Config.specNaN (roll : List F32) (j : Nat) : NaNBits

end Sys2Proof
end

