-- ==== Sys2Proof/Syntax.lean ====
section
/-! DEFINITION. The eleven commands of the block as syntax: one constructor per row of
spec/opcode_table.json (30_encoding.md R73), each with its operands and, as its payload, the words that
follow the command word (R75). -/

namespace Sys2Proof

/-- A section index, 0 to 9 (R14). -/
abbrev SecIdx := Fin 10

/-- One coefficient set, written and read as a whole (10_state.md R22). -/
structure Coeffs where
  b0 : F32
  b1 : F32
  b2 : F32
  a1 : F32
  a2 : F32
  deriving DecidableEq, Repr

/-- A command on the port that sends it. The port is an operand only of the three commands both ports may
send (R85); it is fixed for the others. Blocks are lists of samples, oldest first; their length is the
command word's `L`. -/
inductive Instr where
  | nop (p : Port)
  | upd (chm : BitVec 2) (idx : SecIdx) (k : Coeffs)
  | byp (chm : BitVec 2) (idx : SecIdx) (b : Bool)
  | proc (c : Ch) (xs : List F32)
  | push (c : Ch) (xs : List F32)
  | rdc (p : Port) (c : Ch) (idx : SecIdx)
  | pop (c : Ch)
  | feed (c : Ch) (xs : List F32)
  | spec (c : Ch)
  | fpop (c : Ch)
  | rderr (p : Port)
  deriving DecidableEq, Repr

/-- The eleven opcodes (R73). -/
inductive Op where
  | nop | upd | byp | proc | push | rdc | pop | feed | spec | fpop | rderr
  deriving DecidableEq, Repr

/-- The six formats (R72). -/
inductive Format where
  | Z | S | SL | SI | MI | MIB
  deriving DecidableEq, Repr

/-- The opcode of a command. -/
def Instr.op : Instr → Op
  | .nop _ => .nop
  | .upd _ _ _ => .upd
  | .byp _ _ _ => .byp
  | .proc _ _ => .proc
  | .push _ _ => .push
  | .rdc _ _ _ => .rdc
  | .pop _ => .pop
  | .feed _ _ => .feed
  | .spec _ => .spec
  | .fpop _ => .fpop
  | .rderr _ => .rderr

/-- The port a command is sent on (R85). -/
def Instr.port : Instr → Port
  | .nop p => p
  | .upd _ _ _ => .rt
  | .byp _ _ _ => .rt
  | .proc _ _ => .rt
  | .push _ _ => .rt
  | .rdc p _ _ => p
  | .pop _ => .an
  | .feed _ _ => .an
  | .spec _ => .an
  | .fpop _ => .an
  | .rderr p => p

end Sys2Proof
end

