-- ==== Sys2Proof/WellFormed.lean ====
section
/-! DEFINITION. When a command is well formed for a parameter record: the value constraints of
30_encoding.md R73 that the types do not already carry (a section index is 0 to 9 by its type). -/

namespace Sys2Proof

/-- `CHM ≠ 0` for the two mask commands, `L ≤ BLOCK_MAX` for the three block commands (R73). -/
def Instr.wellFormed (P : Params) : Instr → Bool
  | .nop _ => true
  | .upd chm _ _ => chm != 0#2
  | .byp chm _ _ => chm != 0#2
  | .proc _ xs => decide (xs.length ≤ P.blockMax)
  | .push _ xs => decide (xs.length ≤ P.blockMax)
  | .rdc _ _ _ => true
  | .pop _ => true
  | .feed _ xs => decide (xs.length ≤ P.blockMax)
  | .spec _ => true
  | .fpop _ => true
  | .rderr _ => true

end Sys2Proof
end

