-- ==== Sys2Proof/Decode.lean ====
section
/-! DEFINITION. The command word's fields, the opcode map, the decoding procedure and the encoder
(30_encoding.md R71 to R75, R79, R81, R84, R85; 60_exceptions.md R191, R194). -/

namespace Sys2Proof

/-! Fields of the command word (R71, R74); none is signed, scaled or shifted. -/

def fieldOpc (w : Word) : BitVec 4 := w.extractLsb' 28 4
def fieldZ1 (w : Word) : BitVec 2 := w.extractLsb' 26 2
def fieldCh (w : Word) : BitVec 2 := w.extractLsb' 24 2
def fieldZ2 (w : Word) : BitVec 4 := w.extractLsb' 20 4
def fieldIdx (w : Word) : BitVec 4 := w.extractLsb' 16 4
def fieldImm (w : Word) : BitVec 16 := w.extractLsb' 0 16

/-- `L = zext(W[15:0])` (R74). -/
def fieldLen (w : Word) : Nat := (fieldImm w).toNat

/-- `CHN = W[24]` (R74). -/
def fieldChn (w : Word) : Ch := if (fieldCh w).getLsbD 0 then .ch1 else .ch0

/-- `B = W[0]` (R74). -/
def fieldB (w : Word) : Bool := w.getLsbD 0

/-- The seven command errors (R77, R191). -/
inductive CmdError where
  | opcode | port | reserved | chmask | index | length | frame
  deriving DecidableEq, Repr

/-- The status code of a command error (R77). -/
def CmdError.code : CmdError → BitVec 4
  | .opcode => 8
  | .port => 9
  | .reserved => 10
  | .chmask => 11
  | .index => 12
  | .length => 13
  | .frame => 14

/-- `OPC` of each opcode (R73). -/
def Op.code : Op → BitVec 4
  | .nop => 0x0
  | .upd => 0x1
  | .byp => 0x2
  | .proc => 0x3
  | .push => 0x4
  | .rdc => 0x5
  | .pop => 0x6
  | .feed => 0x7
  | .spec => 0x8
  | .fpop => 0x9
  | .rderr => 0xA

/-- The opcode of a nibble; 0xB to 0xF are reserved (R73, R79). -/
def Op.ofCode (n : BitVec 4) : Option Op :=
  match n.toNat with
  | 0 => some .nop
  | 1 => some .upd
  | 2 => some .byp
  | 3 => some .proc
  | 4 => some .push
  | 5 => some .rdc
  | 6 => some .pop
  | 7 => some .feed
  | 8 => some .spec
  | 9 => some .fpop
  | 10 => some .rderr
  | _ => none

/-- Format of each opcode (R72, R73). -/
def Op.format : Op → Format
  | .nop => .Z
  | .upd => .MI
  | .byp => .MIB
  | .proc => .SL
  | .push => .SL
  | .rdc => .SI
  | .pop => .S
  | .feed => .SL
  | .spec => .S
  | .fpop => .S
  | .rderr => .Z

/-- The `match` column of the opcode map (R73). -/
def Op.pattern : Op → Word
  | .nop => 0x00000000
  | .upd => 0x10000000
  | .byp => 0x20000000
  | .proc => 0x30000000
  | .push => 0x40000000
  | .rdc => 0x50000000
  | .pop => 0x60000000
  | .feed => 0x70000000
  | .spec => 0x80000000
  | .fpop => 0x90000000
  | .rderr => 0xA0000000

/-- The `mask` column of the opcode map (R73). -/
def Op.mask : Op → Word
  | .nop => 0xFFFFFFFF
  | .upd => 0xFCF0FFFF
  | .byp => 0xFCF0FFFE
  | .proc => 0xFEFF0000
  | .push => 0xFEFF0000
  | .rdc => 0xFEF0FFFF
  | .pop => 0xFEFFFFFF
  | .feed => 0xFEFF0000
  | .spec => 0xFEFFFFFF
  | .fpop => 0xFEFFFFFF
  | .rderr => 0xFFFFFFFF

/-- Port permissions (R85). -/
def Op.permits : Op → Port → Bool
  | .nop, _ => true
  | .upd, p => p == .rt
  | .byp, p => p == .rt
  | .proc, p => p == .rt
  | .push, p => p == .rt
  | .rdc, _ => true
  | .pop, p => p == .an
  | .feed, p => p == .an
  | .spec, p => p == .an
  | .fpop, p => p == .an
  | .rderr, _ => true

/-- The payload words a command word requires, `NP` (R75, R81). -/
def Op.payloadLen (op : Op) (w : Word) : Nat :=
  match op with
  | .upd => 5
  | .proc => fieldLen w
  | .push => fieldLen w
  | .feed => fieldLen w
  | .nop => 0
  | .byp => 0
  | .rdc => 0
  | .pop => 0
  | .spec => 0
  | .fpop => 0
  | .rderr => 0

/-- Whether the format carries a channel mask, a section index, a length. -/
def Format.hasMask : Format → Bool
  | .MI => true
  | .MIB => true
  | .Z => false
  | .S => false
  | .SL => false
  | .SI => false

def Format.hasIdx : Format → Bool
  | .SI => true
  | .MI => true
  | .MIB => true
  | .Z => false
  | .S => false
  | .SL => false

def Format.hasLen : Format → Bool
  | .SL => true
  | .Z => false
  | .S => false
  | .SI => false
  | .MI => false
  | .MIB => false

/-- The five coefficient words in payload order (R75). -/
def coeffsOf (ws : List Word) : Coeffs where
  b0 := ws.getD 0 0
  b1 := ws.getD 1 0
  b2 := ws.getD 2 0
  a1 := ws.getD 3 0
  a2 := ws.getD 4 0

def wordsOf (k : Coeffs) : List Word := [k.b0, k.b1, k.b2, k.a1, k.a2]

/-- `IDX = W[19:16]` once it is known to be at most 9 (R74). -/
def fieldSec (w : Word) : SecIdx := Fin.ofNat 10 (fieldIdx w).toNat

/-- Operand assembly of a packet that has passed every check (R74, R75). -/
def assemble (op : Op) (p : Port) (pk : Packet) : Instr :=
  match op with
  | .nop => .nop p
  | .upd => .upd (fieldCh pk.word) (fieldSec pk.word) (coeffsOf pk.payload)
  | .byp => .byp (fieldCh pk.word) (fieldSec pk.word) (fieldB pk.word)
  | .proc => .proc (fieldChn pk.word) pk.payload
  | .push => .push (fieldChn pk.word) pk.payload
  | .rdc => .rdc p (fieldChn pk.word) (fieldSec pk.word)
  | .pop => .pop (fieldChn pk.word)
  | .feed => .feed (fieldChn pk.word) pk.payload
  | .spec => .spec (fieldChn pk.word)
  | .fpop => .fpop (fieldChn pk.word)
  | .rderr => .rderr p

/-- The decoding procedure of R84, the tests in its order (R194). It is total: every packet on every port
is a command or is rejected by name. -/
def decode (P : Params) (p : Port) (pk : Packet) : Except CmdError Instr :=
  match Op.ofCode (fieldOpc pk.word) with
  | none => .error .opcode
  | some op =>
    if op.permits p = false then .error .port
    else if pk.word &&& op.mask ≠ op.pattern then .error .reserved
    else if op.format.hasMask = true ∧ fieldCh pk.word = 0 then .error .chmask
    else if op.format.hasIdx = true ∧ 9 < (fieldIdx pk.word).toNat then .error .index
    else if op.format.hasLen = true ∧ P.blockMax < fieldLen pk.word then .error .length
    else if pk.payload.length ≠ op.payloadLen pk.word then .error .frame
    else .ok (assemble op p pk)

/-! The encoder, from the same layout (R71, R72). -/

/-- A command word from its fields, the must-be-zero fields zero. -/
def encodeWord (op : Op) (ch : BitVec 2) (idx : BitVec 4) (imm : BitVec 16) : Word :=
  op.code ++ 0#2 ++ ch ++ 0#4 ++ idx ++ imm

/-- The `CH` field of a channel number, format S (R71). -/
def chnField : Ch → BitVec 2
  | .ch0 => 0
  | .ch1 => 1

/-- The `IDX` field of a section index. -/
def idxField (i : SecIdx) : BitVec 4 := BitVec.ofNat 4 i.val

/-- The packet of a command (R71, R72, R75). -/
def encode : Instr → Packet
  | .nop _ => ⟨encodeWord .nop 0 0 0, []⟩
  | .upd chm idx k => ⟨encodeWord .upd chm (idxField idx) 0, wordsOf k⟩
  | .byp chm idx b => ⟨encodeWord .byp chm (idxField idx) (BitVec.ofNat 16 b.toNat), []⟩
  | .proc c xs => ⟨encodeWord .proc (chnField c) 0 (BitVec.ofNat 16 xs.length), xs⟩
  | .push c xs => ⟨encodeWord .push (chnField c) 0 (BitVec.ofNat 16 xs.length), xs⟩
  | .rdc _ c idx => ⟨encodeWord .rdc (chnField c) (idxField idx) 0, []⟩
  | .pop c => ⟨encodeWord .pop (chnField c) 0 0, []⟩
  | .feed c xs => ⟨encodeWord .feed (chnField c) 0 (BitVec.ofNat 16 xs.length), xs⟩
  | .spec c => ⟨encodeWord .spec (chnField c) 0 0, []⟩
  | .fpop c => ⟨encodeWord .fpop (chnField c) 0 0, []⟩
  | .rderr _ => ⟨encodeWord .rderr 0 0 0, []⟩

/-! The opcode table's numbering of an instruction's bits (the host's): bit 0 is the least significant bit
of the command word, and payload word `j` has the bits from `32·(j+1)` on. -/

/-- The number of payload words a command word requires; none for a reserved opcode. -/
def tablePayloadLen (w : Word) : Nat :=
  match Op.ofCode (fieldOpc w) with
  | none => 0
  | some op => op.payloadLen w

/-- The packet whose bits are `w`, those from `nbits` on zero. -/
def tablePacket (nbits w : Nat) : Packet where
  word := BitVec.ofNat 32 (w % 2 ^ nbits)
  payload := (List.range (tablePayloadLen (BitVec.ofNat 32 (w % 2 ^ nbits)))).map
    fun j => BitVec.ofNat 32 ((w % 2 ^ nbits) >>> (32 * (j + 1)))

/-- The port the packet is put on: `RT` where both may send it or none, else the one that may. -/
def tablePort (nbits w : Nat) : Port :=
  match Op.ofCode (fieldOpc (tablePacket nbits w).word) with
  | none => .rt
  | some op => if op.permits .rt then .rt else .an

/-- What the decoder reads from those bits, under the default parameters. -/
def decodeTableWord (nbits w : Nat) : Option Instr :=
  match decode Params.default (tablePort nbits w) (tablePacket nbits w) with
  | .ok i => some i
  | .error _ => none

end Sys2Proof
end

