-- ==== Sys2Proof/Machine/State.lean ====
section
/-! DEFINITION. The machine's state (10_state.md R20 to R35) as plain data, the reasons a step can stop,
and the state after reset. The block's own state is `par` (fixed), the two channels and the two error
registers; the packet streams, the responses already given, the schedule and the draw counters are the
model's own (assumption log 2, 3, 4): R33 calls them inputs of the step. -/

namespace Sys2Proof.Machine

/-- The block raises no fault: it has no trap and never halts (60_exceptions.md R197, R198), and every
command's meaning is total. No constructor; nobody raises one. -/
inductive Fault where
  deriving DecidableEq, Repr

/-- Why a command has no meaning in the model. `notModelled` is raised by an arm of `exec` whose
instruction has no meaning yet (safe: the machine stops); no arm raises it. A malformed command is not
this: the block answers it with an error status and goes on (R192), a next state. -/
inductive Refusal where
  | notModelled (mnemonic : String)
  deriving DecidableEq, Repr

/-- The four delay registers of a section (R24). -/
structure Delay where
  x1 : F32
  x2 : F32
  y1 : F32
  y2 : F32
  deriving DecidableEq, Repr

/-- One section of one channel: current and active coefficient set, current and active bypass flag, delay
registers (R22, R23, R24). A flag is one bit; true is 1, bypassed. -/
structure Section where
  cur  : Coeffs
  act  : Coeffs
  bypc : Bool
  bypa : Bool
  z    : Delay
  deriving DecidableEq, Repr

/-- A FIFO of length-tagged slots with its two indices (R26, R29). A slot holds the `len` meaningful words,
`len` being their number; R32 lets a model hold anything beyond them (assumption log 8). -/
structure Ring where
  slots : List (List F32)
  wr    : Nat
  rd    : Nat
  deriving DecidableEq, Repr

/-- What exists once per channel (R25, R26, R28, R29). `draws` counts the samples the channel's filter has
processed; it is the model's own and only names the free NaN bits (R63, assumption log 4). -/
structure Channel where
  sec   : Vector Section 10
  sf    : Ring
  roll  : List F32
  ff    : Ring
  draws : Nat
  deriving DecidableEq, Repr

/-- What exists once per port: the sticky error register (R30), and, not state of the block, the packets
the driver has still to send and the responses it has received, oldest first (R20, R33, R57). -/
structure PortState where
  err       : BitVec 4
  pending   : List Packet
  responses : List Packet
  deriving DecidableEq, Repr

/-- Who moves next: the agent of a port, or the external reset (R8, R200, R215). -/
inductive Event where
  | port (p : Port)
  | reset
  deriving DecidableEq, Repr

/-- The machine: the parameter record, the two channels, the two ports, and the order in which the agents
move, which the environment chooses (R57 clause 3, R196). -/
structure State where
  par   : Params
  ch0   : Channel
  ch1   : Channel
  rt    : PortState
  an    : PortState
  sched : List Event
  deriving DecidableEq, Repr

/-! The reset values of R34. -/

/-- `(1.0, +0.0, +0.0, +0.0, +0.0)`. -/
def Coeffs.reset : Coeffs := ⟨0x3F800000#32, 0#32, 0#32, 0#32, 0#32⟩

def Delay.reset : Delay := ⟨F32.posZero, F32.posZero, F32.posZero, F32.posZero⟩

def Section.reset : Section := ⟨Coeffs.reset, Coeffs.reset, true, true, Delay.reset⟩

/-- An empty FIFO of `K` slots, each holding `blk`: R34 leaves the slots' content unspecified and
unreadable (assumption log 8). -/
def Ring.reset (K : Nat) (blk : List F32) : Ring := ⟨List.replicate K blk, 0, 0⟩

/-- A channel after reset; the draw counter is no state of the block and keeps its value. -/
def Channel.reset (P : Params) (draws : Nat) : Channel where
  sec   := Vector.replicate 10 Section.reset
  sf    := Ring.reset P.cap []
  roll  := List.replicate P.fftSize F32.posZero
  ff    := Ring.reset P.frameCap (List.replicate P.nbin F32.posZero)
  draws := draws

/-- A block built with the parameter record `P`, right after reset, with no packet to execute (R7, R34). -/
def State.init (P : Params) : State where
  par   := P
  ch0   := Channel.reset P 0
  ch1   := Channel.reset P 0
  rt    := ⟨0#4, [], []⟩
  an    := ⟨0#4, [], []⟩
  sched := []

/-- The machine right after reset, with the default parameters (R6, R34). -/
def State.reset : State := State.init Params.default

end Sys2Proof.Machine
end

