-- ==== Sys2Proof/Machine/Flags.lean ====
section
/-! DEFINITION. What the block has in place of flags: the status of a response (30_encoding.md R77), the
response word that carries it (R76), and the sticky error register (10_state.md R30, R31; 60_exceptions.md
R193). The block keeps no condition flags (R31). -/

namespace Sys2Proof.Machine

/-- The outcome a response reports (R77). -/
inductive Status where
  | ok
  | noData
  | error (e : CmdError)
  deriving DecidableEq, Repr

/-- Status codes (R77); 2 to 7 and 15 are never produced. -/
def Status.code : Status → BitVec 4
  | .ok => 0
  | .noData => 1
  | .error e => e.code

/-- The response word: `OPC ‖ STATUS ‖ 0x00 ‖ NW` (R76). -/
def responseWord (opc : BitVec 4) (st : Status) (nw : Nat) : Word :=
  opc ++ st.code ++ 0x00#8 ++ BitVec.ofNat 16 nw

/-- The response packet of `respond(status, words)` (R76, R78). -/
def response (opc : BitVec 4) (st : Status) (ws : List Word) : Packet :=
  ⟨responseWord opc st ws.length, ws⟩

/-- The error register after a refusal with code `e`: the first code stays (R192, R193). -/
def recordError (err : BitVec 4) (e : CmdError) : BitVec 4 := if err = 0#4 then e.code else err

/-- `zext_32` of a 4-bit register and of a flag (R78). -/
def errWord (err : BitVec 4) : Word := err.setWidth 32
def flagWord (b : Bool) : Word := if b then 1#32 else 0#32

end Sys2Proof.Machine
end

