-- ==== Sys2Proof/Machine/Operands.lean ====
section
/-! DEFINITION. The operand forms (30_encoding.md R72, R74): a single channel (formats S, SL, SI), a
channel mask (MI, MIB), a section index (SI, MI, MIB), and a block as payload (SL). -/

namespace Sys2Proof.Machine

/-- Format S: the channel a command names. -/
def State.chan (s : State) : Ch → Channel
  | .ch0 => s.ch0
  | .ch1 => s.ch1

/-- Format S: one channel replaced, the other untouched. -/
def State.setChan (s : State) (c : Ch) (g : Channel) : State :=
  match c with
  | .ch0 => { s with ch0 := g }
  | .ch1 => { s with ch1 := g }

/-- Format M: whether the mask selects a channel, bit 0 for channel 0 and bit 1 for channel 1 (R74). -/
def selects (chm : BitVec 2) : Ch → Bool
  | .ch0 => chm.getLsbD 0
  | .ch1 => chm.getLsbD 1

/-- Format M: a change made to every selected channel, and to no other (R74). -/
def State.onMask (s : State) (chm : BitVec 2) (f : Channel → Channel) : State :=
  { s with
    ch0 := if selects chm .ch0 then f s.ch0 else s.ch0
    ch1 := if selects chm .ch1 then f s.ch1 else s.ch1 }

/-- The section of a channel that `IDX` names. -/
def Channel.secAt (g : Channel) (i : SecIdx) : Section := g.sec[i]

/-- A change made to the section `IDX` names, and to no other. -/
def Channel.onSec (g : Channel) (i : SecIdx) (f : Section → Section) : Channel :=
  { g with sec := g.sec.set i (f g.sec[i]) }

/-- The port whose register, stream and responses a command on port `p` uses. -/
def State.port (s : State) : Port → PortState
  | .rt => s.rt
  | .an => s.an

def State.setPort (s : State) (p : Port) (q : PortState) : State :=
  match p with
  | .rt => { s with rt := q }
  | .an => { s with an := q }

end Sys2Proof.Machine
end

