-- ==== Sys2Proof/Machine/Ops.lean ====
section
/-! DEFINITION. The shared operations: the FIFO (20_memory.md R56, 41_sample_fifo.md R121, R122), answering
a command (30_encoding.md R76), refusing one (60_exceptions.md R192, the block's only reaction to an error),
the reset event (70_reset_and_hazards.md R215) and the choice of the next packet (20_memory.md R57). -/

namespace Sys2Proof.Machine

/-! The FIFO of capacity `K`, for blocks and for frames (R26, R27, R56). -/

/-- The index after `i` (R56). -/
def ringNext (K i : Nat) : Nat := (i + 1) % (2 * K)

/-- `cnt(f) = (wr − rd) mod 2K` (R27). -/
def Ring.cnt (K : Nat) (f : Ring) : Nat := (f.wr + (2 * K - f.rd)) % (2 * K)

/-- `SlotRead(F, i mod K)`, one whole slot (R52, R56). -/
def Ring.slotRead (K : Nat) (f : Ring) (i : Nat) : List F32 := f.slots.getD (i % K) []

/-- `SlotWrite(F, i mod K, v)`, one whole slot (R52, R56). -/
def Ring.slotWrite (K : Nat) (f : Ring) (i : Nat) (v : List F32) : List (List F32) :=
  f.slots.set (i % K) v

/-- The producer side: the oldest unread unit is given up when the FIFO is full (R121, R144). -/
def Ring.push (K : Nat) (v : List F32) (f : Ring) : Ring where
  slots := f.slotWrite K f.wr v
  wr    := ringNext K f.wr
  rd    := if f.cnt K = K then ringNext K f.rd else f.rd

/-- The consumer side: the oldest unread unit and the FIFO after it, or nothing when `wr = rd` (R122, R145). -/
def Ring.pop (K : Nat) (f : Ring) : Option (List F32 × Ring) :=
  if f.wr = f.rd then none
  else some (f.slotRead K f.rd, { f with rd := ringNext K f.rd })

/-- The unread units, oldest first (R27). -/
def Ring.unread (K : Nat) (f : Ring) : List (List F32) :=
  (List.range (f.cnt K)).map fun j => f.slotRead K (f.rd + j)

/-! Answering and refusing. -/

/-- `respond(status, words)` on port `p` (R76): one more response, the newest last. -/
def State.respond (s : State) (p : Port) (opc : BitVec 4) (st : Status) (ws : List Word) : State :=
  s.setPort p { s.port p with responses := (s.port p).responses ++ [response opc st ws] }

/-- `refuse E` on port `p` for a command word `w` (R192): the first error is recorded, the response
carries the code and no payload, and nothing else changes. -/
def State.refuse (s : State) (p : Port) (w : Word) (e : CmdError) : State :=
  (s.setPort p { s.port p with err := recordError (s.port p).err e }).respond p (fieldOpc w) (.error e) []

/-! Reset. -/

/-- The external reset (R215, R216): every piece of the block's state takes its value of R34, for both
channels and both ports at once. The drivers' streams, what they have received, and the schedule are not
the block's. -/
def State.onReset (s : State) : State where
  par   := s.par
  ch0   := Channel.reset s.par s.ch0.draws
  ch1   := Channel.reset s.par s.ch1.draws
  rt    := { s.rt with err := 0#4 }
  an    := { s.an with err := 0#4 }
  sched := s.sched

/-! Which event comes next. -/

/-- What the schedule names: nothing to do, the reset, or a packet of a port, with the state from which
that event is carried out. -/
inductive Fetched where
  | idle (s : State)
  | reset (s : State)
  | packet (p : Port) (pk : Packet) (s : State)
  deriving DecidableEq, Repr

/-- Takes the next event off the schedule and, for a port, the next packet off its stream (R57 clauses 1
and 3). The block waits where the schedule is empty; an agent with no packet left does nothing. -/
def fetch (s : State) : Fetched :=
  match s.sched with
  | [] => .idle s
  | .reset :: rest => .reset { s with sched := rest }
  | .port p :: rest =>
    match (s.port p).pending with
    | [] => .idle { s with sched := rest }
    | pk :: more => .packet p pk ({ s with sched := rest }.setPort p { s.port p with pending := more })

/-- A packet put at the head of a port's stream, and that port's turn at the head of the schedule. -/
def State.offer (s : State) (p : Port) (pk : Packet) : State :=
  { s.setPort p { s.port p with pending := pk :: (s.port p).pending } with
    sched := .port p :: s.sched }

end Sys2Proof.Machine
end

