-- ==== Sys2Proof/Machine/FilterChain.lean ====
section
/-! DEFINITION. The filter chain, unit FC (40_filter_chain.md R100 to R114): UPD, BYP, PROC, RDC. -/

namespace Sys2Proof.Machine

/-! The datapath. The numerics record comes in as an argument (R62), and so do the free NaN bits of each
operation, numbered by the operation. -/

/-- `u` of `Step` (R106): the five products and four sums in the rule's order, each rounded on its own. -/
def biquadOut (N : Num) (nan : Nat → NaNBits) (k : Coeffs) (d : Delay) (v : F32) : F32 :=
  let t0 := N.fmul (nan 0) k.b0 v
  let t1 := N.fmul (nan 1) k.b1 d.x1
  let t2 := N.fmul (nan 2) k.b2 d.x2
  let t3 := N.fmul (nan 3) k.a1 d.y1
  let t4 := N.fmul (nan 4) k.a2 d.y2
  N.fsub (nan 8) (N.fsub (nan 7) (N.fadd (nan 6) (N.fadd (nan 5) t0 t1) t2) t3) t4

/-- The delay registers after a sample `v` went in and `u` came out (R106). -/
def Delay.shift (d : Delay) (v u : F32) : Delay := ⟨v, d.x1, u, d.y1⟩

/-- The output of one section for one sample: a bypassed section is skipped (R105, R108). -/
def Section.out (N : Num) (nan : Nat → NaNBits) (x : Section) (v : F32) : F32 :=
  if x.bypa then v else biquadOut N nan x.act x.z v

/-- One section after one sample: a bypassed section keeps its delay registers (R105, R108). -/
def Section.after (N : Num) (nan : Nat → NaNBits) (x : Section) (v : F32) : Section :=
  if x.bypa then x else { x with z := x.z.shift v (biquadOut N nan x.act x.z v) }

/-- One sample through sections `k`, `k+1`, … in index order (R105). -/
def chainOut (N : Num) (nan : Nat → Nat → NaNBits) : Nat → List Section → F32 → F32
  | _, [], v => v
  | k, x :: xs, v => chainOut N nan (k + 1) xs (x.out N (nan k) v)

/-- The sections after one sample (R105). -/
def chainAfter (N : Num) (nan : Nat → Nat → NaNBits) : Nat → List Section → F32 → List Section
  | _, [], _ => []
  | k, x :: xs, v => x.after N (nan k) v :: chainAfter N nan (k + 1) xs (x.out N (nan k) v)

theorem chainAfter_length (N : Num) (nan : Nat → Nat → NaNBits) (k : Nat) (xs : List Section) (v : F32) :
    (chainAfter N nan k xs v).length = xs.length := by
  induction xs generalizing k v with
  | nil => rfl
  | cons x xs ih => simp [chainAfter, ih]

/-- The ten sections after one sample. -/
def bankAfter (N : Num) (nan : Nat → Nat → NaNBits) (x : Vector Section 10) (v : F32) : Vector Section 10 :=
  ⟨(chainAfter N nan 0 x.toList v).toArray, by simp [chainAfter_length]⟩

/-- The output samples of a block, `n` being the number of its first sample (R105). -/
def blockOut (N : Num) (nan : Nat → Nat → Nat → NaNBits) : Nat → Vector Section 10 → List F32 → List F32
  | _, _, [] => []
  | n, x, v :: vs => chainOut N (nan n) 0 x.toList v :: blockOut N nan (n + 1) (bankAfter N (nan n) x v) vs

/-- The ten sections after a block (R105). -/
def blockAfter (N : Num) (nan : Nat → Nat → Nat → NaNBits) : Nat → Vector Section 10 → List F32 → Vector Section 10
  | _, x, [] => x
  | n, x, v :: vs => blockAfter N nan (n + 1) (bankAfter N (nan n) x v) vs

/-- The latch of one section: current set and flag become the active ones (R103). -/
def Section.latch (x : Section) : Section := { x with act := x.cur, bypa := x.bypc }

/-- The latch of a channel: all twenty copies together (R103). -/
def Channel.latch (g : Channel) : Channel := { g with sec := g.sec.map Section.latch }

/-- A channel after `PROC` of a block: latched, then every sample in time order (R103, R105). -/
def Channel.proc (N : Num) (c : Ch) (g : Channel) (xs : List F32) : Channel :=
  { g with
    sec := blockAfter N (Config.freeNaN c) g.draws g.latch.sec xs
    draws := g.draws + xs.length }

/-- The samples `PROC` answers with (R105). -/
def Channel.procOut (N : Num) (c : Ch) (g : Channel) (xs : List F32) : List F32 :=
  blockOut N (Config.freeNaN c) g.draws g.latch.sec xs

/-! The meanings. -/

/-- `UPD` (R101): the set of section `IDX` of every selected channel, all five words together. -/
def execUpd (chm : BitVec 2) (idx : SecIdx) (k : Coeffs) (s : State) : Host.Outcome State Fault Refusal :=
  .next ((s.onMask chm fun g => g.onSec idx fun x => { x with cur := k }).respond .rt Op.upd.code .ok [])

/-- `BYP` (R102): the current bypass flag of section `IDX` of every selected channel. -/
def execByp (chm : BitVec 2) (idx : SecIdx) (b : Bool) (s : State) : Host.Outcome State Fault Refusal :=
  .next ((s.onMask chm fun g => g.onSec idx fun x => { x with bypc := b }).respond .rt Op.byp.code .ok [])

/-- `PROC` (R105). -/
def execProc (c : Ch) (xs : List F32) (s : State) : Host.Outcome State Fault Refusal :=
  .next ((s.setChan c ((s.chan c).proc s.par.NUM c xs)).respond .rt Op.proc.code .ok ((s.chan c).procOut s.par.NUM c xs))

/-- `RDC` (R109): the current set and flag, one atomic read; nothing is written. -/
def execRdc (p : Port) (c : Ch) (idx : SecIdx) (s : State) : Host.Outcome State Fault Refusal :=
  .next (s.respond p Op.rdc.code .ok
    (wordsOf ((s.chan c).secAt idx).cur ++ [flagWord ((s.chan c).secAt idx).bypc]))

end Sys2Proof.Machine
end

