-- ==== Sys2Proof/Machine/SampleFifo.lean ====
section
/-! DEFINITION. The cross-context sample FIFO, unit SF (41_sample_fifo.md R120 to R128): PUSH, POP. -/

namespace Sys2Proof.Machine

/-- `PUSH` (R121): stores the block, dropping the oldest unread one if the FIFO is full; always `OK`. -/
def execPush (c : Ch) (xs : List F32) (s : State) : Host.Outcome State Fault Refusal :=
  .next ((s.setChan c { s.chan c with sf := (s.chan c).sf.push s.par.cap xs }).respond .rt Op.push.code .ok [])

/-- `POP` (R122): the oldest unread block, or `NODATA`. -/
def execPop (c : Ch) (s : State) : Host.Outcome State Fault Refusal :=
  match (s.chan c).sf.pop s.par.cap with
  | none => .next (s.respond .an Op.pop.code .noData [])
  | some (blk, f) => .next ((s.setChan c { s.chan c with sf := f }).respond .an Op.pop.code .ok blk)

end Sys2Proof.Machine
end

