-- ==== Sys2Proof/Machine/Spectrum.lean ====
section
/-! DEFINITION. The spectrum unit, SP (42_spectrum.md R135 to R148): FEED, SPEC, FPOP. -/

namespace Sys2Proof.Machine

/-- The rolling buffer shifted left by the block's length with the block appended (R136). -/
def feedRoll (roll xs : List F32) : List F32 := roll.drop xs.length ++ xs

/-- The windowed copy `xw` (R137, R138). -/
def windowed (P : Params) (roll : List F32) : List F32 :=
  (List.range P.fftSize).map fun n =>
    P.NUM.fmul (Config.specNaN roll n) (roll.getD n F32.posZero) (P.win.getD n F32.posZero)

/-- The division by the bin count, and non-finite results clamped to zero (R140). -/
def normalise (P : Params) (d : NaNBits) (m : F32) : F32 :=
  let q := P.NUM.fdiv d m (F32.ofNat P.nbin)
  if F32.isFinite q then q else F32.posZero

/-- `Db(m)` (R141). -/
def decibel (P : Params) (m : F32) : F32 :=
  if F32.gtZero m then F32.fmax P.floorDb (P.NUM.db20.f m) else P.floorDb

/-- The frame of a rolling buffer: window, transform, normalise, clamp, decibels, in this order (R137). -/
def frameOf (P : Params) (roll : List F32) : List F32 :=
  let M := P.NUM.fftmag.f (windowed P roll)
  (List.range P.nbin).map fun k =>
    decibel P (normalise P (Config.specNaN roll (P.fftSize + k)) (M.getD k F32.posZero))

/-- `FEED` (R136). -/
def execFeed (c : Ch) (xs : List F32) (s : State) : Host.Outcome State Fault Refusal :=
  .next ((s.setChan c { s.chan c with roll := feedRoll (s.chan c).roll xs }).respond .an Op.feed.code .ok [])

/-- `SPEC` (R137, R144): the frame is pushed; the rolling buffer is left unchanged (R147). -/
def execSpec (c : Ch) (s : State) : Host.Outcome State Fault Refusal :=
  .next ((s.setChan c { s.chan c with
      ff := (s.chan c).ff.push s.par.frameCap (frameOf s.par (s.chan c).roll) }).respond .an Op.spec.code .ok [])

/-- `FPOP` (R145): the oldest unread frame, or `NODATA`. -/
def execFpop (c : Ch) (s : State) : Host.Outcome State Fault Refusal :=
  match (s.chan c).ff.pop s.par.frameCap with
  | none => .next (s.respond .an Op.fpop.code .noData [])
  | some (frame, g) => .next ((s.setChan c { s.chan c with ff := g }).respond .an Op.fpop.code .ok frame)

end Sys2Proof.Machine
end

