-- ==== Sys2Proof/Machine/System.lean ====
section
/-! DEFINITION. The system commands (43_system.md R160 to R162): NOP, RDERR. -/

namespace Sys2Proof.Machine

/-- `NOP` (R160): only the response. -/
def execNop (p : Port) (s : State) : Host.Outcome State Fault Refusal :=
  .next (s.respond p Op.nop.code .ok [])

/-- `RDERR` (R161): this port's sticky error register, which reading does not clear. -/
def execRderr (p : Port) (s : State) : Host.Outcome State Fault Refusal :=
  .next (s.respond p Op.rderr.code .ok [errWord (s.port p).err])

end Sys2Proof.Machine
end

