-- ==== Sys2Proof/Machine/Dispatch.lean ====
section
/-! DEFINITION. One arm per command. -/

namespace Sys2Proof.Machine

def exec (i : Instr) (s : State) : Host.Outcome State Fault Refusal :=
  match i with
  | .nop p => Sys2Proof.Machine.execNop p s
  | .upd chm idx k => Sys2Proof.Machine.execUpd chm idx k s
  | .byp chm idx b => Sys2Proof.Machine.execByp chm idx b s
  | .proc c xs => Sys2Proof.Machine.execProc c xs s
  | .push c xs => Sys2Proof.Machine.execPush c xs s
  | .rdc p c idx => Sys2Proof.Machine.execRdc p c idx s
  | .pop c => Sys2Proof.Machine.execPop c s
  | .feed c xs => Sys2Proof.Machine.execFeed c xs s
  | .spec c => Sys2Proof.Machine.execSpec c s
  | .fpop c => Sys2Proof.Machine.execFpop c s
  | .rderr p => Sys2Proof.Machine.execRderr p s

end Sys2Proof.Machine
end

