-- ==== Sys2Proof/Machine/Step.lean ====
section
/-! DEFINITION. One step: one event of the schedule, one whole command at most (00_scope.md R10, 20_memory.md
R57, 60_exceptions.md R200). -/

namespace Sys2Proof.Machine

/-- The next event: nothing, the reset, or a packet, which is decoded and executed or refused. -/
def step (s : State) : Host.Outcome State Fault Refusal :=
  match fetch s with
  | .idle t => .next t
  | .reset t => .next t.onReset
  | .packet p pk t =>
    match decode t.par p pk with
    | .ok i => exec i t
    | .error e => .next (t.refuse p pk.word e)

/-- `s` with the packet whose bits are `w` put next on the port that may send it, and that port's turn
next. -/
def State.withFetchWord (s : State) (nbits w : Nat) : State :=
  s.offer (tablePort nbits w) (tablePacket nbits w)

end Sys2Proof.Machine
end

