-- ==== Sys2Proof/Machine/Pseudo.lean ====
section
/-! DEFINITION. The pseudo-commands (30_encoding.md R83, 41_sample_fifo.md R125, 47_host_collaborators.md
R174, R176, R182): fixed sequences of real commands that a driver sends. They are the drivers', not the
block's: the step knows nothing of them. The two ports' commands that may fall between those of a sequence
are left out here; the schedule of the state expresses them. -/

namespace Sys2Proof.Machine

/-- Runs the rest of a sequence from the next state. -/
def andThen (o : Host.Outcome State Fault Refusal) (f : State → Host.Outcome State Fault Refusal) :
    Host.Outcome State Fault Refusal :=
  match o with
  | .next s => f s
  | .fault r => .fault r
  | .refused r => .refused r

/-- Commands one after the other. -/
def execAll : List Instr → State → Host.Outcome State Fault Refusal
  | [], s => .next s
  | i :: is, s => andThen (exec i s) (execAll is)

/-- `updall`, `bypall` (R83): both channels alike. -/
def updall (idx : SecIdx) (k : Coeffs) : Instr := .upd 3#2 idx k
def bypall (idx : SecIdx) (b : Bool) : Instr := .byp 3#2 idx b

/-- The two cut bands (R14). -/
inductive CutBand where
  | lowCut
  | highCut
  deriving DecidableEq, Repr

/-- The index of the `k`-th section of a cut band: 0 to 3 for low-cut, 6 to 9 for high-cut (R14). -/
def CutBand.sec : CutBand → Fin 4 → SecIdx
  | .lowCut, k => ⟨k.val, by omega⟩
  | .highCut, k => ⟨6 + k.val, by omega⟩

/-- `setcut <band> <slope> <b> <set0..set3>` (R83, R174): sections up to the slope get their set and the
band's flag, the others are bypassed. -/
def setcut (band : CutBand) (slope : Fin 4) (b : Bool) (set : Fin 4 → Coeffs) : List Instr :=
  ([0, 1, 2, 3] : List (Fin 4)).flatMap fun k =>
    if k ≤ slope then [updall (band.sec k) (set k), bypall (band.sec k) b] else [bypall (band.sec k) true]

/-- The newest response a port has given. -/
def State.lastResponse (s : State) (p : Port) : Option Packet := (s.port p).responses.getLast?

/-- The status field of a response word, bits 27:24 (R76). -/
def fieldStatus (q : Word) : BitVec 4 := q.extractLsb' 24 4

/-- `drain` with `n` pops still allowed (R83, R125): pop, stop at `NODATA`, else feed the popped block. -/
def drainAtMost (c : Ch) : Nat → State → Host.Outcome State Fault Refusal
  | 0, s => .next s
  | n + 1, s =>
    andThen (exec (.pop c) s) fun t =>
      match t.lastResponse .an with
      | none => .next t
      | some r =>
        if fieldStatus r.word = Status.noData.code then .next t
        else andThen (exec (.feed c r.payload) t) (drainAtMost c n)

/-- `drain <ch>`: at most `CAP` pops (R125). -/
def drain (c : Ch) (s : State) : Host.Outcome State Fault Refusal := drainAtMost c s.par.cap s

/-- `PROC` of a block, then the rest with the samples it answered. -/
def procThen (c : Ch) (xs : List F32) (f : List F32 → State → Host.Outcome State Fault Refusal) (s : State) :
    Host.Outcome State Fault Refusal :=
  andThen (exec (.proc c xs) s) fun t =>
    match t.lastResponse .rt with
    | none => .next t
    | some r => f r.payload t

/-- `callback [blk0] [blk1]` (R83, R176): both channels processed, then both outputs pushed. -/
def callback (blk0 blk1 : List F32) (s : State) : Host.Outcome State Fault Refusal :=
  procThen .ch0 blk0 (fun out0 => procThen .ch1 blk1 fun out1 =>
    execAll [.push .ch0 out0, .push .ch1 out1]) s

/-- `tick` (R83, R182): drain both channels, then one frame each. -/
def tick (s : State) : Host.Outcome State Fault Refusal :=
  andThen (drain .ch0 s) fun t => andThen (drain .ch1 t) (execAll [.spec .ch0, .spec .ch1])

end Sys2Proof.Machine
end

