-- ==== Sys2Proof/Machine/Reference.lean ====
section
/-! DEFINITION. Reference meanings the spec gives beside the block's own arithmetic: exact values, the exact
magnitude and decibel functions with the named open hypotheses about them (42_spectrum.md R139, R143, R146),
and the other loop order of the filter chain (40_filter_chain.md R110). No step uses them. -/

namespace Sys2Proof.Machine

/-- The exact value of a finite binary32 datum. -/
def exactValue (x : F32) : ℚ := (F32.units x : ℚ) / 2 ^ 149

/-- `r` is `Mref[k]` of a buffer of finite values, in exact real arithmetic (R139). -/
def IsRefMagnitude (xs : List F32) (k : ℕ) (r : ℝ) : Prop :=
  r = ‖∑ n ∈ Finset.range xs.length,
    ((exactValue (xs.getD n F32.posZero) : ℚ) : ℂ) *
      Complex.exp (((-(2 * Real.pi * k * n / xs.length) : ℝ) : ℂ) * Complex.I)‖

/-- The hypothesis `[H-FFT]` for one input: `NUM.fftmag` gives `Mref` exactly (95_test_vectors.md B3). -/
def FftExactOn (N : Num) (xs : List F32) : Prop :=
  ∀ k < xs.length / 2, F32.isFinite ((N.fftmag.f xs).getD k F32.posZero) = true ∧
    IsRefMagnitude xs k ((exactValue ((N.fftmag.f xs).getD k F32.posZero) : ℚ) : ℝ)

/-- The named hypothesis `FFT_EPS` (R143, `FFTMAG_APPROX`): open, never assumed silently. -/
def FftEps (N : Num) (ε : ℝ) : Prop :=
  ∀ xs : List F32, (∀ x ∈ xs, F32.isFinite x = true) → ∀ k < xs.length / 2, ∀ r : ℝ, IsRefMagnitude xs k r →
    F32.isFinite ((N.fftmag.f xs).getD k F32.posZero) = true →
      |((exactValue ((N.fftmag.f xs).getD k F32.posZero) : ℚ) : ℝ) - r| ≤ ε

/-- `DB20_APPROX` (R146): open, never assumed silently. -/
def Db20Eps (N : Num) (ε : ℝ) : Prop :=
  ∀ m : F32, F32.isFinite m = true → F32.gtZero m = true →
    |((exactValue (N.db20.f m) : ℚ) : ℝ) - 20 * Real.logb 10 ((exactValue m : ℚ) : ℝ)| ≤ ε

/-- One section over a whole block: its outputs (R110). -/
def sectionBlockOut (N : Num) (nan : Nat → Nat → NaNBits) : Nat → Section → List F32 → List F32
  | _, _, [] => []
  | n, x, v :: vs => x.out N (nan n) v :: sectionBlockOut N nan (n + 1) (x.after N (nan n) v) vs

/-- One section over a whole block: the section after it (R110). -/
def sectionBlockAfter (N : Num) (nan : Nat → Nat → NaNBits) : Nat → Section → List F32 → Section
  | _, x, [] => x
  | n, x, v :: vs => sectionBlockAfter N nan (n + 1) (x.after N (nan n) v) vs

/-- Each section over the whole block before the next (R110): the block's outputs. -/
def sectionwiseOut (N : Num) (nan : Nat → Nat → Nat → NaNBits) (n : Nat) : Nat → List Section → List F32 → List F32
  | _, [], vs => vs
  | k, x :: xs, vs => sectionwiseOut N nan n (k + 1) xs (sectionBlockOut N (fun m => nan m k) n x vs)

/-- Each section over the whole block before the next (R110): the sections after it. -/
def sectionwiseAfter (N : Num) (nan : Nat → Nat → Nat → NaNBits) (n : Nat) : Nat → List Section → List F32 → List Section
  | _, [], _ => []
  | k, x :: xs, vs =>
    sectionBlockAfter N (fun m => nan m k) n x vs ::
      sectionwiseAfter N nan n (k + 1) xs (sectionBlockOut N (fun m => nan m k) n x vs)

end Sys2Proof.Machine
end

