-- ==== Sys2Proof/Safety.lean ====
section
/-! DEFINITION. What claims are stated in: the invariants of a reachable state (10_state.md R27, R35), a good
end of a run (60_exceptions.md R193, 70_reset_and_hazards.md R237), and the parts a command leaves alone. -/

namespace Sys2Proof.Machine

/-- The number of a channel (R14). -/
def chNum : Ch → Nat
  | .ch0 => 0
  | .ch1 => 1

/-- The other channel. -/
def otherCh : Ch → Ch
  | .ch0 => .ch1
  | .ch1 => .ch0

/-- The other port. -/
def otherPort : Port → Port
  | .rt => .an
  | .an => .rt

/-- A FIFO of capacity `K` (R26, R27): `K` slots, indices in `0 .. 2K−1`, at most `K` unread units. -/
structure Ring.Wf (K : Nat) (f : Ring) : Prop where
  slots : f.slots.length = K
  wr    : f.wr < 2 * K
  rd    : f.rd < 2 * K
  cnt   : f.cnt K ≤ K

/-- What R35 clause 5 says of one unread frame, with the frame's layout (R148). -/
def frameGood (P : Params) (F : List F32) : Prop :=
  F.length = P.nbin ∧ ∀ x ∈ F, F32.isFinite x = true ∧ F32.units P.floorDb ≤ F32.units x

/-- R35 clauses 1, 2 and 5 for one channel, with the rolling buffer's size (R28). Clause 4 is in the types. -/
structure Channel.Wf (P : Params) (g : Channel) : Prop where
  sf     : g.sf.Wf P.cap
  blocks : ∀ b ∈ g.sf.unread P.cap, b.length ≤ P.blockMax
  roll   : g.roll.length = P.fftSize
  ff     : g.ff.Wf P.frameCap
  frames : ∀ F ∈ g.ff.unread P.frameCap, frameGood P F

/-- R35 clause 3, R30: the legal values of an error register. -/
def errLegal (e : BitVec 4) : Prop := e = 0#4 ∨ ∃ c : CmdError, e = c.code

/-- The invariants of every reachable state (R35), with the constraints of the parameter record (R6). -/
structure State.Inv (s : State) : Prop where
  par : s.par.Valid
  ch0 : s.ch0.Wf s.par
  ch1 : s.ch1.Wf s.par
  rt  : errLegal s.rt.err
  an  : errLegal s.an.err

/-- No command has been refused on either port since reset (R193). -/
def State.NoFault (s : State) : Prop := s.rt.err = 0#4 ∧ s.an.err = 0#4

/-- The end of a run: both drivers' packet lists are exhausted (R237). -/
def State.Ended (s : State) : Prop := s.rt.pending = [] ∧ s.an.pending = []

/-- A good end (R237). -/
def State.GoodEnd (s : State) : Prop := s.Ended ∧ s.NoFault

/-- What every executed command does outside its own effect: port `p` has one more response, `r`; the error
registers, the streams, the schedule and the parameters are as before. -/
structure State.Answers (s t : State) (p : Port) (r : Packet) : Prop where
  par       : t.par = s.par
  sched     : t.sched = s.sched
  err       : ∀ q, (t.port q).err = (s.port q).err
  pending   : ∀ q, (t.port q).pending = (s.port q).pending
  responses : (t.port p).responses = (s.port p).responses ++ [r]
  others    : (t.port (otherPort p)).responses = (s.port (otherPort p)).responses

/-- The filter chain of a channel is as before (R21: `cur`, `act`, `bypc`, `bypa`, `z`). -/
def SameFilter (g h : Channel) : Prop := h.sec = g.sec ∧ h.draws = g.draws

/-- The parts of a channel behind the filter are as before (R21: `sf`, `roll`, `ff`). -/
def SameFifos (g h : Channel) : Prop := h.sf = g.sf ∧ h.roll = g.roll ∧ h.ff = g.ff

/-- The block's own state, without what the drivers still hold and have received: channels, error registers,
parameters. -/
def State.SameBlock (s t : State) : Prop :=
  t.par = s.par ∧ t.ch0 = s.ch0 ∧ t.ch1 = s.ch1 ∧ t.rt.err = s.rt.err ∧ t.an.err = s.an.err

/-- When a command error applies to a packet on a port, each cause by itself (60_exceptions.md R191). -/
def causeHolds (P : Params) (p : Port) (pk : Packet) : CmdError → Prop
  | .opcode => 11 ≤ (fieldOpc pk.word).toNat
  | .port => ∃ op : Op, fieldOpc pk.word = op.code ∧ op.permits p = false
  | .reserved => ∃ op : Op, fieldOpc pk.word = op.code ∧ pk.word &&& op.mask ≠ op.pattern
  | .chmask => ∃ op ∈ [Op.upd, .byp], fieldOpc pk.word = op.code ∧ fieldCh pk.word = 0
  | .index => ∃ op ∈ [Op.upd, .byp, .rdc], fieldOpc pk.word = op.code ∧ 9 < (fieldIdx pk.word).toNat
  | .length => ∃ op ∈ [Op.proc, .push, .feed], fieldOpc pk.word = op.code ∧ P.blockMax < fieldLen pk.word
  | .frame => ∃ op : Op, fieldOpc pk.word = op.code ∧ pk.payload.length ≠ op.payloadLen pk.word

/-- The state after the schedule's next event and a packet's removal: what the packet is executed from. -/
def State.took (s : State) (p : Port) (rest : List Event) (more : List Packet) : State :=
  { s with sched := rest }.setPort p { s.port p with pending := more }

/-- The schedule's next event is a port's turn, and that port's next packet decodes to this command. -/
def State.NextCommand (s : State) (i : Instr) : Prop :=
  ∃ p pk, s.sched.head? = some (.port p) ∧ (s.port p).pending.head? = some pk ∧ decode s.par p pk = .ok i

/-- Two steps. -/
def stepTwice (s : State) : Host.Outcome State Fault Refusal :=
  match step s with
  | .next t => step t
  | .fault r => .fault r
  | .refused r => .refused r

/-- The cases in which the order of a command of `RT` and a command of `AN` shows (60_exceptions.md R196): `PUSH`
with `POP` of one channel whose FIFO is empty or full, `UPD` or `BYP` with `RDC` of one section. -/
def ordersDiffer (s : State) : Instr → Instr → Prop
  | .push c _, .pop d => c = d ∧ ((s.chan c).sf.cnt s.par.cap = 0 ∨ (s.chan c).sf.cnt s.par.cap = s.par.cap)
  | .upd chm i _, .rdc _ c j => selects chm c = true ∧ i = j
  | .byp chm i _, .rdc _ c j => selects chm c = true ∧ i = j
  | _, _ => False

end Sys2Proof.Machine
end

