-- ==== Sys2Proof/Certificates/Slice0/Obligations.lean ====
section
/-! DEFINITION. The statements for the provers. Each docstring names the rule it formalises, or says that the
statement rests on the model's own choice. -/

open Sys2Proof Sys2Proof.Machine

/-! Encoding and decoding. -/

/-- The words of the examples of R101, R102, R105, R109, R121, R122, R136, R137, R145, R160, R161, written
out from the encoding, decode to the commands they stand for. -/
def Obligations.SpecExampleWordsDecode : Prop :=
  ∀ P : Params, 4 ≤ P.blockMax →
    decode P .rt ⟨0x13040000#32, [0x3F000000#32, 0x3E800000#32, 0x3E000000#32, 0xBF000000#32, 0x3E800000#32]⟩ =
      .ok (.upd 3#2 4 ⟨0x3F000000#32, 0x3E800000#32, 0x3E000000#32, 0xBF000000#32, 0x3E800000#32⟩) ∧
    decode P .rt ⟨0x23040000#32, []⟩ = .ok (.byp 3#2 4 false) ∧
    decode P .rt ⟨0x21000001#32, []⟩ = .ok (.byp 1#2 0 true) ∧
    decode P .rt ⟨0x30000004#32, [0x3F800000#32, 0#32, 0#32, 0#32]⟩ =
      .ok (.proc .ch0 [0x3F800000#32, 0#32, 0#32, 0#32]) ∧
    decode P .rt ⟨0x40000002#32, [0x3F800000#32, 0x40000000#32]⟩ =
      .ok (.push .ch0 [0x3F800000#32, 0x40000000#32]) ∧
    decode P .an ⟨0x51040000#32, []⟩ = .ok (.rdc .an .ch1 4) ∧
    decode P .an ⟨0x60000000#32, []⟩ = .ok (.pop .ch0) ∧
    decode P .an ⟨0x70000003#32, [0x3F800000#32, 0x40000000#32, 0x40400000#32]⟩ =
      .ok (.feed .ch0 [0x3F800000#32, 0x40000000#32, 0x40400000#32]) ∧
    decode P .an ⟨0x80000000#32, []⟩ = .ok (.spec .ch0) ∧
    decode P .an ⟨0x90000000#32, []⟩ = .ok (.fpop .ch0) ∧
    decode P .rt ⟨0x00000000#32, []⟩ = .ok (.nop .rt) ∧
    decode P .an ⟨0xA0000000#32, []⟩ = .ok (.rderr .an)

/-- Decoding the encoding of a well-formed command gives the command back, for every command and every
operand the encoding admits (R71 to R75, R84). -/
def Obligations.DecodeOfEncode : Prop :=
  ∀ (P : Params) (i : Instr), P.Valid → i.wellFormed P = true → decode P i.port (encode i) = .ok i

/-- A packet that decodes is the encoding of what it decodes to, on the port that sent it, and what it decodes
to is well formed: no two packets of a port stand for one command, and no bit is ignored (R71, R73, R79). -/
def Obligations.EncodeOfDecode : Prop :=
  ∀ (P : Params) (p : Port) (pk : Packet) (i : Instr), decode P p pk = .ok i →
    encode i = pk ∧ i.port = p ∧ i.wellFormed P = true

/-- R194: the code reported is the first that applies; the codes 8 to 14 stand in that order. A packet to
which none applies is a command (R79). -/
def Obligations.FirstApplicableErrorIsReported : Prop :=
  ∀ (P : Params) (p : Port) (pk : Packet),
    (∀ e : CmdError, decode P p pk = .error e ↔
      causeHolds P p pk e ∧ ∀ e' : CmdError, e'.code.toNat < e.code.toNat → ¬ causeHolds P p pk e') ∧
    ((∃ i, decode P p pk = .ok i) ↔ ∀ e : CmdError, ¬ causeHolds P p pk e)

/-! The step. -/

/-- A step whose turn is a port's and whose next packet decodes executes that command from the state in which
the packet has been taken. The schedule and the streams are the model's own (assumption log 2, 3). -/
def Obligations.StepExecutesDecodedCommand : Prop :=
  ∀ (s : State) (p : Port) (rest : List Event) (pk : Packet) (more : List Packet) (i : Instr),
    s.sched = .port p :: rest → (s.port p).pending = pk :: more → decode s.par p pk = .ok i →
      step s = exec i (s.took p rest more)

/-- R192: a refusal records the first code, answers with the code and no payload, and changes nothing else. -/
def Obligations.RefusalChangesErrorRegisterOnly : Prop :=
  ∀ (s : State) (p : Port) (rest : List Event) (pk : Packet) (more : List Packet) (e : CmdError),
    s.sched = .port p :: rest → (s.port p).pending = pk :: more → decode s.par p pk = .error e →
      ∃ t, step s = .next t ∧
        (t.port p).err = (if (s.port p).err = 0#4 then e.code else (s.port p).err) ∧
        (t.port p).responses = (s.port p).responses ++ [⟨fieldOpc pk.word ++ e.code ++ 0x00#8 ++ 0x0000#16, []⟩] ∧
        (t.port p).pending = more ∧ t.sched = rest ∧
        t.port (otherPort p) = s.port (otherPort p) ∧
        t.par = s.par ∧ t.ch0 = s.ch0 ∧ t.ch1 = s.ch1

/-- R215, R216 with the values of R34: the reset event gives every piece of state its reset value, for both
channels and both ports at once. What R34 leaves unspecified (the slots' content) is not stated. -/
def Obligations.ResetEventSetsResetValues : Prop :=
  ∀ (s : State) (rest : List Event), s.sched = .reset :: rest →
    ∃ t, step s = .next t ∧ t.sched = rest ∧ t.par = s.par ∧
      (∀ p, (t.port p).err = 0#4) ∧
      ∀ c, (∀ i, (t.chan c).secAt i = Section.reset) ∧
        (t.chan c).sf.wr = 0 ∧ (t.chan c).sf.rd = 0 ∧
        (t.chan c).roll = List.replicate s.par.fftSize F32.posZero ∧
        (t.chan c).ff.wr = 0 ∧ (t.chan c).ff.rd = 0

/-- Where no agent is scheduled, or the scheduled agent has no packet left, a step changes the schedule only:
the block waits (R34, R237). The schedule is the model's own (assumption log 3). -/
def Obligations.BlockWaitsForPackets : Prop :=
  ∀ s : State,
    (s.sched = [] → step s = .next s) ∧
    ∀ (p : Port) (rest : List Event), s.sched = .port p :: rest → (s.port p).pending = [] →
      step s = .next { s with sched := rest }

/-- R198: the block never halts and never locks a port. -/
def Obligations.StepNeverStops : Prop := ∀ s : State, ∃ t, step s = .next t

/-- R70, R76: every command packet gets exactly one response packet, on the same port, in order; its word
carries the command's opcode, a legal status, and the number of payload words that follow. -/
def Obligations.EveryPacketGetsOneResponse : Prop :=
  ∀ (s : State) (p : Port) (rest : List Event) (pk : Packet) (more : List Packet),
    s.Inv → s.sched = .port p :: rest → (s.port p).pending = pk :: more →
      ∃ t r, step s = .next t ∧
        (t.port p).responses = (s.port p).responses ++ [r] ∧ (t.port p).pending = more ∧
        (t.port (otherPort p)).responses = (s.port (otherPort p)).responses ∧
        (t.port (otherPort p)).pending = (s.port (otherPort p)).pending ∧
        r.word.extractLsb' 28 4 = pk.word.extractLsb' 28 4 ∧
        (r.word.extractLsb' 24 4 ∈ [0#4, 1#4, 8#4, 9#4, 10#4, 11#4, 12#4, 13#4, 14#4]) ∧
        r.word.extractLsb' 16 8 = 0#8 ∧
        (r.word.extractLsb' 0 16).toNat = r.payload.length

/-- R193: an error register once set is never overwritten or cleared by a command; it is set only by a
refusal, to that refusal's code, and only reset returns it to 0. -/
def Obligations.ErrorRegisterKeepsFirstCode : Prop :=
  ∀ (s t : State) (q : Port), step s = .next t → s.sched.head? ≠ some .reset →
    ((s.port q).err ≠ 0#4 → (t.port q).err = (s.port q).err) ∧
    ((t.port q).err ≠ (s.port q).err →
      ∃ pk e, s.sched.head? = some (.port q) ∧ (s.port q).pending.head? = some pk ∧
        decode s.par q pk = .error e ∧ (s.port q).err = 0#4 ∧ (t.port q).err = e.code)

/-- R7: the parameters are fixed; no command and no reset changes one. -/
def Obligations.StepKeepsParameters : Prop := ∀ s t : State, step s = .next t → t.par = s.par

/-- R35: every step keeps the invariants. -/
def Obligations.StepKeepsInvariants : Prop := ∀ s t : State, s.Inv → step s = .next t → t.Inv

/-- R35: the invariants hold after reset, for every parameter record that meets R6 and so for the default one. -/
def Obligations.ResetMeetsInvariants : Prop := (∀ P : Params, P.Valid → (State.init P).Inv) ∧ State.reset.Inv

/-- R58, R199: whatever packet the real-time port carries, the analysis port's own state is not touched:
rolling buffers, frame FIFOs, error register and streams of `AN`. The consumer's index moves only when the
FIFO is full. -/
def Obligations.RtPacketsLeaveAnalysisStateAlone : Prop :=
  ∀ (s t : State) (rest : List Event), s.sched = .port .rt :: rest → step s = .next t →
    t.an = s.an ∧ ∀ c, (t.chan c).roll = (s.chan c).roll ∧ (t.chan c).ff = (s.chan c).ff ∧
      ((s.chan c).sf.cnt s.par.cap ≠ s.par.cap → (t.chan c).sf.rd = (s.chan c).sf.rd)

/-- R58, R199: whatever packet the analysis port carries, the real-time port's own state is not touched:
coefficient sets, bypass flags, delay registers, error register and streams of `RT`, and of the sample FIFOs
neither a slot nor the producer's index. -/
def Obligations.AnPacketsLeaveFilterStateAlone : Prop :=
  ∀ (s t : State) (rest : List Event), s.sched = .port .an :: rest → step s = .next t →
    t.rt = s.rt ∧ ∀ c, SameFilter (s.chan c) (t.chan c) ∧
      (t.chan c).sf.slots = (s.chan c).sf.slots ∧ (t.chan c).sf.wr = (s.chan c).sf.wr

/-- R21, R103, R58: each piece of state is written only by the commands the inventory lists for it, on the channel
(and section) they name; everything else that changes, changes by the reset event. -/
def Obligations.StateIsWrittenOnlyAsListed : Prop :=
  ∀ (s t : State) (c : Ch), step s = .next t → s.sched.head? ≠ some .reset →
    (∀ j, ((t.chan c).secAt j).cur ≠ ((s.chan c).secAt j).cur →
      ∃ chm k, s.NextCommand (.upd chm j k) ∧ selects chm c = true) ∧
    (∀ j, ((t.chan c).secAt j).bypc ≠ ((s.chan c).secAt j).bypc →
      ∃ chm b, s.NextCommand (.byp chm j b) ∧ selects chm c = true) ∧
    (∀ j, ((t.chan c).secAt j).act ≠ ((s.chan c).secAt j).act ∨
        ((t.chan c).secAt j).bypa ≠ ((s.chan c).secAt j).bypa ∨ ((t.chan c).secAt j).z ≠ ((s.chan c).secAt j).z →
      ∃ xs, s.NextCommand (.proc c xs)) ∧
    ((t.chan c).sf.slots ≠ (s.chan c).sf.slots ∨ (t.chan c).sf.wr ≠ (s.chan c).sf.wr →
      ∃ xs, s.NextCommand (.push c xs)) ∧
    ((t.chan c).sf.rd ≠ (s.chan c).sf.rd → s.NextCommand (.pop c) ∨ ∃ xs, s.NextCommand (.push c xs)) ∧
    ((t.chan c).roll ≠ (s.chan c).roll → ∃ xs, s.NextCommand (.feed c xs)) ∧
    ((t.chan c).ff.slots ≠ (s.chan c).ff.slots ∨ (t.chan c).ff.wr ≠ (s.chan c).ff.wr → s.NextCommand (.spec c)) ∧
    ((t.chan c).ff.rd ≠ (s.chan c).ff.rd → s.NextCommand (.fpop c) ∨ s.NextCommand (.spec c))

/-- R196: a packet of `RT` and a packet of `AN` that are ready together may go in either order, and the two
orders give the same state except in the cases the rule lists. -/
def Obligations.OrdersAgreeUnlessListed : Prop :=
  ∀ (s : State) (pr pa : Packet) (rs as : List Packet) (rest : List Event),
    s.Inv → s.rt.pending = pr :: rs → s.an.pending = pa :: as →
    (∀ i j, decode s.par .rt pr = .ok i → decode s.par .an pa = .ok j → ¬ ordersDiffer s i j) →
      stepTwice { s with sched := .port .rt :: .port .an :: rest } =
        stepTwice { s with sched := .port .an :: .port .rt :: rest }

/-- R196 with the outcomes of its example: `PUSH` and `POP` ready together on an empty FIFO. -/
def Obligations.PushPopOrdersOnEmptyFifo : Prop :=
  ∀ (s : State) (c : Ch) (b : List F32), s.Inv → (s.chan c).sf.unread s.par.cap = [] →
    (∃ t, execAll [.push c b, .pop c] s = .next t ∧ (t.chan c).sf.unread s.par.cap = [] ∧
      t.lastResponse .an = some (response 0x6#4 .ok b)) ∧
    (∃ t, execAll [.pop c, .push c b] s = .next t ∧ (t.chan c).sf.unread s.par.cap = [b] ∧
      t.lastResponse .an = some ⟨0x61000000#32, []⟩)

/-- R196: `PUSH` and `POP` ready together on a full FIFO, `b1` the oldest block, `q` the rest. -/
def Obligations.PushPopOrdersOnFullFifo : Prop :=
  ∀ (s : State) (c : Ch) (b b1 : List F32) (q : List (List F32)), s.Inv →
    (s.chan c).sf.unread s.par.cap = b1 :: q → q.length + 1 = s.par.cap →
    (∃ t, execAll [.pop c, .push c b] s = .next t ∧ (t.chan c).sf.unread s.par.cap = q ++ [b] ∧
      t.lastResponse .an = some (response 0x6#4 .ok b1)) ∧
    (∃ t b2, execAll [.push c b, .pop c] s = .next t ∧ (q ++ [b]).head? = some b2 ∧
      (t.chan c).sf.unread s.par.cap = (q ++ [b]).tail ∧ t.lastResponse .an = some (response 0x6#4 .ok b2))

/-! Reset. -/

/-- R34 with the defaults of R6: the values after reset, for every parameter record, and the block waits for
commands on both ports. R34 leaves the slots' content unspecified, so nothing is said of it. -/
def Obligations.ResetValues : Prop :=
  State.reset = State.init Params.default ∧ ∀ P : Params, P.Valid →
    (∀ c, (∀ i, ((State.init P).chan c).secAt i =
          ⟨⟨0x3F800000#32, 0#32, 0#32, 0#32, 0#32⟩, ⟨0x3F800000#32, 0#32, 0#32, 0#32, 0#32⟩, true, true,
            ⟨0#32, 0#32, 0#32, 0#32⟩⟩) ∧
        ((State.init P).chan c).sf.wr = 0 ∧ ((State.init P).chan c).sf.rd = 0 ∧
        ((State.init P).chan c).roll.length = P.fftSize ∧ (∀ x ∈ ((State.init P).chan c).roll, x = 0#32) ∧
        ((State.init P).chan c).ff.wr = 0 ∧ ((State.init P).chan c).ff.rd = 0) ∧
      (State.init P).rt.err = 0#4 ∧ (State.init P).an.err = 0#4 ∧ step (State.init P) = .next (State.init P)

/-- R217: the state after reset as a driver sees it, for every parameter record that meets R6; that the frame is one
of floors is said of the default arithmetic (R62), because another `NUM` is any functions at all (R6). -/
def Obligations.DriverSeesResetState : Prop :=
  ∀ (P : Params) (c : Ch), P.Valid →
    (∀ p i, ∃ t, exec (.rdc p c i) (State.init P) = .next t ∧
      t.lastResponse p = some ⟨0x50000006#32, [0x3F800000#32, 0#32, 0#32, 0#32, 0#32, 1#32]⟩) ∧
    (∀ xs, ∃ t, exec (.proc c xs) (State.init P) = .next t ∧ t.lastResponse .rt = some (response 0x3#4 .ok xs)) ∧
    (∃ t, exec (.pop c) (State.init P) = .next t ∧ t.lastResponse .an = some ⟨0x61000000#32, []⟩) ∧
    (∃ t, exec (.fpop c) (State.init P) = .next t ∧ t.lastResponse .an = some ⟨0x91000000#32, []⟩) ∧
    (∃ t, exec (.spec c) (State.init P) = .next t ∧
      (t.chan c).ff.unread P.frameCap = [frameOf P (List.replicate P.fftSize F32.posZero)] ∧
      (P.num = .ieee754 → (t.chan c).ff.unread P.frameCap = [List.replicate P.nbin P.floorDb])) ∧
    (∀ p, ∃ t, exec (.rderr p) (State.init P) = .next t ∧ t.lastResponse p = some ⟨0xA0000001#32, [0#32]⟩)

/-! The filter chain. -/

/-- R101: `UPD` writes the current set of section `IDX` of every channel in the mask, all five words, and
nothing else. -/
def Obligations.UpdWritesCurrentSetsOnly : Prop :=
  ∀ (s : State) (chm : BitVec 2) (idx : SecIdx) (k : Coeffs),
    ∃ t, exec (.upd chm idx k) s = .next t ∧ s.Answers t .rt ⟨0x10000000#32, []⟩ ∧
      ∀ c, SameFifos (s.chan c) (t.chan c) ∧ (t.chan c).draws = (s.chan c).draws ∧
        ∀ i, (t.chan c).secAt i =
          if chm.getLsbD (chNum c) = true ∧ i = idx then { (s.chan c).secAt i with cur := k } else (s.chan c).secAt i

/-- R102: `BYP` writes the current bypass flag of section `IDX` of every channel in the mask, and nothing
else. -/
def Obligations.BypWritesCurrentFlagsOnly : Prop :=
  ∀ (s : State) (chm : BitVec 2) (idx : SecIdx) (b : Bool),
    ∃ t, exec (.byp chm idx b) s = .next t ∧ s.Answers t .rt ⟨0x20000000#32, []⟩ ∧
      ∀ c, SameFifos (s.chan c) (t.chan c) ∧ (t.chan c).draws = (s.chan c).draws ∧
        ∀ i, (t.chan c).secAt i =
          if chm.getLsbD (chNum c) = true ∧ i = idx then { (s.chan c).secAt i with bypc := b } else (s.chan c).secAt i

/-- R109: `RDC` answers with the current set and flag of the section, on either port, and writes nothing. -/
def Obligations.RdcReturnsCurrentSetAndFlag : Prop :=
  ∀ (s : State) (p : Port) (c : Ch) (idx : SecIdx),
    ∃ t, exec (.rdc p c idx) s = .next t ∧ s.SameBlock t ∧
      s.Answers t p ⟨0x50000006#32,
        [((s.chan c).secAt idx).cur.b0, ((s.chan c).secAt idx).cur.b1, ((s.chan c).secAt idx).cur.b2,
          ((s.chan c).secAt idx).cur.a1, ((s.chan c).secAt idx).cur.a2,
          if ((s.chan c).secAt idx).bypc then 1#32 else 0#32]⟩

/-- R103, R113: `PROC` latches all ten sets and flags of its channel, also for an empty block; it keeps the
current copies, the delay registers of every section bypassed for the block, everything behind the filter, and
the whole other channel. It answers with as many samples as it was given. -/
def Obligations.ProcLatchesItsChannelOnly : Prop :=
  ∀ (s : State) (c : Ch) (xs : List F32),
    ∃ t ys, exec (.proc c xs) s = .next t ∧ s.Answers t .rt (response 0x3#4 .ok ys) ∧ ys.length = xs.length ∧
      t.chan (otherCh c) = s.chan (otherCh c) ∧ SameFifos (s.chan c) (t.chan c) ∧
      ∀ i, ((t.chan c).secAt i).act = ((s.chan c).secAt i).cur ∧
        ((t.chan c).secAt i).bypa = ((s.chan c).secAt i).bypc ∧
        ((t.chan c).secAt i).cur = ((s.chan c).secAt i).cur ∧
        ((t.chan c).secAt i).bypc = ((s.chan c).secAt i).bypc ∧
        (((s.chan c).secAt i).bypc = true ∨ xs = [] → ((t.chan c).secAt i).z = ((s.chan c).secAt i).z)

/-- R106: with one section active, a sample's output and the delay registers it leaves follow the rule's nine
operations in the rule's order, in the arithmetic of the block's `NUM` (R62); `d` gives the open bits of the NaN
results, should there be any (R63). -/
def Obligations.ActiveSectionFollowsStepRule : Prop :=
  ∀ (s : State) (c : Ch) (i : SecIdx) (v : F32),
    (∀ j, ((s.chan c).secAt j).bypc = true ↔ j ≠ i) →
      ∃ (t : State) (u : F32) (d : Nat → NaNBits),
        exec (.proc c [v]) s = .next t ∧ t.lastResponse .rt = some ⟨0x30000001#32, [u]⟩ ∧
        ((t.chan c).secAt i).z = ⟨v, ((s.chan c).secAt i).z.x1, u, ((s.chan c).secAt i).z.y1⟩ ∧
        u = s.par.NUM.fsub (d 8) (s.par.NUM.fsub (d 7) (s.par.NUM.fadd (d 6) (s.par.NUM.fadd (d 5)
              (s.par.NUM.fmul (d 0) ((s.chan c).secAt i).cur.b0 v)
              (s.par.NUM.fmul (d 1) ((s.chan c).secAt i).cur.b1 ((s.chan c).secAt i).z.x1))
              (s.par.NUM.fmul (d 2) ((s.chan c).secAt i).cur.b2 ((s.chan c).secAt i).z.x2))
              (s.par.NUM.fmul (d 3) ((s.chan c).secAt i).cur.a1 ((s.chan c).secAt i).z.y1))
              (s.par.NUM.fmul (d 4) ((s.chan c).secAt i).cur.a2 ((s.chan c).secAt i).z.y2)

/-- R105, R106, R108: `PROC` runs every sample through the ten sections in index order. `v n j` is the sample that
enters section `j` at time `n`, and `v n 10` is the one answered; `z n j` are the section's delay registers before time
`n`. A bypassed section passes the sample and keeps its registers; an active one computes the rule's nine operations on
the sample that enters it, shifts that sample and its own output into its registers, and hands its output on. `d` gives
the open bits of NaN results (R63). -/
def Obligations.ProcRunsCascadeInOrder : Prop :=
  ∀ (s : State) (c : Ch) (xs : List F32),
    ∃ (t : State) (ys : List F32) (v : Nat → Nat → F32) (z : Nat → SecIdx → Delay)
        (d : Nat → SecIdx → Nat → NaNBits),
      exec (.proc c xs) s = .next t ∧ t.lastResponse .rt = some (response 0x3#4 .ok ys) ∧ ys.length = xs.length ∧
      (∀ n, n < xs.length → xs[n]? = some (v n 0) ∧ ys[n]? = some (v n 10)) ∧
      (∀ j, z 0 j = ((s.chan c).secAt j).z) ∧ (∀ j, ((t.chan c).secAt j).z = z xs.length j) ∧
      ∀ n, n < xs.length → ∀ j : SecIdx,
        if ((s.chan c).secAt j).bypc = true then v n (j.val + 1) = v n j.val ∧ z (n + 1) j = z n j
        else
          z (n + 1) j = ⟨v n j.val, (z n j).x1, v n (j.val + 1), (z n j).y1⟩ ∧
          v n (j.val + 1) =
            s.par.NUM.fsub (d n j 8) (s.par.NUM.fsub (d n j 7)
              (s.par.NUM.fadd (d n j 6) (s.par.NUM.fadd (d n j 5)
                (s.par.NUM.fmul (d n j 0) ((s.chan c).secAt j).cur.b0 (v n j.val))
                (s.par.NUM.fmul (d n j 1) ((s.chan c).secAt j).cur.b1 (z n j).x1))
                (s.par.NUM.fmul (d n j 2) ((s.chan c).secAt j).cur.b2 (z n j).x2))
              (s.par.NUM.fmul (d n j 3) ((s.chan c).secAt j).cur.a1 (z n j).y1))
              (s.par.NUM.fmul (d n j 4) ((s.chan c).secAt j).cur.a2 (z n j).y2)

/-- R108, property A1: with every section bypassed, `PROC` answers its input bit for bit and changes no delay
register. -/
def Obligations.BypassedChainIsIdentity : Prop :=
  ∀ (s : State) (c : Ch) (xs : List F32), (∀ i, ((s.chan c).secAt i).bypc = true) →
    ∃ t, exec (.proc c xs) s = .next t ∧ t.lastResponse .rt = some (response 0x3#4 .ok xs) ∧
      ∀ i, ((t.chan c).secAt i).z = ((s.chan c).secAt i).z

/-- R110: running each section over the whole block before the next gives the same outputs and the same
sections as running the ten sections for each sample in turn, whatever the `NUM` and the open NaN bits are. -/
def Obligations.LoopOrdersAgree : Prop :=
  ∀ (N : Sys2Proof.Num) (nan : Nat → Nat → Nat → NaNBits) (n : Nat) (x : Vector Section 10) (vs : List F32),
    blockOut N nan n x vs = sectionwiseOut N nan n 0 x.toList vs ∧
      (blockAfter N nan n x vs).toList = sectionwiseAfter N nan n 0 x.toList vs

/-- R112: processing a signal in blocks of any lengths gives the same output samples as processing it in one
block, and leaves the same channel, with no update in between. That the two runs also agree in the bits R63 leaves open
of a NaN, and in the counter `draws`, is the model's choice: it draws those bits by the number of the sample
(assumption log 4). -/
def Obligations.BlockSplittingChangesNothing : Prop :=
  ∀ (s : State) (c : Ch) (b : List F32) (bs : List (List F32)),
    ∃ (t u : State) (os : List (List F32)), exec (.proc c (b ++ bs.flatten)) s = .next t ∧
      execAll ((b :: bs).map (.proc c)) s = .next u ∧
      t.chan c = u.chan c ∧ os.map List.length = (b :: bs).map List.length ∧
      t.lastResponse .rt = some (response 0x3#4 .ok os.flatten) ∧
      (u.port .rt).responses = (s.port .rt).responses ++ os.map (response 0x3#4 .ok)

/-- R107: once the previous output `y1` of an active section is NaN, every later output of that section is NaN;
with the sections after it bypassed, every sample of the block comes out NaN, and `y1` stays NaN. It rests on the
default arithmetic of R62. -/
def Obligations.NaNSticksInActiveSection : Prop :=
  ∀ (s : State) (c : Ch) (i : SecIdx) (xs : List F32),
    ((s.chan c).secAt i).bypc = false → (∀ j, i < j → ((s.chan c).secAt j).bypc = true) →
    F32.isNaN ((s.chan c).secAt i).z.y1 = true → s.par.num = .ieee754 →
      ∃ t ys, exec (.proc c xs) s = .next t ∧ t.lastResponse .rt = some (response 0x3#4 .ok ys) ∧
        ys.length = xs.length ∧ (∀ y ∈ ys, F32.isNaN y = true) ∧ F32.isNaN ((t.chan c).secAt i).z.y1 = true

/-- R104 clauses 2 and 3 and R101's corner case: updates sent between two blocks take effect together at the
next block of each channel in the mask; of two `UPD` of one section the first is never used. -/
def Obligations.NextBlockUsesLatestUpdate : Prop :=
  ∀ (s : State) (chm : BitVec 2) (idx : SecIdx) (k1 k2 : Coeffs) (b : Bool) (c : Ch) (xs : List F32),
    selects chm c = true →
      ∃ t u, execAll [.upd chm idx k1, .upd chm idx k2, .byp chm idx b, .proc c xs] s = .next t ∧
        execAll [.byp chm idx b, .upd chm idx k2, .proc c xs] s = .next u ∧
        ((t.chan c).secAt idx).act = k2 ∧ ((t.chan c).secAt idx).bypa = b ∧
        t.ch0 = u.ch0 ∧ t.ch1 = u.ch1 ∧ t.lastResponse .rt = u.lastResponse .rt

/-! The sample FIFO. -/

/-- R121, R128: `PUSH` is the queue's push, dropping the oldest unread block if the FIFO is full; it writes one
slot, `wr`, and `rd` on overflow, always answers `OK`, and leaves everything else alone. -/
def Obligations.PushRefinesQueue : Prop :=
  ∀ (s : State) (c : Ch) (b : List F32), s.Inv →
    ∃ t, exec (.push c b) s = .next t ∧ s.Answers t .rt ⟨0x40000000#32, []⟩ ∧
      (t.chan c).sf.unread s.par.cap =
        (if ((s.chan c).sf.unread s.par.cap).length = s.par.cap then ((s.chan c).sf.unread s.par.cap).tail
          else (s.chan c).sf.unread s.par.cap) ++ [b] ∧
      (t.chan c).sf.wr = ((s.chan c).sf.wr + 1) % (2 * s.par.cap) ∧
      (t.chan c).sf.rd = (if (s.chan c).sf.cnt s.par.cap = s.par.cap
        then ((s.chan c).sf.rd + 1) % (2 * s.par.cap) else (s.chan c).sf.rd) ∧
      (∀ j, j ≠ (s.chan c).sf.wr % s.par.cap → (t.chan c).sf.slots[j]? = (s.chan c).sf.slots[j]?) ∧
      SameFilter (s.chan c) (t.chan c) ∧ (t.chan c).roll = (s.chan c).roll ∧ (t.chan c).ff = (s.chan c).ff ∧
      t.chan (otherCh c) = s.chan (otherCh c)

/-- R122, R128: `POP` answers the head of the queue and leaves its tail, or answers `NODATA` when the queue is
empty; it writes `rd` only. -/
def Obligations.PopRefinesQueue : Prop :=
  ∀ (s : State) (c : Ch), s.Inv →
    ∃ t, exec (.pop c) s = .next t ∧
      (match (s.chan c).sf.unread s.par.cap with
        | [] => s.Answers t .an ⟨0x61000000#32, []⟩ ∧ t.chan c = s.chan c
        | b :: q => s.Answers t .an (response 0x6#4 .ok b) ∧ (t.chan c).sf.unread s.par.cap = q ∧
            (t.chan c).sf.rd = ((s.chan c).sf.rd + 1) % (2 * s.par.cap)) ∧
      (t.chan c).sf.slots = (s.chan c).sf.slots ∧ (t.chan c).sf.wr = (s.chan c).sf.wr ∧
      SameFilter (s.chan c) (t.chan c) ∧ (t.chan c).roll = (s.chan c).roll ∧ (t.chan c).ff = (s.chan c).ff ∧
      t.chan (otherCh c) = s.chan (otherCh c)

/-- R123, property A5: of more than `CAP` blocks pushed into an empty FIFO with no pop between them, the newest
`CAP` are popped whole and in order, and then there is no data. -/
def Obligations.OverflowKeepsNewestBlocks : Prop :=
  ∀ (s : State) (c : Ch) (bs : List (List F32)), s.Inv → (s.chan c).sf.unread s.par.cap = [] →
    s.par.cap < bs.length →
      ∃ t, execAll (bs.map (.push c) ++ List.replicate (s.par.cap + 1) (.pop c)) s = .next t ∧
        (t.port .an).responses = (s.port .an).responses ++
          (bs.drop (bs.length - s.par.cap)).map (response 0x6#4 .ok) ++ [⟨0x61000000#32, []⟩]

/-- R124, property A4: blocks pushed within the FIFO's room, whatever it holds already, are popped in the order
pushed, after those that were there, each once; then `NODATA`. -/
def Obligations.PopsReturnBlocksInPushOrder : Prop :=
  ∀ (s : State) (c : Ch) (bs : List (List F32)), s.Inv →
    ((s.chan c).sf.unread s.par.cap).length + bs.length ≤ s.par.cap →
      ∃ t, execAll (bs.map (.push c) ++
          List.replicate (((s.chan c).sf.unread s.par.cap).length + bs.length + 1) (.pop c)) s = .next t ∧
        (t.port .an).responses = (s.port .an).responses ++
          ((s.chan c).sf.unread s.par.cap ++ bs).map (response 0x6#4 .ok) ++ [⟨0x61000000#32, []⟩]

/-- R125 with R122 and R136: a `drain` empties the FIFO, feeds the blocks in pop order, each once, and records no
error. That no command of the other port falls in between is the model's choice of what it states (assumption
log 14). -/
def Obligations.DrainFeedsQueueInOrder : Prop :=
  ∀ (s : State) (c : Ch), s.Inv →
    ∃ t, drain c s = .next t ∧ (t.chan c).sf.unread s.par.cap = [] ∧
      (t.chan c).roll = ((s.chan c).roll ++ ((s.chan c).sf.unread s.par.cap).flatten).drop
        ((s.chan c).sf.unread s.par.cap).flatten.length ∧
      SameFilter (s.chan c) (t.chan c) ∧ (t.chan c).ff = (s.chan c).ff ∧
      t.chan (otherCh c) = s.chan (otherCh c) ∧ t.rt = s.rt ∧ t.an.err = s.an.err ∧ t.par = s.par ∧
      t.sched = s.sched

/-- R83, R125, R136, R137, R144: a `tick` empties both FIFOs, feeds their blocks in pop order and pushes one frame per
channel, that of the buffer so fed, the oldest dropped if the frame FIFO was full. That no command of the other port
falls in between is the model's choice of what it states (assumption log 14). -/
def Obligations.TickDrainsThenPushesOneFrameEach : Prop :=
  ∀ s : State, s.Inv →
    ∃ t, tick s = .next t ∧
      ∀ c, (t.chan c).sf.unread s.par.cap = [] ∧
        (t.chan c).roll = ((s.chan c).roll ++ ((s.chan c).sf.unread s.par.cap).flatten).drop
          ((s.chan c).sf.unread s.par.cap).flatten.length ∧
        (t.chan c).ff.unread s.par.frameCap =
          (if ((s.chan c).ff.unread s.par.frameCap).length = s.par.frameCap
            then ((s.chan c).ff.unread s.par.frameCap).tail
            else (s.chan c).ff.unread s.par.frameCap) ++ [frameOf s.par (t.chan c).roll]

/-! The spectrum unit. -/

/-- R136: `FEED` shifts the buffer left by the block's length and appends the block; it writes nothing else. -/
def Obligations.FeedShiftsRollingBuffer : Prop :=
  ∀ (s : State) (c : Ch) (xs : List F32), s.Inv → xs.length ≤ s.par.fftSize →
    ∃ t, exec (.feed c xs) s = .next t ∧ s.Answers t .an ⟨0x70000000#32, []⟩ ∧
      (t.chan c).roll.length = s.par.fftSize ∧
      (∀ n, n + xs.length < s.par.fftSize → (t.chan c).roll[n]? = (s.chan c).roll[n + xs.length]?) ∧
      (∀ j, j < xs.length → (t.chan c).roll[s.par.fftSize - xs.length + j]? = xs[j]?) ∧
      SameFilter (s.chan c) (t.chan c) ∧ (t.chan c).sf = (s.chan c).sf ∧ (t.chan c).ff = (s.chan c).ff ∧
      t.chan (otherCh c) = s.chan (otherCh c)

/-- R136's corner case: after feeds since reset the buffer holds the last `N` of `N` zeros followed by all the
samples fed. -/
def Obligations.RollingBufferHoldsLastSamplesFed : Prop :=
  ∀ (P : Params) (c : Ch) (bs : List (List F32)), P.Valid → (∀ b ∈ bs, b.length ≤ P.blockMax) →
    ∃ t, execAll (bs.map (.feed c)) (State.init P) = .next t ∧
      (t.chan c).roll = (List.replicate P.fftSize F32.posZero ++ bs.flatten).drop bs.flatten.length

/-- R137, R144, R147: `SPEC` pushes the frame of the rolling buffer (its entries: FrameFollowsTheStepsOfSpec),
dropping the oldest unread frame if the frame FIFO is full; it writes one slot, `ff[c].wr`, and `ff[c].rd` on overflow,
and leaves the buffer unchanged, so that a second `SPEC` pushes the same frame; it always answers `OK` and leaves
everything else alone. -/
def Obligations.SpecPushesFrameAndKeepsBuffer : Prop :=
  ∀ (s : State) (c : Ch), s.Inv →
    ∃ t, exec (.spec c) s = .next t ∧ s.Answers t .an ⟨0x80000000#32, []⟩ ∧
      (frameOf s.par (s.chan c).roll).length = s.par.nbin ∧
      (t.chan c).ff.unread s.par.frameCap =
        (if ((s.chan c).ff.unread s.par.frameCap).length = s.par.frameCap
          then ((s.chan c).ff.unread s.par.frameCap).tail
          else (s.chan c).ff.unread s.par.frameCap) ++ [frameOf s.par (s.chan c).roll] ∧
      (t.chan c).ff.wr = ((s.chan c).ff.wr + 1) % (2 * s.par.frameCap) ∧
      (t.chan c).ff.rd = (if (s.chan c).ff.cnt s.par.frameCap = s.par.frameCap
        then ((s.chan c).ff.rd + 1) % (2 * s.par.frameCap) else (s.chan c).ff.rd) ∧
      (∀ j, j ≠ (s.chan c).ff.wr % s.par.frameCap → (t.chan c).ff.slots[j]? = (s.chan c).ff.slots[j]?) ∧
      (t.chan c).roll = (s.chan c).roll ∧
      (∃ u, exec (.spec c) t = .next u ∧
        ((u.chan c).ff.unread s.par.frameCap).getLast? = some (frameOf s.par (s.chan c).roll)) ∧
      SameFilter (s.chan c) (t.chan c) ∧ (t.chan c).sf = (s.chan c).sf ∧ t.chan (otherCh c) = s.chan (otherCh c)

/-- R141: every entry of a frame is finite and not below the floor, whatever the rolling buffer holds, NaN and
infinities included, and whatever `NUM` the block is built with. -/
def Obligations.FrameEntriesAreFiniteAndAboveFloor : Prop :=
  ∀ (P : Params) (roll : List F32), P.Valid →
    (frameOf P roll).length = P.nbin ∧
      ∀ x ∈ frameOf P roll, F32.isFinite x = true ∧ F32.units P.floorDb ≤ F32.units x

/-- Property A6, R141 with `FFTMAG_ZERO`: a buffer of zeros of either sign gives a frame of floors, in the default
arithmetic of R62. -/
def Obligations.SilenceGivesTheFloor : Prop :=
  ∀ (P : Params) (roll : List F32), P.Valid → P.num = .ieee754 →
    (∀ x ∈ roll, x = 0x00000000#32 ∨ x = 0x80000000#32) →
      frameOf P roll = List.replicate P.nbin P.floorDb

/-- R137, R138, R140, R141: entry `n` of the windowed copy is one product, and entry `k` of the frame is the decibel
value of the clamped quotient of magnitude `k` by the bin count, in the block's `NUM`; `d`, `e` give the open
bits of NaN results (R63). -/
def Obligations.FrameFollowsTheStepsOfSpec : Prop :=
  ∀ (P : Params) (roll : List F32), P.Valid → roll.length = P.fftSize →
    ∃ (xw M : List F32) (d e : Nat → NaNBits), M = P.NUM.fftmag.f xw ∧
      xw.length = P.fftSize ∧ M.length = P.nbin ∧ (frameOf P roll).length = P.nbin ∧
      (∀ n x w, roll[n]? = some x → P.win[n]? = some w → xw[n]? = some (P.NUM.fmul (d n) x w)) ∧
      ∀ k m, M[k]? = some m →
        (frameOf P roll)[k]? = some
          (let q := P.NUM.fdiv (e k) m (F32.ofNat P.nbin)
           let c := if F32.isFinite q then q else 0x00000000#32
           if F32.gtZero c then F32.fmax P.floorDb (P.NUM.db20.f c) else P.floorDb)

/-- R140: a magnitude that is not finite becomes zero and then the floor, in the default arithmetic of R62. -/
def Obligations.NonFiniteMagnitudeGivesTheFloor : Prop :=
  ∀ (P : Params) (d : NaNBits) (m : F32), P.Valid → P.num = .ieee754 → F32.isFinite m = false →
    decibel P (normalise P d m) = P.floorDb

/-- R140: the division by the bin count is exact unless it underflows: a magnitude whose last place is a
multiple of `NBIN` is divided with no rounding. -/
def Obligations.DivisionByBinCountIsExact : Prop :=
  ∀ (P : Params) (d : NaNBits) (m : F32), P.Valid → F32.isFinite m = true → P.nbin ∣ F32.mag m →
    F32.isFinite (F32.fdiv d m (F32.ofNat P.nbin)) = true ∧
      F32.mag (F32.fdiv d m (F32.ofNat P.nbin)) * P.nbin = F32.mag m ∧
      F32.sign (F32.fdiv d m (F32.ofNat P.nbin)) = F32.sign m

/-- R140, R141, `DB20_ONE` (vector Q4): a magnitude equal to `NBIN` gives 0 decibels, the word `+0.0`, in
the default arithmetic of R62. -/
def Obligations.UnitMagnitudeGivesZeroDecibels : Prop :=
  ∀ (P : Params) (d : NaNBits), P.Valid → P.num = .ieee754 →
    decibel P (normalise P d (F32.ofNat P.nbin)) = 0x00000000#32

/-- R145: `FPOP` answers the oldest unread frame and leaves the others, or answers `NODATA` when there is none;
it writes `ff[c].rd` only. -/
def Obligations.FpopRefinesQueue : Prop :=
  ∀ (s : State) (c : Ch), s.Inv →
    ∃ t, exec (.fpop c) s = .next t ∧
      (match (s.chan c).ff.unread s.par.frameCap with
        | [] => s.Answers t .an ⟨0x91000000#32, []⟩ ∧ t.chan c = s.chan c
        | F :: q => s.Answers t .an (response 0x9#4 .ok F) ∧ (t.chan c).ff.unread s.par.frameCap = q ∧
            F.length = s.par.nbin ∧ (t.chan c).ff.rd = ((s.chan c).ff.rd + 1) % (2 * s.par.frameCap)) ∧
      (t.chan c).ff.slots = (s.chan c).ff.slots ∧ (t.chan c).ff.wr = (s.chan c).ff.wr ∧
      SameFilter (s.chan c) (t.chan c) ∧ (t.chan c).roll = (s.chan c).roll ∧ (t.chan c).sf = (s.chan c).sf ∧
      t.chan (otherCh c) = s.chan (otherCh c)

/-! The system commands. -/

/-- R160: `NOP` answers `OK` with no payload on either port and changes nothing. -/
def Obligations.NopOnlyAnswers : Prop :=
  ∀ (s : State) (p : Port), ∃ t, exec (.nop p) s = .next t ∧ s.SameBlock t ∧ s.Answers t p ⟨0x00000000#32, []⟩

/-- R161: `RDERR` answers with the error register of its own port, which it does not clear. -/
def Obligations.RderrReadsOwnRegister : Prop :=
  ∀ (s : State) (p : Port), ∃ t w, exec (.rderr p) s = .next t ∧ s.SameBlock t ∧
    s.Answers t p ⟨0xA0000001#32, [w]⟩ ∧ w.extractLsb' 0 4 = (s.port p).err ∧ w.extractLsb' 4 28 = 0#28

/-! The numerics. -/

/-- R62: a finite sum is a nearest binary32 value to the exact sum, the even one on a tie. Values are counted in units
of 2^-149. The overflow clauses are the model's reading of IEEE 754, which R62 only names (assumption log 12): a sum is
not finite exactly when the exact sum lies at least half a last place beyond the largest finite value, and it is then
the infinity of the exact sum's sign. -/
def Obligations.AdditionRoundsToNearestEven : Prop :=
  ∀ (d : NaNBits) (a b : F32), F32.isFinite a = true → F32.isFinite b = true →
    (F32.isFinite (F32.fadd d a b) = true →
      ∀ c, F32.isFinite c = true →
        (F32.units a + F32.units b - F32.units (F32.fadd d a b)).natAbs ≤
            (F32.units a + F32.units b - F32.units c).natAbs ∧
          ((F32.units a + F32.units b - F32.units (F32.fadd d a b)).natAbs =
              (F32.units a + F32.units b - F32.units c).natAbs →
            F32.units c = F32.units (F32.fadd d a b) ∨ F32.frac (F32.fadd d a b) % 2 = 0)) ∧
    (F32.isFinite (F32.fadd d a b) = false ↔ (2 ^ 25 - 1) * 2 ^ 252 ≤ (F32.units a + F32.units b).natAbs) ∧
    (F32.isFinite (F32.fadd d a b) = false →
      F32.isInf (F32.fadd d a b) = true ∧
        F32.sign (F32.fadd d a b) = decide (F32.units a + F32.units b < 0))

/-- R62: a difference is rounded like a sum: a nearest binary32 value to the exact difference, the even one on a tie.
The overflow clauses are the model's reading of IEEE 754 (assumption log 12). -/
def Obligations.SubtractionRoundsToNearestEven : Prop :=
  ∀ (d : NaNBits) (a b : F32), F32.isFinite a = true → F32.isFinite b = true →
    (F32.isFinite (F32.fsub d a b) = true →
      ∀ c, F32.isFinite c = true →
        (F32.units a - F32.units b - F32.units (F32.fsub d a b)).natAbs ≤
            (F32.units a - F32.units b - F32.units c).natAbs ∧
          ((F32.units a - F32.units b - F32.units (F32.fsub d a b)).natAbs =
              (F32.units a - F32.units b - F32.units c).natAbs →
            F32.units c = F32.units (F32.fsub d a b) ∨ F32.frac (F32.fsub d a b) % 2 = 0)) ∧
    (F32.isFinite (F32.fsub d a b) = false ↔ (2 ^ 25 - 1) * 2 ^ 252 ≤ (F32.units a - F32.units b).natAbs) ∧
    (F32.isFinite (F32.fsub d a b) = false →
      F32.isInf (F32.fsub d a b) = true ∧
        F32.sign (F32.fsub d a b) = decide (F32.units a - F32.units b < 0))

/-- R62: a finite product is a nearest binary32 value to the exact product, the even one on a tie. The sign and the
overflow clauses are the model's reading of IEEE 754, which R62 only names (assumption log 12): the product has the
exclusive-or of the operands' signs, is not finite exactly when the exact product lies at least half a last place
beyond the largest finite value, and is then an infinity. -/
def Obligations.MultiplicationRoundsToNearestEven : Prop :=
  ∀ (d : NaNBits) (a b : F32), F32.isFinite a = true → F32.isFinite b = true →
    F32.sign (F32.fmul d a b) = (F32.sign a != F32.sign b) ∧
    (F32.isFinite (F32.fmul d a b) = true →
      ∀ c, F32.isFinite c = true →
        ((F32.mag a * F32.mag b : Int) - F32.mag (F32.fmul d a b) * 2 ^ 149).natAbs ≤
            ((F32.mag a * F32.mag b : Int) - F32.mag c * 2 ^ 149).natAbs ∧
          (((F32.mag a * F32.mag b : Int) - F32.mag (F32.fmul d a b) * 2 ^ 149).natAbs =
              ((F32.mag a * F32.mag b : Int) - F32.mag c * 2 ^ 149).natAbs →
            F32.mag c = F32.mag (F32.fmul d a b) ∨ F32.frac (F32.fmul d a b) % 2 = 0)) ∧
    (F32.isFinite (F32.fmul d a b) = false ↔ (2 ^ 25 - 1) * 2 ^ 252 * 2 ^ 149 ≤ F32.mag a * F32.mag b) ∧
    (F32.isFinite (F32.fmul d a b) = false → F32.isInf (F32.fmul d a b) = true)

/-- R62, and R140 where the quotient underflows: a finite quotient by a divisor that is not zero is a nearest binary32
value to the exact quotient, the even one on a tie; distances are compared after multiplication by the divisor. The
block divides by `NBIN` only (R64). The sign and the overflow clauses are the model's reading of IEEE 754 (assumption
log 12). -/
def Obligations.DivisionRoundsToNearestEven : Prop :=
  ∀ (d : NaNBits) (a b : F32), F32.isFinite a = true → F32.isFinite b = true → F32.mag b ≠ 0 →
    F32.sign (F32.fdiv d a b) = (F32.sign a != F32.sign b) ∧
    (F32.isFinite (F32.fdiv d a b) = true →
      ∀ c, F32.isFinite c = true →
        ((F32.mag a * 2 ^ 149 : Int) - F32.mag (F32.fdiv d a b) * F32.mag b).natAbs ≤
            ((F32.mag a * 2 ^ 149 : Int) - F32.mag c * F32.mag b).natAbs ∧
          (((F32.mag a * 2 ^ 149 : Int) - F32.mag (F32.fdiv d a b) * F32.mag b).natAbs =
              ((F32.mag a * 2 ^ 149 : Int) - F32.mag c * F32.mag b).natAbs →
            F32.mag c = F32.mag (F32.fdiv d a b) ∨ F32.frac (F32.fdiv d a b) % 2 = 0)) ∧
    (F32.isFinite (F32.fdiv d a b) = false ↔ (2 ^ 25 - 1) * 2 ^ 252 * F32.mag b ≤ F32.mag a * 2 ^ 149) ∧
    (F32.isFinite (F32.fdiv d a b) = false → F32.isInf (F32.fdiv d a b) = true)

/-- R63: the operations give NaN for a NaN operand and for the invalid operations, with the open bits as drawn,
and every NaN pattern can be drawn. -/
def Obligations.InvalidOperationsGiveAnyNaN : Prop :=
  (∀ (d : NaNBits) (a b : F32), F32.isNaN a = true ∨ F32.isNaN b = true →
    F32.isNaN (F32.fadd d a b) = true ∧ F32.isNaN (F32.fsub d a b) = true ∧
      F32.isNaN (F32.fmul d a b) = true ∧ F32.isNaN (F32.fdiv d a b) = true) ∧
  (∀ (d : NaNBits) (a b : F32), F32.isInf a = true → F32.isInf b = true → F32.sign a = F32.sign b →
    F32.isNaN (F32.fsub d a b) = true) ∧
  (∀ (d : NaNBits) (a b : F32), F32.mag a = 0 → F32.isInf b = true →
    F32.isNaN (F32.fmul d a b) = true ∧ F32.isNaN (F32.fmul d b a) = true) ∧
  ∀ x, F32.isNaN x = true → ∃ d, ∀ a b, F32.isNaN a = true → F32.fadd d a b = x

/-- R62: `x ⊖ x` is `+0.0` for finite `x`, and `(−0.0) ⊕ (+0.0)` is `+0.0`. -/
def Obligations.ExactZeroSumsArePositiveZero : Prop :=
  (∀ (d : NaNBits) (x : F32), F32.isFinite x = true → F32.fsub d x x = 0x00000000#32) ∧
    ∀ d : NaNBits, F32.fadd d 0x80000000#32 0x00000000#32 = 0x00000000#32

/-- R62 says that infinities follow IEEE 754 and marks that as general knowledge; the rules stated here, beyond R62's
own example, are the model's reading of the standard (assumption log 12): a sum with one infinity is that infinity, and
a product with one is the infinity of the exclusive-or of the operands' signs unless the other operand is a zero. -/
def Obligations.InfinitiesPropagate : Prop :=
  ∀ (d : NaNBits) (a b : F32), F32.isInf a = true → F32.isNaN b = false →
    (F32.isInf b = false ∨ F32.sign a = F32.sign b → F32.fadd d a b = a ∧ F32.fadd d b a = a) ∧
    (F32.mag b ≠ 0 → F32.isInf (F32.fmul d a b) = true ∧ F32.isInf (F32.fmul d b a) = true ∧
      F32.sign (F32.fmul d a b) = (F32.sign a != F32.sign b) ∧
      F32.sign (F32.fmul d b a) = (F32.sign a != F32.sign b))

/-! The drivers' pseudo-commands. -/

/-- R174, property A2: after `setcut` of a band that is not bypassed, exactly the sections up to the slope index
are active in both channels, with the sets given; the band's other sections are bypassed and no section outside
the band is touched. -/
def Obligations.SetcutActivatesSlopePlusOneSections : Prop :=
  ∀ (s : State) (band : CutBand) (slope : Fin 4) (set : Fin 4 → Coeffs),
    ∃ t, execAll (setcut band slope false set) s = .next t ∧
      ∀ c, (∀ k, ((t.chan c).secAt (band.sec k)).bypc = decide (slope < k) ∧
          (k ≤ slope → ((t.chan c).secAt (band.sec k)).cur = set k)) ∧
        ∀ j, (∀ k, j ≠ band.sec k) → (t.chan c).secAt j = (s.chan c).secAt j

/-- R176 with R105 and R121: a callback pushes into each channel's FIFO exactly what `PROC` answered for that channel.
That each output is the newest unread block at the end is said of a callback with no command of the other port in
between, a `POP` of which could take it: the model's choice of what it states (assumption log 14). -/
def Obligations.CallbackPushesProcessedBlocks : Prop :=
  ∀ (s : State) (b0 b1 : List F32), s.Inv →
    ∃ t o0 o1, callback b0 b1 s = .next t ∧
      (t.port .rt).responses = (s.port .rt).responses ++
        [response 0x3#4 .ok o0, response 0x3#4 .ok o1, ⟨0x40000000#32, []⟩, ⟨0x40000000#32, []⟩] ∧
      (t.ch0.sf.unread s.par.cap).getLast? = some o0 ∧ (t.ch1.sf.unread s.par.cap).getLast? = some o1 ∧
      o0.length = b0.length ∧ o1.length = b1.length
end

