-- ==== Sys2Proof/Laws/Encoding.lean ====
section
/-! SUPPORT. The command word bit by bit: what each field of an encoded word is, when two words are equal,
and what the mask test says of each field (30_encoding.md R71 to R74). -/

namespace Sys2Proof

variable (op : Op) (ch : BitVec 2) (idx : BitVec 4) (imm : BitVec 16)

/-- The bits of an encoded word (R71). -/
theorem getLsbD_encodeWord (i : Nat) : (encodeWord op ch idx imm).getLsbD i =
    if i < 16 then imm.getLsbD i else if i < 20 then idx.getLsbD (i - 16) else if i < 24 then false
    else if i < 26 then ch.getLsbD (i - 24) else if i < 28 then false else op.code.getLsbD (i - 28) := by
  unfold encodeWord
  rw [BitVec.getLsbD_append, BitVec.getLsbD_append, BitVec.getLsbD_append, BitVec.getLsbD_append,
    BitVec.getLsbD_append]
  simp only [show ∀ x, (0#4).getLsbD x = false by simp, show ∀ x, (0#2).getLsbD x = false by simp]
  repeat' split
  all_goals first | omega | rfl

@[simp] theorem fieldOpc_encodeWord : fieldOpc (encodeWord op ch idx imm) = op.code := by
  apply BitVec.eq_of_getLsbD_eq
  intro i hi
  rw [fieldOpc, BitVec.getLsbD_extractLsb', getLsbD_encodeWord, if_neg (by omega), if_neg (by omega),
    if_neg (by omega), if_neg (by omega), if_neg (by omega)]
  simp [hi]

@[simp] theorem fieldZ1_encodeWord : fieldZ1 (encodeWord op ch idx imm) = 0 := by
  apply BitVec.eq_of_getLsbD_eq
  intro i hi
  rw [fieldZ1, BitVec.getLsbD_extractLsb', getLsbD_encodeWord, if_neg (by omega), if_neg (by omega),
    if_neg (by omega), if_neg (by omega), if_pos (by omega)]
  simp

@[simp] theorem fieldCh_encodeWord : fieldCh (encodeWord op ch idx imm) = ch := by
  apply BitVec.eq_of_getLsbD_eq
  intro i hi
  rw [fieldCh, BitVec.getLsbD_extractLsb', getLsbD_encodeWord, if_neg (by omega), if_neg (by omega),
    if_neg (by omega), if_pos (by omega)]
  simp [hi]

@[simp] theorem fieldZ2_encodeWord : fieldZ2 (encodeWord op ch idx imm) = 0 := by
  apply BitVec.eq_of_getLsbD_eq
  intro i hi
  rw [fieldZ2, BitVec.getLsbD_extractLsb', getLsbD_encodeWord, if_neg (by omega), if_neg (by omega),
    if_pos (by omega)]
  simp

@[simp] theorem fieldIdx_encodeWord : fieldIdx (encodeWord op ch idx imm) = idx := by
  apply BitVec.eq_of_getLsbD_eq
  intro i hi
  rw [fieldIdx, BitVec.getLsbD_extractLsb', getLsbD_encodeWord, if_neg (by omega), if_pos (by omega)]
  simp [hi]

@[simp] theorem fieldImm_encodeWord : fieldImm (encodeWord op ch idx imm) = imm := by
  apply BitVec.eq_of_getLsbD_eq
  intro i hi
  rw [fieldImm, BitVec.getLsbD_extractLsb', getLsbD_encodeWord, if_pos (by omega)]
  simp [hi]

@[simp] theorem fieldB_encodeWord : fieldB (encodeWord op ch idx imm) = imm.getLsbD 0 := by
  rw [fieldB, getLsbD_encodeWord, if_pos (by omega)]

/-- The six fields are the whole word (R71). -/
theorem word_ext {v w : Word} (h1 : fieldOpc v = fieldOpc w) (h2 : fieldZ1 v = fieldZ1 w)
    (h3 : fieldCh v = fieldCh w) (h4 : fieldZ2 v = fieldZ2 w) (h5 : fieldIdx v = fieldIdx w)
    (h6 : fieldImm v = fieldImm w) : v = w := by
  apply BitVec.eq_of_getLsbD_eq
  intro i hi
  by_cases a : i < 16
  · have := congrArg (fun x => x.getLsbD i) h6
    simpa [fieldImm, BitVec.getLsbD_extractLsb', a] using this
  by_cases b : i < 20
  · have := congrArg (fun x => x.getLsbD (i - 16)) h5
    simpa [fieldIdx, BitVec.getLsbD_extractLsb', show i - 16 < 4 by omega, show 16 + (i - 16) = i by omega] using this
  by_cases c : i < 24
  · have := congrArg (fun x => x.getLsbD (i - 20)) h4
    simpa [fieldZ2, BitVec.getLsbD_extractLsb', show i - 20 < 4 by omega, show 20 + (i - 20) = i by omega] using this
  by_cases d : i < 26
  · have := congrArg (fun x => x.getLsbD (i - 24)) h3
    simpa [fieldCh, BitVec.getLsbD_extractLsb', show i - 24 < 2 by omega, show 24 + (i - 24) = i by omega] using this
  by_cases e : i < 28
  · have := congrArg (fun x => x.getLsbD (i - 26)) h2
    simpa [fieldZ1, BitVec.getLsbD_extractLsb', show i - 26 < 2 by omega, show 26 + (i - 26) = i by omega] using this
  · have := congrArg (fun x => x.getLsbD (i - 28)) h1
    simpa [fieldOpc, BitVec.getLsbD_extractLsb', show i - 28 < 4 by omega, show 28 + (i - 28) = i by omega] using this

/-! Each field of a masked word is the masked field. -/

theorem extract_and (v w : Word) (a n : Nat) :
    (v &&& w).extractLsb' a n = v.extractLsb' a n &&& w.extractLsb' a n := by
  apply BitVec.eq_of_getLsbD_eq
  intro i hi
  simp [hi]

@[simp] theorem fieldOpc_and (v w : Word) : fieldOpc (v &&& w) = fieldOpc v &&& fieldOpc w := extract_and ..
@[simp] theorem fieldZ1_and (v w : Word) : fieldZ1 (v &&& w) = fieldZ1 v &&& fieldZ1 w := extract_and ..
@[simp] theorem fieldCh_and (v w : Word) : fieldCh (v &&& w) = fieldCh v &&& fieldCh w := extract_and ..
@[simp] theorem fieldZ2_and (v w : Word) : fieldZ2 (v &&& w) = fieldZ2 v &&& fieldZ2 w := extract_and ..
@[simp] theorem fieldIdx_and (v w : Word) : fieldIdx (v &&& w) = fieldIdx v &&& fieldIdx w := extract_and ..
@[simp] theorem fieldImm_and (v w : Word) : fieldImm (v &&& w) = fieldImm v &&& fieldImm w := extract_and ..

/-- What the mask test of an opcode says, field by field (R72, R73). -/
theorem mask_iff (w : Word) : w &&& op.mask = op.pattern ↔
    fieldOpc w = op.code ∧ fieldZ1 w = 0 ∧ fieldCh w &&& fieldCh op.mask = 0 ∧ fieldZ2 w = 0 ∧
      fieldIdx w &&& fieldIdx op.mask = 0 ∧ fieldImm w &&& fieldImm op.mask = 0 := by
  have hm : fieldOpc op.mask = 15#4 ∧ fieldZ1 op.mask = 3#2 ∧ fieldZ2 op.mask = 15#4 ∧
      fieldOpc op.pattern = op.code ∧ fieldZ1 op.pattern = 0 ∧ fieldCh op.pattern = 0 ∧ fieldZ2 op.pattern = 0 ∧
      fieldIdx op.pattern = 0 ∧ fieldImm op.pattern = 0 := by cases op <;> decide
  obtain ⟨m1, m2, m3, p1, p2, p3, p4, p5, p6⟩ := hm
  have all4 : ∀ x : BitVec 4, x &&& 15#4 = x := by decide
  have all2 : ∀ x : BitVec 2, x &&& 3#2 = x := by decide
  constructor
  · intro h
    refine ⟨?_, ?_, ?_, ?_, ?_, ?_⟩
    · simpa [m1, p1, all4] using congrArg fieldOpc h
    · simpa [m2, p2, all2] using congrArg fieldZ1 h
    · simpa [p3] using congrArg fieldCh h
    · simpa [m3, p4, all4] using congrArg fieldZ2 h
    · simpa [p5] using congrArg fieldIdx h
    · simpa [p6] using congrArg fieldImm h
  · rintro ⟨h1, h2, h3, h4, h5, h6⟩
    apply word_ext
    · rw [fieldOpc_and, m1, p1, all4, h1]
    · rw [fieldZ1_and, m2, p2, all2, h2]
    · rw [fieldCh_and, p3, h3]
    · rw [fieldZ2_and, m3, p4, all4, h4]
    · rw [fieldIdx_and, p5, h5]
    · rw [fieldImm_and, p6, h6]

/-- A word whose must-be-zero fields are zero is the encoding of its fields. -/
theorem eq_encodeWord {w : Word} (h : fieldOpc w = op.code) (h1 : fieldZ1 w = 0) (h2 : fieldZ2 w = 0) :
    w = encodeWord op (fieldCh w) (fieldIdx w) (fieldImm w) := by
  apply word_ext <;> simp [h, h1, h2]

/-- The nibble of an opcode names it, and only it. -/
@[simp] theorem ofCode_code : Op.ofCode op.code = some op := by cases op <;> rfl

theorem code_of_ofCode {n : BitVec 4} {op : Op} (h : Op.ofCode n = some op) : n = op.code := by
  revert h; revert n; cases op <;> decide

theorem ofCode_none_iff (n : BitVec 4) : Op.ofCode n = none ↔ 11 ≤ n.toNat := by revert n; decide

/-! Channel and section fields. -/

@[simp] theorem fieldChn_encodeWord (c : Ch) : fieldChn (encodeWord op (chnField c) idx imm) = c := by
  rw [fieldChn, fieldCh_encodeWord]
  cases c <;> rfl

theorem field_of_chn {x : BitVec 2} (h : x &&& 2 = 0) : chnField (if x.getLsbD 0 then .ch1 else .ch0) = x := by
  revert h; revert x; decide

@[simp] theorem idxField_toNat (i : SecIdx) : (idxField i).toNat = i.val := by
  have := i.isLt
  simp [idxField]; omega

@[simp] theorem sec_of_idxField (i : SecIdx) : Fin.ofNat 10 (idxField i).toNat = i := by
  apply Fin.ext
  simp

@[simp] theorem fieldSec_encodeWord (i : SecIdx) : fieldSec (encodeWord op ch (idxField i) imm) = i := by
  rw [fieldSec, fieldIdx_encodeWord, sec_of_idxField]

theorem idxField_of_sec {x : BitVec 4} (h : x.toNat ≤ 9) : idxField (Fin.ofNat 10 x.toNat) = x := by
  revert h; revert x; decide

@[simp] theorem coeffsOf_wordsOf (k : Coeffs) : coeffsOf (wordsOf k) = k := rfl

theorem wordsOf_coeffsOf {ws : List Word} (h : ws.length = 5) : wordsOf (coeffsOf ws) = ws := by
  match ws, h with
  | [_, _, _, _, _], _ => rfl

end Sys2Proof
end

