-- ==== Sys2Proof/Laws/Float.lean ====
section
/-! SUPPORT. The binary32 patterns a rounding can give, NaN results, and the arithmetic on special values
(20_memory.md R62, R63). -/

namespace Sys2Proof.F32

theorem toNat_ofParts {neg : Bool} {low : Nat} (h : low < 2 ^ 31) :
    (ofParts neg low).toNat = low + if neg then 2 ^ 31 else 0 := by
  unfold ofParts
  rw [BitVec.toNat_ofNat]
  apply Nat.mod_eq_of_lt
  split <;> omega

theorem expo_ofParts {neg : Bool} {low : Nat} (h : low < 2 ^ 31) : expo (ofParts neg low) = low / 2 ^ 23 := by
  unfold expo
  rw [toNat_ofParts h]
  split <;> omega

theorem frac_ofParts {neg : Bool} {low : Nat} (h : low < 2 ^ 31) : frac (ofParts neg low) = low % 2 ^ 23 := by
  unfold frac
  rw [toNat_ofParts h]
  split <;> omega

theorem sign_ofParts {neg : Bool} {low : Nat} (h : low < 2 ^ 31) : sign (ofParts neg low) = neg := by
  unfold sign
  rw [BitVec.msb_eq_decide, toNat_ofParts h]
  cases neg <;> simp <;> omega

/-- A drawn NaN is a NaN (R63). -/
@[simp] theorem isNaN_nan (d : NaNBits) : isNaN (nan d) = true := by
  have hf := d.frac.isLt
  have h : 255 * 2 ^ 23 + (d.frac.val + 1) < 2 ^ 31 := by omega
  unfold isNaN nan
  rw [expo_ofParts h, frac_ofParts h]
  have h1 : (255 * 2 ^ 23 + (d.frac.val + 1)) / 2 ^ 23 = 255 := by omega
  have h2 : (255 * 2 ^ 23 + (d.frac.val + 1)) % 2 ^ 23 ≠ 0 := by omega
  rw [h1]
  simpa using h2

/-- Every NaN pattern is drawn for some free bits (R63: any NaN pattern). -/
theorem nan_surjective {x : F32} (h : isNaN x = true) : ∃ d, nan d = x := by
  unfold isNaN at h
  simp only [Bool.and_eq_true, beq_iff_eq, bne_iff_ne] at h
  obtain ⟨he, hf⟩ := h
  have hx := x.isLt
  refine ⟨⟨sign x, ⟨frac x - 1, by unfold frac; omega⟩⟩, ?_⟩
  apply BitVec.eq_of_toNat_eq
  have hf' : frac x < 2 ^ 23 := by unfold frac; omega
  rw [nan, toNat_ofParts (by simp only; omega)]
  simp only [sign, BitVec.msb_eq_decide]
  unfold expo at he
  unfold frac at *
  split <;> simp at * <;> omega

theorem not_finite_of_nan {x : F32} (h : isNaN x = true) : isFinite x = false := by
  unfold isNaN at h; unfold isFinite; simp_all

theorem roundEven_le (num den : Nat) : roundEven num den ≤ num / den + 1 := by
  unfold roundEven; split <;> omega

theorem le_roundEven (num den : Nat) : num / den ≤ roundEven num den := by
  unfold roundEven; split <;> omega

theorem roundMag_le (num den : Nat) : roundMag num den ≤ 255 * 2 ^ 23 := Nat.min_le_left _ _

theorem roundMag_lt (num den : Nat) : roundMag num den < 2 ^ 31 := by
  have := roundMag_le num den; omega

/-- A rounded value is never NaN. -/
@[simp] theorem isNaN_round (neg : Bool) (num den : Nat) : isNaN (round neg num den) = false := by
  unfold isNaN round
  rw [expo_ofParts (roundMag_lt num den), frac_ofParts (roundMag_lt num den)]
  have := roundMag_le num den
  by_cases h : roundMag num den / 2 ^ 23 = 255
  · have h2 : roundMag num den = 255 * 2 ^ 23 := by omega
    rw [h2]; decide
  · rw [beq_eq_false_iff_ne.2 h, Bool.false_and]

@[simp] theorem sign_round (neg : Bool) (num den : Nat) : sign (round neg num den) = neg :=
  sign_ofParts (roundMag_lt num den)

/-- A zero magnitude rounds to zero. -/
@[simp] theorem roundMag_zero (den : Nat) : roundMag 0 den = 0 := by
  simp [roundMag, shiftFor, roundEven]

/-- After the shift the quotient has at most 24 bits. -/
theorem div_shift_lt (num den : Nat) : num / (den * 2 ^ shiftFor num den) < 2 ^ 24 := by
  rw [← Nat.div_div_eq_div_mul]
  apply Nat.div_lt_of_lt_mul
  rw [← Nat.pow_add]
  unfold shiftFor
  by_cases h : num / den = 0
  · rw [h]; exact Nat.pow_pos (by omega)
  · exact Nat.lt_of_lt_of_le (Nat.lt_log2_self) (Nat.pow_le_pow_right (by omega) (by omega))

/-- A magnitude below `2^b` units rounds to a finite value while `b` is at most 276. -/
theorem roundMag_finite {num den b : Nat} (h : num / den < 2 ^ b) (hb : b ≤ 276) :
    roundMag num den < 255 * 2 ^ 23 := by
  have hs : shiftFor num den ≤ 252 := by
    unfold shiftFor
    by_cases h0 : num / den = 0
    · simp [h0]
    · have : (num / den).log2 < b := (Nat.log2_lt h0).2 h
      omega
  have hr := roundEven_le num (den * 2 ^ shiftFor num den)
  have hd := div_shift_lt num den
  exact Nat.lt_of_le_of_lt (Nat.min_le_right _ _) (by omega)

theorem isFinite_round {neg : Bool} {num den b : Nat} (h : num / den < 2 ^ b) (hb : b ≤ 276) :
    isFinite (round neg num den) = true := by
  unfold isFinite round
  rw [expo_ofParts (roundMag_lt num den)]
  have := roundMag_finite h hb
  simp; omega

/-! NaN operands give NaN results, and so do the invalid operations (R63). -/

variable (d : NaNBits) (a b : F32)

theorem isNaN_negate : isNaN (negate a) = isNaN a := by
  have h : ∀ i, i < 31 → (negate a).getLsbD i = a.getLsbD i := by
    intro i hi
    have : (0x80000000#32).getLsbD i = false := by
      have : ∀ i : Fin 31, (0x80000000#32).getLsbD i.val = false := by decide
      exact this ⟨i, hi⟩
    simp [negate, this]
  have e : (negate a).toNat % 2 ^ 31 = a.toNat % 2 ^ 31 := by
    have := congrArg BitVec.toNat (show (negate a).setWidth 31 = a.setWidth 31 by
      apply BitVec.eq_of_getLsbD_eq
      intro i hi
      simp only [BitVec.getLsbD_setWidth, h i hi])
    simpa [BitVec.toNat_setWidth] using this
  have e1 : expo (negate a) = expo a := by unfold expo; omega
  have e2 : frac (negate a) = frac a := by unfold frac; omega
  simp [isNaN, e1, e2]

theorem fadd_nan (h : isNaN a = true ∨ isNaN b = true) : fadd d a b = nan d := by
  rcases h with h | h <;> simp [fadd, h]

theorem fsub_nan (h : isNaN a = true ∨ isNaN b = true) : fsub d a b = nan d := by
  apply fadd_nan
  rwa [isNaN_negate]

theorem fmul_nan (h : isNaN a = true ∨ isNaN b = true) : fmul d a b = nan d := by
  rcases h with h | h <;> simp [fmul, h]

theorem fdiv_nan (h : isNaN a = true ∨ isNaN b = true) : fdiv d a b = nan d := by
  rcases h with h | h <;> simp [fdiv, h]

/-! Finite values. -/

theorem finite_not_nan (h : isFinite a = true) : isNaN a = false := by
  unfold isFinite at h; unfold isNaN; simp_all

theorem finite_not_inf (h : isFinite a = true) : isInf a = false := by
  unfold isFinite at h; unfold isInf; simp_all

theorem mag_eq_zero_iff : mag a = 0 ↔ expo a = 0 ∧ frac a = 0 := by
  unfold mag
  split
  · simp [*]
  · constructor
    · intro h
      rcases Nat.mul_eq_zero.1 h with h | h
      · omega
      · exact absurd h (by simp)
    · intro h; exact absurd h.1 ‹_›

/-- Multiplying a zero by a finite value gives a zero. -/
theorem mag_fmul_zero (ha : isFinite a = true) (hb : isFinite b = true) (hz : mag a = 0) :
    mag (fmul d a b) = 0 := by
  unfold fmul
  simp only [finite_not_nan _ ha, finite_not_nan _ hb, finite_not_inf _ ha, finite_not_inf _ hb, hz, Nat.zero_mul,
    Bool.or_self, Bool.false_eq_true, if_false]
  rw [mag_eq_zero_iff, round, roundMag_zero, expo_ofParts (by omega), frac_ofParts (by omega)]
  decide

theorem finite_of_mag_zero (h : mag a = 0) : isFinite a = true := by
  have := ((mag_eq_zero_iff a).1 h).1
  simp [isFinite, this]

theorem gtZero_of_mag_zero (h : mag a = 0) : gtZero a = false := by
  simp [gtZero, units, h]

/-- Dividing a zero by a finite non-zero value gives a zero. -/
theorem mag_fdiv_zero (ha : mag a = 0) (hb : isFinite b = true) (hz : mag b ≠ 0) : mag (fdiv d a b) = 0 := by
  unfold fdiv
  have hf := finite_of_mag_zero a ha
  simp only [finite_not_nan _ hf, finite_not_nan _ hb, finite_not_inf _ hf, finite_not_inf _ hb, ha, hz, Nat.zero_mul,
    Bool.or_self, Bool.false_eq_true, if_false]
  rw [mag_eq_zero_iff, round, roundMag_zero, expo_ofParts (by omega), frac_ofParts (by omega)]
  decide

/-- `fmax` of finite values is finite and not below its first argument. -/
theorem fmax_spec (ha : isFinite a = true) (hb : isFinite b = true) :
    isFinite (fmax a b) = true ∧ units a ≤ units (fmax a b) := by
  unfold fmax
  split
  · exact ⟨hb, by omega⟩
  · exact ⟨ha, Int.le_refl _⟩

end Sys2Proof.F32

namespace Sys2Proof

/-- The default window's entries are finite (R6). -/
theorem window_finite (N n : Nat) : F32.isFinite (Window.blackmanHarris N n) = true := by
  apply F32.isFinite_round (b := 150) _ (by omega)
  apply Nat.div_lt_of_lt_mul
  have : ∀ x : Nat, min x (100000 * 2 ^ 160) * 2 ^ 149 < 100000 * 2 ^ 160 * 2 ^ 150 := by
    intro x
    have : min x (100000 * 2 ^ 160) ≤ 100000 * 2 ^ 160 := Nat.min_le_right _ _
    omega
  exact this _

theorem table_length (N : Nat) : (Window.table N).length = N := by
  rw [Window.table_eq, List.length_map, List.length_range]

theorem table_finite (N : Nat) : ∀ w ∈ Window.table N, F32.isFinite w = true := by
  intro w hw
  rw [Window.table_eq] at hw
  obtain ⟨n, _, rfl⟩ := List.mem_map.1 hw
  exact window_finite N n

/-- The defaults meet the constraints of R6. -/
theorem default_valid : Params.default.Valid where
  blockMax_pos := by decide
  blockMax_le := by decide
  block_fits := by decide
  cap_pos := by decide
  cap_le := by decide
  fft_ge := by decide
  fft_le := by decide
  fft_pow := by decide
  frame_pos := by decide
  frame_le := by decide
  floor_finite := by decide
  floor_neg := by decide
  win_length := table_length 4096
  win_finite := table_finite 4096

end Sys2Proof
end

