-- ==== Sys2Proof/Laws/State.lean ====
section
/-! SUPPORT. One lemma per part of the state and per update, so that no later proof unfolds a record update. -/

namespace Sys2Proof.Machine

variable (s : State) (c : Ch) (g : Channel) (p q : Port) (v : PortState)

/-! Channels. -/

@[simp] theorem chan_setChan : (s.setChan c g).chan c = g := by cases c <;> rfl
@[simp] theorem chan_setChan_ne {c d : Ch} (h : d ≠ c) : (s.setChan c g).chan d = s.chan d := by
  cases c <;> cases d <;> first | rfl | exact absurd rfl h
@[simp] theorem chan_setChan_other : (s.setChan c g).chan (otherCh c) = s.chan (otherCh c) := by
  cases c <;> rfl
@[simp] theorem par_setChan : (s.setChan c g).par = s.par := by cases c <;> rfl
@[simp] theorem sched_setChan : (s.setChan c g).sched = s.sched := by cases c <;> rfl
@[simp] theorem port_setChan : (s.setChan c g).port p = s.port p := by cases c <;> cases p <;> rfl
@[simp] theorem setChan_chan : s.setChan c (s.chan c) = s := by cases c <;> rfl
@[simp] theorem setChan_setChan (h : Channel) : (s.setChan c g).setChan c h = s.setChan c h := by
  cases c <;> rfl

/-! Ports. -/

@[simp] theorem port_setPort : (s.setPort p v).port p = v := by cases p <;> rfl
@[simp] theorem port_setPort_ne {p q : Port} (h : q ≠ p) : (s.setPort p v).port q = s.port q := by
  cases p <;> cases q <;> first | rfl | exact absurd rfl h
@[simp] theorem port_setPort_other : (s.setPort p v).port (otherPort p) = s.port (otherPort p) := by
  cases p <;> rfl
@[simp] theorem par_setPort : (s.setPort p v).par = s.par := by cases p <;> rfl
@[simp] theorem sched_setPort : (s.setPort p v).sched = s.sched := by cases p <;> rfl
@[simp] theorem chan_setPort : (s.setPort p v).chan c = s.chan c := by cases p <;> cases c <;> rfl

/-! Several channels at once. -/

variable (chm : BitVec 2) (f : Channel → Channel)

@[simp] theorem par_onMask : (s.onMask chm f).par = s.par := rfl
@[simp] theorem sched_onMask : (s.onMask chm f).sched = s.sched := rfl
@[simp] theorem port_onMask : (s.onMask chm f).port p = s.port p := by cases p <;> rfl
theorem chan_onMask : (s.onMask chm f).chan c = if selects chm c then f (s.chan c) else s.chan c := by
  cases c <;> rfl

/-! One section. -/

variable (i j : SecIdx) (h : Section → Section)

@[simp] theorem secAt_onSec : (g.onSec i h).secAt i = h (g.secAt i) := by
  simp [Channel.secAt, Channel.onSec]
theorem secAt_onSec_ne {i j : SecIdx} (hij : j ≠ i) : (g.onSec i h).secAt j = g.secAt j := by
  have : i.val ≠ j.val := fun e => hij (Fin.ext e.symm)
  simp [Channel.secAt, Channel.onSec, this]
@[simp] theorem sf_onSec : (g.onSec i h).sf = g.sf := rfl
@[simp] theorem roll_onSec : (g.onSec i h).roll = g.roll := rfl
@[simp] theorem ff_onSec : (g.onSec i h).ff = g.ff := rfl
@[simp] theorem draws_onSec : (g.onSec i h).draws = g.draws := rfl

theorem secAt_latch : g.latch.secAt i = (g.secAt i).latch := by
  simp [Channel.secAt, Channel.latch]

/-- Two banks agree when every section does. -/
theorem sec_ext {x y : Vector Section 10} (h : ∀ i : SecIdx, x[i] = y[i]) : x = y := by
  apply Vector.ext
  intro i hi
  exact h ⟨i, hi⟩

/-! Responses. -/

variable (opc : BitVec 4) (st : Status) (ws : List Word)

@[simp] theorem par_respond : (s.respond p opc st ws).par = s.par := by simp [State.respond]
@[simp] theorem sched_respond : (s.respond p opc st ws).sched = s.sched := by simp [State.respond]
@[simp] theorem chan_respond : (s.respond p opc st ws).chan c = s.chan c := by simp [State.respond]
@[simp] theorem err_respond : ((s.respond p opc st ws).port q).err = (s.port q).err := by
  cases p <;> cases q <;> rfl
@[simp] theorem pending_respond : ((s.respond p opc st ws).port q).pending = (s.port q).pending := by
  cases p <;> cases q <;> rfl
@[simp] theorem responses_respond :
    ((s.respond p opc st ws).port p).responses = (s.port p).responses ++ [response opc st ws] := by
  simp [State.respond]
@[simp] theorem responses_respond_other :
    ((s.respond p opc st ws).port (otherPort p)).responses = (s.port (otherPort p)).responses := by
  simp [State.respond]

/-- What answering does and does not do, once. -/
theorem answers_respond : s.Answers (s.respond p opc st ws) p (response opc st ws) :=
  ⟨by simp, by simp, by simp, by simp, by simp, by simp⟩

/-- Answering after a change of the channels only. -/
theorem answers_of_same {s t : State} (hp : t.par = s.par) (hs : t.sched = s.sched) (hq : ∀ q, t.port q = s.port q) :
    s.Answers (t.respond p opc st ws) p (response opc st ws) :=
  ⟨by simp [hp], by simp [hs], by simp [hq], by simp [hq], by simp [hq], by simp [hq]⟩

/-! Refusals. -/

variable (w : Word) (e : CmdError)

@[simp] theorem par_refuse : (s.refuse p w e).par = s.par := by simp [State.refuse]
@[simp] theorem sched_refuse : (s.refuse p w e).sched = s.sched := by simp [State.refuse]
@[simp] theorem chan_refuse : (s.refuse p w e).chan c = s.chan c := by simp [State.refuse]
@[simp] theorem err_refuse : ((s.refuse p w e).port p).err = recordError (s.port p).err e := by
  cases p <;> rfl
@[simp] theorem err_refuse_other :
    ((s.refuse p w e).port (otherPort p)).err = (s.port (otherPort p)).err := by cases p <;> rfl
@[simp] theorem pending_refuse : ((s.refuse p w e).port q).pending = (s.port q).pending := by
  cases p <;> cases q <;> rfl
@[simp] theorem responses_refuse :
    ((s.refuse p w e).port p).responses = (s.port p).responses ++ [response (fieldOpc w) (.error e) []] := by
  cases p <;> rfl
@[simp] theorem responses_refuse_other :
    ((s.refuse p w e).port (otherPort p)).responses = (s.port (otherPort p)).responses := by
  cases p <;> rfl

/-! Reset. -/

@[simp] theorem par_onReset : s.onReset.par = s.par := rfl
@[simp] theorem sched_onReset : s.onReset.sched = s.sched := rfl
@[simp] theorem chan_onReset : s.onReset.chan c = Channel.reset s.par (s.chan c).draws := by cases c <;> rfl
@[simp] theorem err_onReset : (s.onReset.port p).err = 0#4 := by cases p <;> rfl
@[simp] theorem pending_onReset : (s.onReset.port p).pending = (s.port p).pending := by cases p <;> rfl
@[simp] theorem responses_onReset : (s.onReset.port p).responses = (s.port p).responses := by cases p <;> rfl

/-! The error register: only `0` and the seven codes. -/

theorem code_ne_zero : e.code ≠ 0#4 := by cases e <;> decide

theorem errLegal_record {r : BitVec 4} (h : errLegal r) : errLegal (recordError r e) := by
  unfold recordError
  split
  · exact .inr ⟨e, rfl⟩
  · exact h

theorem record_ne_zero {r : BitVec 4} (h : r ≠ 0#4) : recordError r e = r := by simp [recordError, h]

/-- Every channel and every port is one of two. -/
theorem ch_eq_or_other (c d : Ch) : d = c ∨ d = otherCh c := by cases c <;> cases d <;> simp [otherCh]
theorem port_eq_or_other (p q : Port) : q = p ∨ q = otherPort p := by cases p <;> cases q <;> simp [otherPort]

/-- The invariant, channel by channel and port by port. -/
theorem inv_iff : s.Inv ↔ s.par.Valid ∧ (∀ c, (s.chan c).Wf s.par) ∧ ∀ p, errLegal (s.port p).err :=
  ⟨fun h => ⟨h.par, fun | .ch0 => h.ch0 | .ch1 => h.ch1, fun | .rt => h.rt | .an => h.an⟩,
   fun h => ⟨h.1, h.2.1 .ch0, h.2.1 .ch1, h.2.2 .rt, h.2.2 .an⟩⟩

end Sys2Proof.Machine
end

