-- ==== Sys2Proof/Laws/Filter.lean ====
section
/-! SUPPORT. The filter chain section by section (40_filter_chain.md R103 to R108): what a sample and a block
do to each section, and how a block splits. -/

namespace Sys2Proof.Machine

variable (N : Num) (nan : Nat → Nat → NaNBits)

/-! One section. -/

@[simp] theorem out_bypassed {x : Section} (h : x.bypa = true) (d : Nat → NaNBits) (v : F32) : x.out N d v = v := by
  simp [Section.out, h]
@[simp] theorem after_bypassed {x : Section} (h : x.bypa = true) (d : Nat → NaNBits) (v : F32) :
    x.after N d v = x := by
  simp [Section.after, h]
theorem out_active {x : Section} (h : x.bypa = false) (d : Nat → NaNBits) (v : F32) :
    x.out N d v = biquadOut N d x.act x.z v := by
  simp [Section.out, h]
theorem after_active {x : Section} (h : x.bypa = false) (d : Nat → NaNBits) (v : F32) :
    x.after N d v = { x with z := x.z.shift v (biquadOut N d x.act x.z v) } := by
  simp [Section.after, h]

/-- A sample changes nothing of a section but its delay registers. -/
theorem after_keeps (x : Section) (d : Nat → NaNBits) (v : F32) :
    (x.after N d v).cur = x.cur ∧ (x.after N d v).act = x.act ∧ (x.after N d v).bypc = x.bypc ∧
      (x.after N d v).bypa = x.bypa := by
  cases h : x.bypa
  · rw [after_active _ h]; simp [h]
  · rw [after_bypassed _ h]; simp [h]

/-- A NaN in `y1` reaches the output under the default arithmetic (R107). -/
theorem biquadOut_nan {d : Nat → NaNBits} {k : Coeffs} {z : Delay} {v : F32} (h : F32.isNaN z.y1 = true) :
    F32.isNaN (biquadOut Config.ieee754 d k z v) = true := by
  unfold biquadOut
  simp only [Config.ieee754]
  rw [F32.fmul_nan (d 3) k.a1 z.y1 (.inr h), F32.fsub_nan (d 7) _ (F32.nan (d 3)) (.inr (by simp)),
    F32.fsub_nan (d 8) (F32.nan (d 7)) _ (.inl (by simp))]
  simp

/-! The cascade, one sample. -/

/-- The input that reaches the `j`-th section of a list. -/
def inputAt : Nat → List Section → Nat → F32 → F32
  | _, _, 0, v => v
  | _, [], _, v => v
  | k, x :: xs, j + 1, v => inputAt (k + 1) xs j (x.out N (nan k) v)

/-- Each section's input is the output of the section before it (R105). -/
theorem inputAt_succ (k : Nat) (xs : List Section) (j : Nat) (v : F32) (h : j < xs.length) :
    inputAt N nan k xs (j + 1) v = xs[j].out N (nan (k + j)) (inputAt N nan k xs j v) := by
  induction xs generalizing k j v with
  | nil => cases h
  | cons x xs ih =>
    cases j with
    | zero => cases xs <;> rfl
    | succ j =>
      simp only [inputAt, List.getElem_cons_succ]
      rw [ih (k + 1) j _ (by simpa using h), show k + 1 + j = k + (j + 1) by omega]

/-- What leaves the last section leaves the chain (R105). -/
theorem inputAt_length (k : Nat) (xs : List Section) (v : F32) :
    inputAt N nan k xs xs.length v = chainOut N nan k xs v := by
  induction xs generalizing k v with
  | nil => rfl
  | cons x xs ih => exact ih (k + 1) _

theorem chainAfter_getElem? (k : Nat) (xs : List Section) (v : F32) (j : Nat) :
    (chainAfter N nan k xs v)[j]? = xs[j]?.map fun x => x.after N (nan (k + j)) (inputAt N nan k xs j v) := by
  induction xs generalizing k v j with
  | nil => simp [chainAfter]
  | cons x xs ih =>
    cases j with
    | zero => simp [chainAfter, inputAt]
    | succ j => simp [chainAfter, inputAt, ih, Nat.add_assoc, Nat.add_comm 1 j]

theorem chainOut_append (k : Nat) (xs ys : List Section) (v : F32) :
    chainOut N nan k (xs ++ ys) v = chainOut N nan (k + xs.length) ys (chainOut N nan k xs v) := by
  induction xs generalizing k v with
  | nil => simp [chainOut]
  | cons x xs ih => simp [chainOut, ih, Nat.add_assoc, Nat.add_comm 1]

/-- Bypassed sections pass the sample with its bit pattern unchanged (R108). -/
theorem chainOut_bypassed (k : Nat) {xs : List Section} (h : ∀ x ∈ xs, x.bypa = true) (v : F32) :
    chainOut N nan k xs v = v := by
  induction xs generalizing k with
  | nil => rfl
  | cons x xs ih =>
    rw [chainOut, out_bypassed _ (h x (List.mem_cons_self ..))]
    exact ih (k + 1) fun y hy => h y (List.mem_cons_of_mem _ hy)

/-- The `i`-th of ten sections after one sample. -/
theorem bankAfter_get (x : Vector Section 10) (v : F32) (i : SecIdx) :
    (bankAfter N nan x v)[i] = x[i].after N (nan i.val) (inputAt N nan 0 x.toList i.val v) := by
  have h := chainAfter_getElem? N nan 0 x.toList v i.val
  have hi : i.val < x.toList.length := by simp
  have hl : i.val < (chainAfter N nan 0 x.toList v).length := by rw [chainAfter_length]; exact hi
  rw [List.getElem?_eq_getElem hl, List.getElem?_eq_getElem hi] at h
  simp only [Option.map_some, Option.some.injEq, Nat.zero_add] at h
  simpa [bankAfter] using h

/-! A block. -/

variable (bnan : Nat → Nat → Nat → NaNBits)

@[simp] theorem blockOut_length (n : Nat) (x : Vector Section 10) (vs : List F32) :
    (blockOut N bnan n x vs).length = vs.length := by
  induction vs generalizing n x with
  | nil => rfl
  | cons v vs ih => simp [blockOut, ih]

/-- A block in two parts (R112). -/
theorem blockOut_append (n : Nat) (x : Vector Section 10) (vs ws : List F32) :
    blockOut N bnan n x (vs ++ ws) =
      blockOut N bnan n x vs ++ blockOut N bnan (n + vs.length) (blockAfter N bnan n x vs) ws := by
  induction vs generalizing n x with
  | nil => simp [blockOut, blockAfter]
  | cons v vs ih => simp [blockOut, blockAfter, ih, Nat.add_assoc, Nat.add_comm 1]

theorem blockAfter_append (n : Nat) (x : Vector Section 10) (vs ws : List F32) :
    blockAfter N bnan n x (vs ++ ws) = blockAfter N bnan (n + vs.length) (blockAfter N bnan n x vs) ws := by
  induction vs generalizing n x with
  | nil => simp [blockAfter]
  | cons v vs ih => simp [blockAfter, ih, Nat.add_assoc, Nat.add_comm 1]

/-- The sections after one sample more of a block (R105). -/
theorem blockAfter_take_succ (n : Nat) (x : Vector Section 10) (vs : List F32) (k : Nat) (h : k < vs.length) :
    blockAfter N bnan n x (vs.take (k + 1)) = bankAfter N (bnan (n + k)) (blockAfter N bnan n x (vs.take k)) vs[k] := by
  rw [List.take_succ_eq_append_getElem h, blockAfter_append, List.length_take, Nat.min_eq_left (Nat.le_of_lt h)]
  rfl

/-- The `k`-th sample answered is the `k`-th sample's way through the sections as they stand then (R105). -/
theorem blockOut_getElem? (n : Nat) (x : Vector Section 10) (vs : List F32) (k : Nat) (h : k < vs.length) :
    (blockOut N bnan n x vs)[k]? =
      some (chainOut N (bnan (n + k)) 0 (blockAfter N bnan n x (vs.take k)).toList vs[k]) := by
  induction vs generalizing n x k with
  | nil => cases h
  | cons v vs ih =>
    cases k with
    | zero => rfl
    | succ k =>
      simp only [blockOut, List.getElem?_cons_succ, List.take_succ_cons, blockAfter, List.getElem_cons_succ]
      rw [ih _ _ k (by simpa using h), show n + 1 + k = n + (k + 1) by omega]

/-- A block changes nothing of a section but its delay registers, and those only if it is active (R105, R108). -/
theorem blockAfter_keeps (n : Nat) (x : Vector Section 10) (vs : List F32) (i : SecIdx) :
    (blockAfter N bnan n x vs)[i].cur = x[i].cur ∧ (blockAfter N bnan n x vs)[i].act = x[i].act ∧
      (blockAfter N bnan n x vs)[i].bypc = x[i].bypc ∧ (blockAfter N bnan n x vs)[i].bypa = x[i].bypa ∧
      (x[i].bypa = true → (blockAfter N bnan n x vs)[i].z = x[i].z) := by
  induction vs generalizing n x with
  | nil => simp [blockAfter]
  | cons v vs ih =>
    obtain ⟨h1, h2, h3, h4, h5⟩ := ih (n + 1) (bankAfter N (bnan n) x v)
    obtain ⟨k1, k2, k3, k4⟩ := after_keeps N x[i] (bnan n i.val) (inputAt N (bnan n) 0 x.toList i.val v)
    rw [bankAfter_get] at h1 h2 h3 h4 h5
    refine ⟨h1.trans k1, h2.trans k2, h3.trans k3, h4.trans k4, fun hb => ?_⟩
    exact (h5 (k4.trans hb)).trans (by rw [after_bypassed _ hb])

/-- An active section whose previous output is NaN stays so through a block (R107). -/
theorem blockAfter_nan (n : Nat) (x : Vector Section 10) (vs : List F32) (i : SecIdx)
    (ha : x[i].bypa = false) (hn : F32.isNaN x[i].z.y1 = true) :
    F32.isNaN (blockAfter Config.ieee754 bnan n x vs)[i].z.y1 = true := by
  induction vs generalizing n x with
  | nil => exact hn
  | cons v vs ih =>
    apply ih
    · rw [bankAfter_get, (after_keeps _ _ _ _).2.2.2]; exact ha
    · rw [bankAfter_get, after_active _ ha]
      exact biquadOut_nan hn

/-! The channel. -/

variable (c : Ch) (g : Channel) (xs : List F32)

@[simp] theorem sf_proc : (g.proc N c xs).sf = g.sf := rfl
@[simp] theorem roll_proc : (g.proc N c xs).roll = g.roll := rfl
@[simp] theorem ff_proc : (g.proc N c xs).ff = g.ff := rfl
@[simp] theorem draws_proc : (g.proc N c xs).draws = g.draws + xs.length := rfl
@[simp] theorem procOut_length : (g.procOut N c xs).length = xs.length := by simp [Channel.procOut]

/-- The latch, section by section (R103). -/
theorem latch_sec (i : SecIdx) : g.latch.sec[i] = g.sec[i].latch := secAt_latch g i

/-- Everything `PROC` does to a section but the values of an active one's delay registers (R103, R105, R108). -/
theorem secAt_proc (i : SecIdx) :
    ((g.proc N c xs).secAt i).cur = (g.secAt i).cur ∧ ((g.proc N c xs).secAt i).act = (g.secAt i).cur ∧
      ((g.proc N c xs).secAt i).bypc = (g.secAt i).bypc ∧ ((g.proc N c xs).secAt i).bypa = (g.secAt i).bypc ∧
      ((g.secAt i).bypc = true → ((g.proc N c xs).secAt i).z = (g.secAt i).z) := by
  obtain ⟨h1, h2, h3, h4, h5⟩ := blockAfter_keeps N (Config.freeNaN c) g.draws g.latch.sec xs i
  rw [latch_sec] at h1 h2 h3 h4 h5
  exact ⟨h1, h2, h3, h4, h5⟩

end Sys2Proof.Machine
end

