-- ==== Sys2Proof/Laws/PerInstr.lean ====
section
/-! SUPPORT. One statement per family, made for each constructor of `Instr`: what the encoding of a
well-formed command looks like to the decoder's tests (30_encoding.md R73, R75, R84, R85). -/

namespace Sys2Proof.Laws.Encodes

/-- The encoding of a well-formed command has the command's opcode, is sent on a port that permits it, passes
the mask test and has the payload count its command word requires. -/
def Statement (i : Instr) : Prop :=
  ∀ P : Params, P.blockMax ≤ 65535 → i.wellFormed P = true →
    Op.ofCode (fieldOpc (encode i).word) = some i.op ∧ i.op.permits i.port = true ∧
      (encode i).word &&& i.op.mask = i.op.pattern ∧
      (encode i).payload.length = i.op.payloadLen (encode i).word

/-- The word test of an encoded word, by its three operand fields. -/
theorem mask_encodeWord (op : Op) (ch : BitVec 2) (idx : BitVec 4) (imm : BitVec 16)
    (h1 : ch &&& fieldCh op.mask = 0) (h2 : idx &&& fieldIdx op.mask = 0) (h3 : imm &&& fieldImm op.mask = 0) :
    encodeWord op ch idx imm &&& op.mask = op.pattern :=
  (mask_iff op _).2 ⟨by simp, by simp, by simpa using h1, by simp, by simpa using h2, by simpa using h3⟩

theorem len_field {n m : Nat} (h : n ≤ m) (hm : m ≤ 65535) : (BitVec.ofNat 16 n).toNat = n := by
  simp; omega

theorem chn_mask (c : Ch) : chnField c &&& 2 = 0 := by cases c <;> decide

theorem nop (p : Port) : Statement (.nop p) := fun _ _ _ =>
  ⟨by simp [encode, Instr.op], rfl, mask_encodeWord .nop 0 0 0 (by decide) (by decide) (by decide), rfl⟩

theorem upd (chm : BitVec 2) (idx : SecIdx) (k : Coeffs) : Statement (.upd chm idx k) := fun _ _ _ =>
  ⟨by simp [encode, Instr.op], rfl,
    mask_encodeWord .upd _ _ _ (by rw [show fieldCh Op.upd.mask = 0 by decide]; simp)
      (by rw [show fieldIdx Op.upd.mask = 0 by decide]; simp) (by decide), rfl⟩

theorem byp (chm : BitVec 2) (idx : SecIdx) (b : Bool) : Statement (.byp chm idx b) := fun _ _ _ =>
  ⟨by simp [encode, Instr.op], rfl,
    mask_encodeWord .byp _ _ _ (by rw [show fieldCh Op.byp.mask = 0 by decide]; simp)
      (by rw [show fieldIdx Op.byp.mask = 0 by decide]; simp) (by cases b <;> decide), rfl⟩

theorem proc (c : Ch) (xs : List F32) : Statement (.proc c xs) := fun P hP h =>
  ⟨by simp [encode, Instr.op], rfl,
    mask_encodeWord .proc _ _ _ (chn_mask c) (by decide) (by rw [show fieldImm Op.proc.mask = 0 by decide]; simp),
    by
      have := of_decide_eq_true h
      simp only [encode, Instr.op, Op.payloadLen, fieldLen, fieldImm_encodeWord, len_field this hP]⟩

theorem push (c : Ch) (xs : List F32) : Statement (.push c xs) := fun P hP h =>
  ⟨by simp [encode, Instr.op], rfl,
    mask_encodeWord .push _ _ _ (chn_mask c) (by decide) (by rw [show fieldImm Op.push.mask = 0 by decide]; simp),
    by
      have := of_decide_eq_true h
      simp only [encode, Instr.op, Op.payloadLen, fieldLen, fieldImm_encodeWord, len_field this hP]⟩

theorem rdc (p : Port) (c : Ch) (idx : SecIdx) : Statement (.rdc p c idx) := fun _ _ _ =>
  ⟨by simp [encode, Instr.op], rfl,
    mask_encodeWord .rdc _ _ _ (chn_mask c) (by rw [show fieldIdx Op.rdc.mask = 0 by decide]; simp) (by decide), rfl⟩

theorem pop (c : Ch) : Statement (.pop c) := fun _ _ _ =>
  ⟨by simp [encode, Instr.op], rfl, mask_encodeWord .pop _ _ _ (chn_mask c) (by decide) (by decide), rfl⟩

theorem feed (c : Ch) (xs : List F32) : Statement (.feed c xs) := fun P hP h =>
  ⟨by simp [encode, Instr.op], rfl,
    mask_encodeWord .feed _ _ _ (chn_mask c) (by decide) (by rw [show fieldImm Op.feed.mask = 0 by decide]; simp),
    by
      have := of_decide_eq_true h
      simp only [encode, Instr.op, Op.payloadLen, fieldLen, fieldImm_encodeWord, len_field this hP]⟩

theorem spec (c : Ch) : Statement (.spec c) := fun _ _ _ =>
  ⟨by simp [encode, Instr.op], rfl, mask_encodeWord .spec _ _ _ (chn_mask c) (by decide) (by decide), rfl⟩

theorem fpop (c : Ch) : Statement (.fpop c) := fun _ _ _ =>
  ⟨by simp [encode, Instr.op], rfl, mask_encodeWord .fpop _ _ _ (chn_mask c) (by decide) (by decide), rfl⟩

theorem rderr (p : Port) : Statement (.rderr p) := fun _ _ _ =>
  ⟨by simp [encode, Instr.op], rfl, mask_encodeWord .rderr 0 0 0 (by decide) (by decide) (by decide), rfl⟩

end Sys2Proof.Laws.Encodes
end

