-- ==== Sys2Proof/Laws/Ring.lean ====
section
/-! SUPPORT. The FIFO's index form against the queue of its unread units (10_state.md R27, 20_memory.md R56,
41_sample_fifo.md R128). -/

namespace Sys2Proof.Machine

/-- The producer's algorithm on a queue of at most `K` units (R128). -/
def queuePush (K : Nat) (q : List (List F32)) (v : List F32) : List (List F32) :=
  (if q.length = K then q.tail else q) ++ [v]

theorem ringNext_lt {K i : Nat} (hK : 1 ≤ K) : ringNext K i < 2 * K := Nat.mod_lt _ (by omega)

theorem ringNext_eq {K i : Nat} (h : i < 2 * K) : ringNext K i = if i + 1 = 2 * K then 0 else i + 1 := by
  unfold ringNext
  split
  · next e => rw [e, Nat.mod_self]
  · exact Nat.mod_eq_of_lt (by omega)

/-- `cnt` without the modulus (R27). -/
theorem Ring.cnt_eq {K : Nat} {f : Ring} (hw : f.wr < 2 * K) (hr : f.rd < 2 * K) :
    f.cnt K = if f.rd ≤ f.wr then f.wr - f.rd else f.wr + 2 * K - f.rd := by
  unfold Ring.cnt
  split
  · have : f.wr + (2 * K - f.rd) = (f.wr - f.rd) + 2 * K := by omega
    rw [this, Nat.add_mod_right, Nat.mod_eq_of_lt (by omega)]
  · rw [Nat.mod_eq_of_lt (by omega)]; omega

@[simp] theorem Ring.unread_length (K : Nat) (f : Ring) : (f.unread K).length = f.cnt K := by
  simp [Ring.unread]

/-- The FIFO is empty exactly when its indices are equal (R27). -/
theorem Ring.wr_eq_rd_iff {K : Nat} {f : Ring} (hw : f.wr < 2 * K) (hr : f.rd < 2 * K) :
    f.wr = f.rd ↔ f.cnt K = 0 := by
  rw [Ring.cnt_eq hw hr]; split <;> omega

theorem mod_two_mul (K x : Nat) : x % (2 * K) % K = x % K := Nat.mod_mod_of_dvd x ⟨2, by omega⟩

theorem ringNext_mod (K i : Nat) : ringNext K i % K = (i + 1) % K := mod_two_mul K (i + 1)

/-- Two positions less than `K` apart designate the same slot only if they are equal. -/
theorem slot_ne {K a b : Nat} (hab : a < b) (hb : b < a + K) : a % K ≠ b % K := by
  intro h
  have hK : 0 < K := by omega
  have ha := Nat.div_add_mod a K
  have hb' := Nat.div_add_mod b K
  rw [h] at ha
  have h1 : K * (b / K) - K * (a / K) = b - a := by omega
  rw [← Nat.mul_sub] at h1
  have h2 : b / K - a / K < 1 := Nat.lt_of_mul_lt_mul_left (a := K) (by omega)
  have h3 : b / K - a / K = 0 := by omega
  rw [h3] at h1
  omega

/-- A slot written is read back (R52, R56). -/
theorem Ring.slotRead_write_same {K : Nat} {f : Ring} (hs : f.slots.length = K) (hK : 1 ≤ K) (i j : Nat)
    (hij : j % K = i % K) (v : List F32) (w r : Nat) :
    Ring.slotRead K ⟨f.slotWrite K i v, w, r⟩ j = v := by
  have : i % K < f.slots.length := by rw [hs]; exact Nat.mod_lt _ (by omega)
  simp [Ring.slotRead, Ring.slotWrite, hij, this]

/-- A slot not written is left as it was (R52, R56). -/
theorem Ring.slotRead_write_ne {K : Nat} {f : Ring} (i j : Nat) (hij : j % K ≠ i % K) (v : List F32)
    (w r : Nat) : Ring.slotRead K ⟨f.slotWrite K i v, w, r⟩ j = f.slotRead K j := by
  simp [Ring.slotRead, Ring.slotWrite, Ne.symm hij]

/-- What the consumer's read does, once: the head of the queue comes out and the tail stays. -/
theorem Ring.pop_spec {K : Nat} {f : Ring} (hf : f.Wf K) :
    match f.pop K with
    | none => f.unread K = []
    | some (v, g) => g.Wf K ∧ f.unread K = v :: g.unread K := by
  have hc := Ring.cnt_eq hf.wr hf.rd
  unfold Ring.pop
  by_cases h : f.wr = f.rd
  · simp only [h, if_true]
    have : f.cnt K = 0 := (Ring.wr_eq_rd_iff hf.wr hf.rd).1 h
    simp [Ring.unread, this]
  · simp only [h, if_false]
    have hK : 1 ≤ K := by have := hf.rd; omega
    have hr : ringNext K f.rd < 2 * K := ringNext_lt hK
    have hg : Ring.cnt K { f with rd := ringNext K f.rd } = f.cnt K - 1 := by
      rw [Ring.cnt_eq (f := { f with rd := ringNext K f.rd }) hf.wr hr, hc]
      show (if ringNext K f.rd ≤ f.wr then f.wr - ringNext K f.rd else f.wr + 2 * K - ringNext K f.rd) = _
      rw [ringNext_eq hf.rd]
      have h1 := hf.wr
      have h2 := hf.rd
      split <;> split <;> split <;> omega
    have hpos : f.cnt K ≠ 0 := fun e => h ((Ring.wr_eq_rd_iff hf.wr hf.rd).2 e)
    refine ⟨⟨hf.slots, hf.wr, hr, by rw [hg]; have := hf.cnt; omega⟩, ?_⟩
    unfold Ring.unread
    rw [hg]
    obtain ⟨n, hn⟩ : ∃ n, f.cnt K = n + 1 := ⟨f.cnt K - 1, by omega⟩
    rw [hn, List.range_succ_eq_map, List.map_cons, List.map_map]
    simp only [Nat.add_sub_cancel, Nat.add_zero, List.cons.injEq, true_and]
    apply List.map_congr_left
    intro j _
    simp only [Function.comp, Ring.slotRead]
    congr 1
    rw [Nat.add_mod (ringNext K f.rd) j K, ringNext_mod, ← Nat.add_mod]
    congr 1
    simp only [Nat.succ_eq_add_one]
    omega

/-- The FIFO is non-empty exactly when the consumer gets something. -/
theorem Ring.pop_cons {K : Nat} {f : Ring} (hf : f.Wf K) {v : List F32} {q : List (List F32)}
    (h : f.unread K = v :: q) : ∃ g, f.pop K = some (v, g) ∧ g.Wf K ∧ g.unread K = q := by
  have := Ring.pop_spec hf
  cases hp : f.pop K with
  | none => rw [hp] at this; simp [h] at this
  | some x =>
    obtain ⟨w, g⟩ := x
    rw [hp] at this
    obtain ⟨hg, hu⟩ := this
    rw [h, List.cons.injEq] at hu
    exact ⟨g, by rw [hu.1], hg, hu.2.symm⟩

theorem Ring.pop_nil {K : Nat} {f : Ring} (hf : f.Wf K) (h : f.unread K = []) : f.pop K = none := by
  have hc : f.cnt K = 0 := by have := Ring.unread_length K f; rw [h] at this; simpa using this.symm
  simp [Ring.pop, (Ring.wr_eq_rd_iff hf.wr hf.rd).2 hc]

/-- What the producer's write does, once: the queue's push, and the FIFO stays well formed. -/
theorem Ring.push_spec {K : Nat} {f : Ring} (hK : 1 ≤ K) (hf : f.Wf K) (v : List F32) :
    (f.push K v).Wf K ∧ (f.push K v).unread K = queuePush K (f.unread K) v := by
  have hc := Ring.cnt_eq hf.wr hf.rd
  have hw1 := hf.wr
  have hr1 := hf.rd
  have hw : ringNext K f.wr < 2 * K := ringNext_lt hK
  have hr : (f.push K v).rd < 2 * K := by
    show (if f.cnt K = K then ringNext K f.rd else f.rd) < _
    split
    · exact ringNext_lt hK
    · exact hf.rd
  have hcnt : (f.push K v).cnt K = if f.cnt K = K then K else f.cnt K + 1 := by
    rw [Ring.cnt_eq (f := f.push K v) hw hr]
    show (if (if f.cnt K = K then ringNext K f.rd else f.rd) ≤ ringNext K f.wr
      then ringNext K f.wr - (if f.cnt K = K then ringNext K f.rd else f.rd)
      else ringNext K f.wr + 2 * K - (if f.cnt K = K then ringNext K f.rd else f.rd)) = _
    have hle := hf.cnt
    rw [ringNext_eq hf.wr, ringNext_eq hf.rd]
    generalize hcv : f.cnt K = cv at *
    split at hc <;> split <;> split <;> (try split) <;> (try split) <;> omega
  refine ⟨⟨by simp [Ring.push, Ring.slotWrite, hf.slots], hw, hr, by rw [hcnt]; split <;> have := hf.cnt <;> omega⟩, ?_⟩
  -- position `rd + cnt` designates the slot that is written
  have hpos : (f.rd + f.cnt K) % K = f.wr % K := by
    have : (f.rd + f.cnt K) % (2 * K) = f.wr % (2 * K) := by
      rw [hc]
      split
      · congr 1; omega
      · rw [show f.rd + (f.wr + 2 * K - f.rd) = f.wr + 2 * K by omega, Nat.add_mod_right]
    rw [← mod_two_mul K (f.rd + f.cnt K), this, mod_two_mul]
  have old : ∀ j, j < f.cnt K → 0 < j ∨ f.cnt K < K →
      Ring.slotRead K (f.push K v) (f.rd + j) = f.slotRead K (f.rd + j) := by
    intro j hj hor
    apply Ring.slotRead_write_ne
    rw [← hpos]
    exact slot_ne (by omega) (by have := hf.cnt; omega)
  have new : Ring.slotRead K (f.push K v) (f.rd + f.cnt K) = v :=
    Ring.slotRead_write_same hf.slots hK f.wr _ hpos v _ _
  by_cases hfull : f.cnt K = K
  · obtain ⟨n, rfl⟩ : ∃ n, K = n + 1 := ⟨K - 1, by omega⟩
    have hrd : (f.push (n + 1) v).rd = ringNext (n + 1) f.rd := by simp [Ring.push, hfull]
    have shift : ∀ j, Ring.slotRead (n + 1) (f.push (n + 1) v) ((f.push (n + 1) v).rd + j) =
        Ring.slotRead (n + 1) (f.push (n + 1) v) (f.rd + (j + 1)) := by
      intro j
      unfold Ring.slotRead
      congr 1
      rw [hrd, Nat.add_mod (ringNext (n + 1) f.rd) j, ringNext_mod, ← Nat.add_mod]
      congr 1; omega
    simp only [queuePush, Ring.unread_length, hfull, if_true]
    unfold Ring.unread
    rw [hcnt, if_pos hfull, hfull]
    rw [List.range_succ, List.map_append, List.map_cons, List.map_nil]
    congr 1
    · rw [← List.range_succ, List.range_succ_eq_map, List.map_cons, List.tail_cons, List.map_map]
      apply List.map_congr_left
      intro j hj
      rw [shift]
      exact old (j + 1) (by have := List.mem_range.1 hj; omega) (.inl (by omega))
    · rw [hfull] at new
      rw [shift, new]
  · have hrd : (f.push K v).rd = f.rd := by simp [Ring.push, hfull]
    simp only [queuePush, Ring.unread_length, hfull, if_false]
    unfold Ring.unread
    rw [hcnt, if_neg hfull, hrd, List.range_succ, List.map_append, List.map_cons, List.map_nil, new]
    congr 1
    apply List.map_congr_left
    intro j hj
    exact old j (List.mem_range.1 hj) (.inr (by have := hf.cnt; omega))

theorem Ring.reset_wf {K : Nat} (hK : 1 ≤ K) (b : List F32) : (Ring.reset K b).Wf K := by
  refine ⟨by simp [Ring.reset], by simp [Ring.reset]; omega, by simp [Ring.reset]; omega, ?_⟩
  simp [Ring.cnt, Ring.reset]

theorem Ring.reset_unread (K : Nat) (b : List F32) : (Ring.reset K b).unread K = [] := by
  simp [Ring.unread, Ring.cnt, Ring.reset]

/-- Every unit of a pushed queue was in it or is the new one. -/
theorem mem_queuePush {K : Nat} {q : List (List F32)} {v b : List F32} (h : b ∈ queuePush K q v) :
    b ∈ q ∨ b = v := by
  unfold queuePush at h
  rcases List.mem_append.1 h with h | h
  · split at h
    · exact .inl (List.mem_of_mem_tail h)
    · exact .inl h
  · exact .inr (List.mem_singleton.1 h)

end Sys2Proof.Machine
end

