-- ==== Sys2Proof/Laws/Spectrum.lean ====
section
/-! SUPPORT. The frame of a rolling buffer entry by entry (42_spectrum.md R137 to R141). -/

namespace Sys2Proof.Machine

variable {P : Params} (hP : P.Valid) (roll : List F32)

/-- A block built with the default arithmetic (R62). -/
theorem NUM_of_ieee754 (h : P.num = .ieee754) : P.NUM = Config.ieee754 := by rw [Params.NUM, h]; rfl

@[simp] theorem windowed_length : (windowed P roll).length = P.fftSize := by simp [windowed]

@[simp] theorem frameOf_length : (frameOf P roll).length = P.nbin := by simp [frameOf]

/-- One entry of a frame (R137). -/
theorem frameOf_getElem? {k : Nat} (hk : k < P.nbin) :
    (frameOf P roll)[k]? = some (decibel P (normalise P (Config.specNaN roll (P.fftSize + k))
      ((P.NUM.fftmag.f (windowed P roll)).getD k F32.posZero))) := by
  simp [frameOf, hk]

/-- A normalised magnitude is finite (R140). -/
theorem normalise_finite (d : NaNBits) (m : F32) : F32.isFinite (normalise P d m) = true := by
  simp only [normalise]
  split
  · assumption
  · decide

include hP in
/-- A decibel value of a finite magnitude is finite and not below the floor (R141, `DB20_FINITE`). -/
theorem decibel_spec {m : F32} (h : F32.isFinite m = true) :
    F32.isFinite (decibel P m) = true ∧ F32.units P.floorDb ≤ F32.units (decibel P m) := by
  unfold decibel
  split
  · next hg => exact F32.fmax_spec _ _ hP.floor_finite (P.NUM.db20.finite m h hg)
  · exact ⟨hP.floor_finite, Int.le_refl _⟩

include hP in
theorem frameOf_good : frameGood P (frameOf P roll) := by
  refine ⟨frameOf_length roll, fun x hx => ?_⟩
  obtain ⟨k, _, rfl⟩ := List.mem_map.1 hx
  exact decibel_spec hP (normalise_finite _ _)

/-- A magnitude that is no number above zero gives the floor (R141). -/
theorem decibel_floor {m : F32} (h : F32.gtZero m = false) : decibel P m = P.floorDb := by
  simp [decibel, h]

include hP in
theorem nbin_pos : 4 ≤ P.nbin := by
  have := hP.fft_ge
  unfold Params.nbin; omega

include hP in
theorem nbin_le : P.nbin ≤ 32768 := by
  have := hP.fft_le
  unfold Params.nbin; omega

/-- The buffer keeps its size under a block that fits (R28, R136). -/
theorem feedRoll_length {xs : List F32} (h : xs.length ≤ roll.length) : (feedRoll roll xs).length = roll.length := by
  simp [feedRoll]; omega

/-- Feeding is dropping from the front of what was there with the block appended (R136). -/
theorem feedRoll_eq {xs : List F32} (h : xs.length ≤ roll.length) :
    feedRoll roll xs = (roll ++ xs).drop xs.length := by
  rw [feedRoll, List.drop_append_of_le_length h]

end Sys2Proof.Machine
end

