-- ==== Sys2Proof/Laws/Exec.lean ====
section
/-! SUPPORT. What a step can do, once: one inversion lemma for the choice of the next event, one for the step,
and one for a command's effect on the parts it does not own. -/

namespace Sys2Proof.Machine

/-! `POP` and `FPOP` by what the FIFO gives (R122, R145). -/

theorem execPop_none {c : Ch} {s : State} (h : (s.chan c).sf.pop s.par.cap = none) :
    execPop c s = .next (s.respond .an Op.pop.code .noData []) := by
  simp only [execPop, h]

theorem execPop_some {c : Ch} {s : State} {b : List F32} {f : Ring}
    (h : (s.chan c).sf.pop s.par.cap = some (b, f)) :
    execPop c s = .next ((s.setChan c { s.chan c with sf := f }).respond .an Op.pop.code .ok b) := by
  simp only [execPop, h]

theorem execFpop_none {c : Ch} {s : State} (h : (s.chan c).ff.pop s.par.frameCap = none) :
    execFpop c s = .next (s.respond .an Op.fpop.code .noData []) := by
  simp only [execFpop, h]

theorem execFpop_some {c : Ch} {s : State} {b : List F32} {f : Ring}
    (h : (s.chan c).ff.pop s.par.frameCap = some (b, f)) :
    execFpop c s = .next ((s.setChan c { s.chan c with ff := f }).respond .an Op.fpop.code .ok b) := by
  simp only [execFpop, h]

/-- Every command answers a next state, in which its port has one more response and the streams, the schedule,
the error registers and the parameters are as before. -/
theorem exec_answers (i : Instr) (s : State) :
    ∃ t st ws, exec i s = .next t ∧ s.Answers t i.port (response i.op.code st ws) ∧ (st = .ok ∨ st = .noData) := by
  cases i with
  | nop p => exact ⟨_, .ok, [], rfl, answers_respond .., .inl rfl⟩
  | upd chm idx k => exact ⟨_, .ok, [], rfl, answers_of_same _ _ _ _ rfl rfl (by simp), .inl rfl⟩
  | byp chm idx b => exact ⟨_, .ok, [], rfl, answers_of_same _ _ _ _ rfl rfl (by simp), .inl rfl⟩
  | proc c xs => exact ⟨_, .ok, _, rfl, answers_of_same _ _ _ _ (by simp) (by simp) (by simp), .inl rfl⟩
  | push c xs => exact ⟨_, .ok, _, rfl, answers_of_same _ _ _ _ (by simp) (by simp) (by simp), .inl rfl⟩
  | rdc p c idx => exact ⟨_, .ok, _, rfl, answers_respond .., .inl rfl⟩
  | pop c =>
    cases h : (s.chan c).sf.pop s.par.cap with
    | none => exact ⟨_, .noData, [], execPop_none h, answers_respond .., .inr rfl⟩
    | some x => exact ⟨_, .ok, x.1, execPop_some h, answers_of_same _ _ _ _ (by simp) (by simp) (by simp), .inl rfl⟩
  | feed c xs => exact ⟨_, .ok, _, rfl, answers_of_same _ _ _ _ (by simp) (by simp) (by simp), .inl rfl⟩
  | spec c => exact ⟨_, .ok, _, rfl, answers_of_same _ _ _ _ (by simp) (by simp) (by simp), .inl rfl⟩
  | fpop c =>
    cases h : (s.chan c).ff.pop s.par.frameCap with
    | none => exact ⟨_, .noData, [], execFpop_none h, answers_respond .., .inr rfl⟩
    | some x => exact ⟨_, .ok, x.1, execFpop_some h, answers_of_same _ _ _ _ (by simp) (by simp) (by simp), .inl rfl⟩
  | rderr p => exact ⟨_, .ok, _, rfl, answers_respond .., .inl rfl⟩

/-- What `fetch` can give (R57). -/
theorem fetch_cases (s : State) :
    (s.sched = [] ∧ fetch s = .idle s) ∨
    (∃ rest, s.sched = .reset :: rest ∧ fetch s = .reset { s with sched := rest }) ∨
    (∃ p rest, s.sched = .port p :: rest ∧ (s.port p).pending = [] ∧ fetch s = .idle { s with sched := rest }) ∨
    (∃ p rest pk more, s.sched = .port p :: rest ∧ (s.port p).pending = pk :: more ∧
      fetch s = .packet p pk (s.took p rest more)) := by
  unfold fetch
  cases h : s.sched with
  | nil => exact .inl ⟨rfl, rfl⟩
  | cons e rest =>
    cases e with
    | reset => exact .inr (.inl ⟨rest, rfl, rfl⟩)
    | port p =>
      cases hp : (s.port p).pending with
      | nil => exact .inr (.inr (.inl ⟨p, rest, rfl, hp, by simp [hp]⟩))
      | cons pk more => exact .inr (.inr (.inr ⟨p, rest, pk, more, rfl, hp, by simp [hp, State.took]⟩))

variable (s : State) (p : Port) (rest : List Event) (more : List Packet)

@[simp] theorem par_took : (s.took p rest more).par = s.par := by cases p <;> rfl
@[simp] theorem sched_took : (s.took p rest more).sched = rest := by cases p <;> rfl
@[simp] theorem chan_took (c : Ch) : (s.took p rest more).chan c = s.chan c := by cases p <;> cases c <;> rfl
@[simp] theorem err_took (q : Port) : ((s.took p rest more).port q).err = (s.port q).err := by
  cases p <;> cases q <;> rfl
@[simp] theorem responses_took (q : Port) : ((s.took p rest more).port q).responses = (s.port q).responses := by
  cases p <;> cases q <;> rfl
@[simp] theorem pending_took : ((s.took p rest more).port p).pending = more := by cases p <;> rfl
@[simp] theorem port_took_other : (s.took p rest more).port (otherPort p) = s.port (otherPort p) := by
  cases p <;> rfl

/-- What a step can do (R57, R192, R200, R215): wait, reset, pass over an agent with no packet, execute the next
packet of a port, or refuse it. -/
theorem step_cases (s : State) :
    (s.sched = [] ∧ step s = .next s) ∨
    (∃ rest, s.sched = .reset :: rest ∧ step s = .next (State.onReset { s with sched := rest })) ∨
    (∃ p rest, s.sched = .port p :: rest ∧ (s.port p).pending = [] ∧ step s = .next { s with sched := rest }) ∨
    (∃ p rest pk more i, s.sched = .port p :: rest ∧ (s.port p).pending = pk :: more ∧
      decode s.par p pk = .ok i ∧ step s = exec i (s.took p rest more)) ∨
    (∃ p rest pk more e, s.sched = .port p :: rest ∧ (s.port p).pending = pk :: more ∧
      decode s.par p pk = .error e ∧ step s = .next ((s.took p rest more).refuse p pk.word e)) := by
  rcases fetch_cases s with ⟨h, hf⟩ | ⟨r, h, hf⟩ | ⟨q, r, h, hp, hf⟩ | ⟨q, r, pk, m, h, hp, hf⟩
  · exact .inl ⟨h, by simp [step, hf]⟩
  · exact .inr (.inl ⟨r, h, by simp [step, hf]⟩)
  · exact .inr (.inr (.inl ⟨q, r, h, hp, by simp [step, hf]⟩))
  · cases hd : decode s.par q pk with
    | ok i => exact .inr (.inr (.inr (.inl ⟨q, r, pk, m, i, h, hp, hd, by simp [step, hf, hd]⟩)))
    | error e => exact .inr (.inr (.inr (.inr ⟨q, r, pk, m, e, h, hp, hd, by simp [step, hf, hd]⟩)))

/-- A packet whose decoding is known is executed. -/
theorem step_ok {s : State} {p : Port} {rest : List Event} {pk : Packet} {more : List Packet} {i : Instr}
    (h : s.sched = .port p :: rest) (hp : (s.port p).pending = pk :: more) (hd : decode s.par p pk = .ok i) :
    step s = exec i (s.took p rest more) := by
  simp [step, fetch, h, hp, State.took, hd]

/-- A packet whose rejection is known is refused. -/
theorem step_error {s : State} {p : Port} {rest : List Event} {pk : Packet} {more : List Packet} {e : CmdError}
    (h : s.sched = .port p :: rest) (hp : (s.port p).pending = pk :: more) (hd : decode s.par p pk = .error e) :
    step s = .next ((s.took p rest more).refuse p pk.word e) := by
  simp [step, fetch, h, hp, State.took, hd]

/-- The command a packet decodes to is sent on that port, has the packet's opcode, and its block, if it has
one, fits (R84). -/
theorem decode_ok {P : Params} {p : Port} {pk : Packet} {i : Instr} (h : decode P p pk = .ok i) :
    ∃ op, fieldOpc pk.word = op.code ∧ op.permits p = true ∧ pk.word &&& op.mask = op.pattern ∧
      ¬ (op.format.hasMask = true ∧ fieldCh pk.word = 0) ∧
      ¬ (op.format.hasIdx = true ∧ 9 < (fieldIdx pk.word).toNat) ∧
      ¬ (op.format.hasLen = true ∧ P.blockMax < fieldLen pk.word) ∧
      pk.payload.length = op.payloadLen pk.word ∧ i = assemble op p pk := by
  unfold decode at h
  split at h
  · cases h
  · next op hop =>
    refine ⟨op, code_of_ofCode hop, ?_⟩
    split at h
    · cases h
    split at h
    · cases h
    split at h
    · cases h
    split at h
    · cases h
    split at h
    · cases h
    split at h
    · cases h
    · next h1 h2 h3 h4 h5 h6 =>
      exact ⟨by simpa using h1, by simpa using h2, h3, h4, h5, by simpa using h6,
        by injection h with h; exact h.symm⟩

/-! What an executed command must be, and how long its answer is. -/

/-- Operand assembly keeps the opcode. -/
theorem assemble_op (op : Op) (p : Port) (pk : Packet) : (assemble op p pk).op = op := by cases op <;> rfl

/-- What decodes is sent on that port, is well formed, and has the packet's opcode (R84). -/
theorem decode_wf {P : Params} {p : Port} {pk : Packet} {i : Instr} (h : decode P p pk = .ok i) :
    i.port = p ∧ i.wellFormed P = true ∧ fieldOpc pk.word = i.op.code := by
  obtain ⟨op, h1, h2, _, h4, _, h6, h7, rfl⟩ := decode_ok h
  refine ⟨?_, ?_, by rw [assemble_op]; exact h1⟩
  · cases op <;> cases p <;> first | rfl | exact absurd h2 (by decide)
  · cases op <;> simp_all [assemble, Instr.wellFormed, Op.format, Format.hasMask, Format.hasLen, Op.payloadLen]

/-- Every frame that can be read is a whole frame (R148). -/
theorem frames_len {P : Params} {g : Channel} (hg : g.Wf P) : ∀ F ∈ g.ff.unread P.frameCap, F.length = P.nbin :=
  fun F hF => (hg.frames F hF).1

/-- A command's answer fits the 16-bit count of the response word (R76). -/
theorem exec_answers_fit (i : Instr) (s : State) (hi : s.Inv) (hw : i.wellFormed s.par = true) :
    ∃ t st ws, exec i s = .next t ∧ s.Answers t i.port (response i.op.code st ws) ∧ (st = .ok ∨ st = .noData) ∧
      ws.length ≤ 65535 := by
  obtain ⟨hP, hC, hE⟩ := (inv_iff s).1 hi
  have hb := hP.blockMax_le
  cases i with
  | nop p => exact ⟨_, .ok, [], rfl, answers_respond .., .inl rfl, by simp⟩
  | upd chm idx k => exact ⟨_, .ok, [], rfl, answers_of_same _ _ _ _ rfl rfl (by simp), .inl rfl, by simp⟩
  | byp chm idx b => exact ⟨_, .ok, [], rfl, answers_of_same _ _ _ _ rfl rfl (by simp), .inl rfl, by simp⟩
  | proc c xs =>
    have := of_decide_eq_true hw
    exact ⟨_, .ok, _, rfl, answers_of_same _ _ _ _ (by simp) (by simp) (by simp), .inl rfl, by simp; omega⟩
  | push c xs => exact ⟨_, .ok, _, rfl, answers_of_same _ _ _ _ (by simp) (by simp) (by simp), .inl rfl, by simp⟩
  | rdc p c idx => exact ⟨_, .ok, _, rfl, answers_respond .., .inl rfl, by simp [wordsOf]⟩
  | pop c =>
    have hsp := Ring.pop_spec (hC c).sf
    cases h : (s.chan c).sf.pop s.par.cap with
    | none => exact ⟨_, .noData, [], execPop_none h, answers_respond .., .inr rfl, by simp⟩
    | some x =>
      rw [h] at hsp
      have := (hC c).blocks x.1 (by rw [hsp.2]; simp)
      exact ⟨_, .ok, x.1, execPop_some h, answers_of_same _ _ _ _ (by simp) (by simp) (by simp), .inl rfl, by omega⟩
  | feed c xs => exact ⟨_, .ok, _, rfl, answers_of_same _ _ _ _ (by simp) (by simp) (by simp), .inl rfl, by simp⟩
  | spec c => exact ⟨_, .ok, _, rfl, answers_of_same _ _ _ _ (by simp) (by simp) (by simp), .inl rfl, by simp⟩
  | fpop c =>
    have hsp := Ring.pop_spec (hC c).ff
    cases h : (s.chan c).ff.pop s.par.frameCap with
    | none => exact ⟨_, .noData, [], execFpop_none h, answers_respond .., .inr rfl, by simp⟩
    | some x =>
      rw [h] at hsp
      have := frames_len (hC c) x.1 (by rw [hsp.2]; simp)
      have := nbin_le hP
      exact ⟨_, .ok, x.1, execFpop_some h, answers_of_same _ _ _ _ (by simp) (by simp) (by simp), .inl rfl, by omega⟩
  | rderr p => exact ⟨_, .ok, _, rfl, answers_respond .., .inl rfl, by simp⟩

/-- The fields of a response word (R76). -/
theorem responseWord_fields (o st : BitVec 4) (n : BitVec 16) :
    (o ++ st ++ 0x00#8 ++ n).extractLsb' 28 4 = o ∧ (o ++ st ++ 0x00#8 ++ n).extractLsb' 24 4 = st ∧
    (o ++ st ++ 0x00#8 ++ n).extractLsb' 16 8 = 0#8 ∧ (o ++ st ++ 0x00#8 ++ n).extractLsb' 0 16 = n := by
  refine ⟨?_, ?_, ?_, ?_⟩ <;> apply BitVec.eq_of_getLsbD_eq <;> intro i hi <;>
    simp only [BitVec.getLsbD_extractLsb', BitVec.getLsbD_append]
  · rw [if_neg (by omega), if_neg (by omega), if_neg (by omega)]
    simp [hi, show 28 + i - 16 - 8 - 4 = i by omega]
  · rw [if_neg (by omega), if_neg (by omega), if_pos (by omega)]
    simp [hi, show 24 + i - 16 - 8 = i by omega]
  · rw [if_neg (by omega), if_pos (by omega)]
    simp
  · rw [if_pos (by omega)]
    simp [hi]

/-- Taking a packet keeps the invariants. -/
theorem inv_took {s : State} (p rest more) (h : s.Inv) : (s.took p rest more).Inv := by
  rw [inv_iff] at *; simpa using h

/-- A channel after reset is well formed (R34, R35). -/
theorem wf_reset (P : Params) (hP : P.Valid) (d : Nat) : (Channel.reset P d).Wf P :=
  ⟨Ring.reset_wf hP.cap_pos _, by simp [Channel.reset, Ring.reset_unread], by simp [Channel.reset],
    Ring.reset_wf hP.frame_pos _, by simp [Channel.reset, Ring.reset_unread]⟩

/-- The invariants of a state whose parameters and error registers are as before. -/
theorem inv_of {s t : State} (hs : s.Inv) (hp : t.par = s.par) (hc : ∀ c, (t.chan c).Wf s.par)
    (he : ∀ p, (t.port p).err = (s.port p).err) : t.Inv := by
  rw [inv_iff] at *
  rw [hp]
  exact ⟨hs.1, hc, fun p => by rw [he]; exact hs.2.2 p⟩

/-- The newest response after answering (R76). -/
theorem lastResponse_respond (s : State) (p : Port) (o : BitVec 4) (st : Status) (ws : List Word) :
    (s.respond p o st ws).lastResponse p = some (response o st ws) := by
  rw [State.lastResponse, responses_respond, List.getLast?_append]; rfl

/-- `POP` on a FIFO that is not empty (R122). -/
theorem exec_pop_cons {s : State} {c : Ch} (hi : (s.chan c).sf.Wf s.par.cap) {b q} (h : (s.chan c).sf.unread s.par.cap = b :: q) :
    ∃ g : Machine.Ring, exec (.pop c) s = .next ((s.setChan c { s.chan c with sf := g }).respond .an Op.pop.code .ok b) ∧ g.Wf s.par.cap ∧ g.unread s.par.cap = q := by
  obtain ⟨g, h1, h2, h3⟩ := Ring.pop_cons hi h
  exact ⟨g, execPop_some h1, h2, h3⟩

/-- `PUSH` on a well-formed FIFO (R121). -/
theorem exec_push_queue {s : State} {c : Ch} (b : List F32) (hP : s.par.Valid) (hi : (s.chan c).sf.Wf s.par.cap) :
    ∃ g : Machine.Ring, exec (.push c b) s = .next ((s.setChan c { s.chan c with sf := g }).respond .rt Op.push.code .ok []) ∧ g.Wf s.par.cap ∧ g.unread s.par.cap = queuePush s.par.cap ((s.chan c).sf.unread s.par.cap) b := by
  obtain ⟨h1, h2⟩ := Ring.push_spec hP.cap_pos hi b
  exact ⟨_, rfl, h1, h2⟩

end Sys2Proof.Machine
end

