-- ==== Sys2Proof/Laws/Order.lean ====
section
/-! SUPPORT. What the order of two ports' commands does not change (60_exceptions.md R196): a command does not see the
schedule, nor the other port's stream and error register, and `PUSH` and `POP` of one FIFO that is neither empty nor
full commute. -/

namespace Sys2Proof.Machine

/-- A change made to the next state, if there is one. -/
def mapNext (f : State → State) : Host.Outcome State Fault Refusal → Host.Outcome State Fault Refusal
  | .next s => .next (f s)
  | .fault r => .fault r
  | .refused r => .refused r

/-- On a FIFO that is neither empty nor full the two ends do not meet (R196). -/
theorem Ring.push_pop_comm {K : Nat} {f : Ring} (hf : f.Wf K) (h0 : f.cnt K ≠ 0) (h1 : f.cnt K ≠ K) (v : List F32) :
    (f.push K v).pop K = (f.pop K).map fun x => (x.1, x.2.push K v) := by
  have hw := hf.wr
  have hr := hf.rd
  have hc := hf.cnt
  have hps := Ring.push_spec (by omega) hf v
  have hq : queuePush K (f.unread K) v = f.unread K ++ [v] := by simp [queuePush, h1]
  obtain ⟨b, q, hbq⟩ : ∃ b q, f.unread K = b :: q := by
    cases h : f.unread K with
    | nil => have := Ring.unread_length K f; rw [h] at this; simp at this; omega
    | cons b q => exact ⟨b, q, rfl⟩
  have h3 := hps.2; rw [hq, hbq] at h3
  obtain ⟨g, hg, _, _⟩ := Ring.pop_cons hf hbq
  obtain ⟨g', hg', _, _⟩ := Ring.pop_cons hps.1 (v := b) (q := q ++ [v]) (by rw [h3]; rfl)
  rw [hg, hg']
  simp only [Option.map_some, Option.some.injEq, Prod.mk.injEq, true_and]
  have e1 : g = { f with rd := ringNext K f.rd } := by
    unfold Ring.pop at hg; split at hg
    · cases hg
    · cases hg; rfl
  have e2 : g' = { f.push K v with rd := ringNext K (f.push K v).rd } := by
    unfold Ring.pop at hg'; split at hg'
    · cases hg'
    · cases hg'; rfl
  have hc2 : Ring.cnt K g = f.cnt K - 1 := by
    have := congrArg List.length ‹Ring.unread K g = q›
    have h5 := congrArg List.length hbq
    simp at this h5; omega
  rw [e2]
  unfold Ring.push
  rw [hc2, if_neg h1, if_neg (by omega), e1]
  rfl

/-- A command does not see the schedule or the other port's stream. -/
theorem exec_took_other (i : Instr) (s : State) (rest : List Event) (more : List Packet) :
    exec i (s.took (otherPort i.port) rest more) = mapNext (fun t => t.took (otherPort i.port) rest more) (exec i s) := by
  obtain ⟨par, ch0, ch1, rt, an, sched⟩ := s
  cases i with
  | nop p => cases p <;> rfl
  | upd => rfl
  | byp => rfl
  | proc c => cases c <;> rfl
  | push c => cases c <;> rfl
  | rdc p c => cases p <;> cases c <;> rfl
  | pop c => cases c <;> simp only [exec, execPop, Instr.port, otherPort, State.took, State.setPort, State.chan, State.port, mapNext] <;> split <;> simp_all <;> rfl
  | feed c => cases c <;> rfl
  | spec c => cases c <;> rfl
  | fpop c => cases c <;> simp only [exec, execFpop, Instr.port, otherPort, State.took, State.setPort, State.chan, State.port, mapNext] <;> split <;> simp_all <;> rfl
  | rderr p => cases p <;> rfl

/-- A command does not see the other port's refusal. -/
theorem exec_refuse_other (i : Instr) (s : State) (w) (e) :
    exec i (s.refuse (otherPort i.port) w e) = mapNext (fun t => t.refuse (otherPort i.port) w e) (exec i s) := by
  obtain ⟨par, ch0, ch1, rt, an, sched⟩ := s
  cases i with
  | nop p => cases p <;> rfl
  | upd => rfl
  | byp => rfl
  | proc c => cases c <;> rfl
  | push c => cases c <;> rfl
  | rdc p c => cases p <;> cases c <;> rfl
  | pop c => cases c <;> simp only [exec, execPop, Instr.port, otherPort, State.refuse, State.respond, State.setPort, State.setChan, State.chan, State.port, mapNext] <;> split <;> rfl
  | feed c => cases c <;> rfl
  | spec c => cases c <;> rfl
  | fpop c => cases c <;> simp only [exec, execFpop, Instr.port, otherPort, State.refuse, State.respond, State.setPort, State.setChan, State.chan, State.port, mapNext] <;> split <;> rfl
  | rderr p => cases p <;> rfl

end Sys2Proof.Machine
end

