-- ==== Sys2Proof/Laws/Rounding.lean ====
section
/-! SUPPORT. Rounding to binary32 against exact values (20_memory.md R62). -/

namespace Sys2Proof.F32

/-- The rounded quotient is a nearest integer to the exact one, the even one on a tie (R62). -/
theorem roundEven_near (num D : Nat) (hD : 0 < D) (k : Nat) :
    ((num : Int) - roundEven num D * D).natAbs ≤ ((num : Int) - k * D).natAbs ∧
    (((num : Int) - roundEven num D * D).natAbs = ((num : Int) - k * D).natAbs → k = roundEven num D ∨ roundEven num D % 2 = 0) := by
  have hm := Nat.mod_lt num hD
  have hdm := Nat.div_add_mod num D
  set q := num / D with hq
  set r := num % D with hr
  have e : (num : Int) = D * q + r := by exact_mod_cast hdm.symm
  -- k - q
  have key : ∀ j : Int, j = (k : Int) - q → ((num : Int) - k * D) = r - j * D := by
    intro j hj; rw [e, hj]; ring
  obtain ⟨j, hj⟩ : ∃ j : Int, j = (k : Int) - q := ⟨_, rfl⟩
  rw [key j hj]
  have hjD : j ≤ -1 ∨ j = 0 ∨ j = 1 ∨ 2 ≤ j := by omega
  have hcase : (roundEven num D = q + 1 ∧ (D < 2 * r ∨ (2 * r = D ∧ q % 2 = 1))) ∨ (roundEven num D = q ∧ (2 * r < D ∨ (2 * r = D ∧ q % 2 = 0))) := by
    unfold roundEven
    rw [← hq, ← hr]
    split
    · left; exact ⟨rfl, by omega⟩
    · right; refine ⟨rfl, by omega⟩
  have hD' : (0 : Int) < D := by exact_mod_cast hD
  have b1 : j ≤ -1 → j * D ≤ -D := fun h => by nlinarith
  have b2 : 2 ≤ j → 2 * (D : Int) ≤ j * D := fun h => by nlinarith
  rcases hcase with ⟨he, hc⟩ | ⟨he, hc⟩ <;> rw [he]
  · have e2 : (num : Int) - ((q + 1 : Nat) : Int) * D = r - D := by rw [e]; push_cast; ring
    rw [e2]
    rcases hjD with h | h | h | h
    · have := b1 h; generalize j * (D : Int) = z at *; omega
    · subst h; simp; omega
    · subst h; simp; left; omega
    · have := b2 h; generalize j * (D : Int) = z at *; omega
  · have e2 : (num : Int) - ((q : Nat) : Int) * D = r := by rw [e]; ring
    rw [e2]
    rcases hjD with h | h | h | h
    · have := b1 h; generalize j * (D : Int) = z at *; omega
    · subst h; simp; left; omega
    · subst h; simp; omega
    · have := b2 h; generalize j * (D : Int) = z at *; omega

/-- The pattern the rounding builds has the rounded magnitude, and its fraction's parity (R12). -/
theorem mag_ofParts_round (neg : Bool) (s r : Nat) (hr : r ≤ 2 ^ 24) (hs : s = 0 ∨ 2 ^ 23 ≤ r) (hlt : s * 2 ^ 23 + r < 255 * 2 ^ 23) :
    mag (ofParts neg (s * 2 ^ 23 + r)) = r * 2 ^ s ∧ frac (ofParts neg (s * 2 ^ 23 + r)) % 2 = r % 2 := by
  have hl : s * 2 ^ 23 + r < 2 ^ 31 := by omega
  unfold mag
  rw [expo_ofParts hl, frac_ofParts hl]
  refine ⟨?_, by omega⟩
  by_cases h1 : r < 2 ^ 23
  · have : s = 0 := by omega
    subst this
    rw [if_pos (by omega)]; simp; omega
  · by_cases h2 : r = 2 ^ 24
    · subst h2
      rw [show (s * 2 ^ 23 + 2 ^ 24) / 2 ^ 23 = s + 2 by omega, if_neg (by omega), show (s * 2 ^ 23 + 2 ^ 24) % 2 ^ 23 = 0 by omega]
      rw [show s + 2 - 1 = s + 1 by omega, pow_succ]; ring
    · rw [show (s * 2 ^ 23 + r) / 2 ^ 23 = s + 1 by omega, if_neg (by omega)]
      rw [show 2 ^ 23 + (s * 2 ^ 23 + r) % 2 ^ 23 = r by omega]; simp

/-- A finite magnitude is 24 bits times a power of two (R12). -/
theorem mag_form (c : F32) : ∃ M k, mag c = M * 2 ^ k ∧ M < 2 ^ 24 := by
  have hf : frac c < 2 ^ 23 := by unfold frac; omega
  unfold mag
  split
  · exact ⟨frac c, 0, by simp, by omega⟩
  · exact ⟨_, _, rfl, by omega⟩

/-- A shift that is not zero leaves 24 significant bits. -/
theorem shift_low {num den : Nat} (hs : shiftFor num den ≠ 0) : 2 ^ 23 ≤ num / (den * 2 ^ shiftFor num den) := by
  rw [← Nat.div_div_eq_div_mul]
  rw [Nat.le_div_iff_mul_le (by positivity), ← pow_add]
  unfold shiftFor at *
  have h0 : num / den ≠ 0 := by intro h; rw [h] at hs; simp at hs
  rw [show 23 + ((num / den).log2 - 23) = (num / den).log2 by omega]
  exact Nat.log2_self_le h0

theorem half_up_above {E num rm : Nat} (h : 2 * E * (2 ^ 24 - 1) + rm = num) (h2 : 2 * E ≤ 2 * rm) : (2 ^ 25 - 1) * E ≤ num := by omega
theorem top_quotient {E num : Nat} (h : (2 ^ 25 - 1) * E ≤ num) : (2 ^ 24 - 1) * (2 * E) ≤ num := by omega
theorem half_of_above {E num rm : Nat} (h : 2 * E * (2 ^ 24 - 1) + rm = num) (h' : (2 ^ 25 - 1) * E ≤ num) : 2 * E ≤ 2 * rm := by omega
/-- What rounding a magnitude does, once (R62): a finite result is a nearest binary32 magnitude, the even one on a
tie; the result is not finite exactly when the exact magnitude lies at least half a last place beyond the largest
finite one, and it is then an infinity. -/
theorem round_near (neg : Bool) (num den : Nat) (hden : 0 < den) :
    (isFinite (round neg num den) = true → ∀ c, isFinite c = true →
      ((num : Int) - mag (round neg num den) * den).natAbs ≤ ((num : Int) - mag c * den).natAbs ∧
      (((num : Int) - mag (round neg num den) * den).natAbs = ((num : Int) - mag c * den).natAbs →
        mag c = mag (round neg num den) ∨ frac (round neg num den) % 2 = 0)) ∧
    (isFinite (round neg num den) = false ↔ (2 ^ 25 - 1) * 2 ^ 252 * den ≤ num) ∧
    (isFinite (round neg num den) = false → isInf (round neg num den) = true) := by
  set s := shiftFor num den with hs
  set D := den * 2 ^ s with hD
  have hDpos : 0 < D := by positivity
  set r := roundEven num D with hr
  have hr1 := le_roundEven num D
  have hr2 := roundEven_le num D
  have hlt := div_shift_lt num den
  rw [← hs, ← hD] at hlt
  have hr24 : r ≤ 2 ^ 24 := by omega
  have hlow : s ≠ 0 → 2 ^ 23 ≤ num / D := fun h => shift_low h
  have hM : roundMag num den = min (255 * 2 ^ 23) (s * 2 ^ 23 + r) := rfl
  have hfin : isFinite (round neg num den) = true ↔ s * 2 ^ 23 + r < 255 * 2 ^ 23 := by
    unfold isFinite round
    rw [expo_ofParts (roundMag_lt num den), hM]
    simp; omega
  refine ⟨fun hf c hc => ?_, ?_, ?_⟩
  · have hl := hfin.1 hf
    have hround : round neg num den = ofParts neg (s * 2 ^ 23 + r) := by
      unfold round; rw [hM, min_eq_right (by omega)]
    obtain ⟨m1, m2⟩ := mag_ofParts_round neg s r hr24 (by by_cases h : s = 0; exact .inl h; right; have := hlow h; omega) hl
    rw [hround, m1, m2]
    obtain ⟨M, k, hck, hM24⟩ := mag_form c
    have eD : ∀ x : Nat, ((x * 2 ^ s : Nat) : Int) * den = x * D := by intro x; rw [hD]; push_cast; ring
    rw [eD]
    by_cases hks : s ≤ k
    · have : mag c = (M * 2 ^ (k - s)) * 2 ^ s := by rw [hck, mul_assoc, ← pow_add]; congr 2; omega
      rw [this, eD]
      obtain ⟨n1, n2⟩ := roundEven_near num D hDpos (M * 2 ^ (k - s))
      refine ⟨n1, fun h => ?_⟩
      rcases n2 h with h | h
      · left; rw [h]
      · right; exact h
    · have hs0 : s ≠ 0 := by omega
      have h23 := hlow hs0
      -- mag c * den < 2^23 * D
      have hcl : mag c * den < 2 ^ 23 * D := by
        rw [hck, hD]
        have : M * 2 ^ k < 2 ^ 23 * 2 ^ s := by
          calc M * 2 ^ k < 2 ^ 24 * 2 ^ k := by have : 0 < 2 ^ k := by positivity
                                                exact Nat.mul_lt_mul_of_pos_right hM24 this
            _ = 2 ^ 23 * 2 ^ (k + 1) := by rw [pow_succ]; ring
            _ ≤ 2 ^ 23 * 2 ^ s := Nat.mul_le_mul_left _ (Nat.pow_le_pow_right (by omega) (by omega))
        calc M * 2 ^ k * den < 2 ^ 23 * 2 ^ s * den := Nat.mul_lt_mul_of_pos_right this hden
          _ = 2 ^ 23 * (den * 2 ^ s) := by ring
      have hnum : 2 ^ 23 * D ≤ num := by
        rw [Nat.le_div_iff_mul_le hDpos] at h23; exact h23
      obtain ⟨n1, _⟩ := roundEven_near num D hDpos (2 ^ 23)
      rw [← hr] at n1
      have e1 : ((mag c : Nat) : Int) * den = ((mag c * den : Nat) : Int) := by push_cast; ring
      rw [e1]
      have e2 : ((2 ^ 23 : Nat) : Int) * D = ((2 ^ 23 * D : Nat) : Int) := by push_cast; ring
      rw [e2] at n1
      generalize mag c * den = C at *
      generalize 2 ^ 23 * D = B at *
      constructor
      · omega
      · intro h; omega
  · have : isFinite (round neg num den) = false ↔ 255 * 2 ^ 23 ≤ s * 2 ^ 23 + r := by
      rw [← Bool.not_eq_true, hfin]; omega
    rw [this]
    have hdm := Nat.div_add_mod num D
    have hml := Nat.mod_lt num hDpos
    constructor
    · intro h
      by_cases h254 : 254 ≤ s
      · have h23 := hlow (by omega)
        rw [Nat.le_div_iff_mul_le hDpos] at h23
        have : 2 ^ 254 ≤ 2 ^ s := Nat.pow_le_pow_right (by omega) h254
        calc (2 ^ 25 - 1) * 2 ^ 252 * den ≤ 2 ^ 23 * (den * 2 ^ 254) := by
              rw [show 2 ^ 23 * (den * 2 ^ 254) = (2 ^ 23 * 2 ^ 254) * den by ring]
              exact Nat.mul_le_mul_right _ (by norm_num)
          _ ≤ 2 ^ 23 * D := Nat.mul_le_mul_left _ (Nat.mul_le_mul_left _ this)
          _ ≤ num := h23
      · have hs253 : s = 253 := by omega
        have hr' : r = 2 ^ 24 := by omega
        have hq : num / D = 2 ^ 24 - 1 := by omega
        have h2r : D ≤ 2 * (num % D) := by
          by_contra hh
          have : r = num / D := by
            rw [hr]; unfold roundEven; rw [if_neg (by omega)]
          omega
        rw [hq] at hdm
        have hDd : D = 2 * (den * 2 ^ 252) := by
          rw [hD, hs253, show (253 : Nat) = 252 + 1 from rfl, pow_succ]; generalize 2 ^ 252 = F; ring
        have : (2 ^ 25 - 1) * 2 ^ 252 * den = (2 ^ 25 - 1) * (den * 2 ^ 252) := by generalize 2 ^ 252 = F; ring
        rw [this]
        rw [hDd] at hdm h2r
        exact half_up_above hdm h2r
    · intro h
      have hq : (2 ^ 25 - 1) * 2 ^ 252 ≤ num / den := (Nat.le_div_iff_mul_le hden).2 h
      have h276 : 276 ≤ (num / den).log2 := (Nat.le_log2 (by have : 0 < (2 ^ 25 - 1) * 2 ^ 252 := by norm_num
                                                             omega)).2 (le_trans (by rw [show (276:Nat) = 24 + 252 from rfl, pow_add]; exact Nat.mul_le_mul_right _ (by norm_num)) hq)
      have hs253 : 253 ≤ s := by rw [hs]; unfold shiftFor; omega
      have h23 := hlow (by omega)
      by_cases h254 : 254 ≤ s
      · have hrr : 2 ^ 23 ≤ r := by omega
        omega
      · have hs3 : s = 253 := by omega
        have hDd : D = 2 * (den * 2 ^ 252) := by
          rw [hD, hs3, show (253 : Nat) = 252 + 1 from rfl, pow_succ]; generalize 2 ^ 252 = F; ring
        have h' : (2 ^ 25 - 1) * (den * 2 ^ 252) ≤ num := by
          calc _ = (2 ^ 25 - 1) * 2 ^ 252 * den := by generalize 2 ^ 252 = F; ring
            _ ≤ num := h
        have hq24 : 2 ^ 24 - 1 ≤ num / D := by
          rw [Nat.le_div_iff_mul_le hDpos, hDd]
          exact top_quotient h'
        have : r = 2 ^ 24 := by
          have hq' : num / D = 2 ^ 24 - 1 := by omega
          rw [hr]; unfold roundEven
          rw [hq'] at hdm ⊢
          have hx : D ≤ 2 * (num % D) := by
            rw [hDd] at hdm ⊢
            exact half_of_above hdm h'
          have hy : 2 * (num % D) > D ∨ 2 * (num % D) = D ∧ (2 ^ 24 - 1) % 2 = 1 := by
            rcases Nat.lt_or_eq_of_le hx with h | h
            · exact .inl h
            · exact .inr ⟨h.symm, by norm_num⟩
          rw [if_pos hy]; norm_num
        omega
  · intro h
    have hge : 255 * 2 ^ 23 ≤ s * 2 ^ 23 + r := by
      have : ¬ (isFinite (round neg num den) = true) := by simp [h]
      rw [hfin] at this; omega
    unfold isInf round
    rw [hM, min_eq_left hge, expo_ofParts (by omega), frac_ofParts (by omega)]
    decide

/-- No finite magnitude lies above the largest finite one (R12). -/
theorem mag_le {c : F32} (hc : isFinite c = true) : mag c ≤ (2 ^ 24 - 1) * 2 ^ 253 := by
  have hf : frac c < 2 ^ 23 := by unfold frac; omega
  have he : expo c ≤ 254 := by unfold isFinite at hc; unfold expo at *; simp at hc; omega
  unfold mag
  split
  · calc frac c ≤ 2 ^ 23 := by omega
      _ ≤ _ := by norm_num
  · calc (2 ^ 23 + frac c) * 2 ^ (expo c - 1) ≤ (2 ^ 24 - 1) * 2 ^ (expo c - 1) := Nat.mul_le_mul_right _ (by omega)
      _ ≤ _ := Nat.mul_le_mul_left _ (Nat.pow_le_pow_right (by omega) (by omega))

/-- Twenty-four bits times a power of two, not beyond the largest finite magnitude, is a magnitude (R12). -/
theorem exists_of_form (M e k : Nat) (hk : k = M * 2 ^ e) (hM : M < 2 ^ 24) (hle : k ≤ (2 ^ 24 - 1) * 2 ^ 253) :
    ∃ c, isFinite c = true ∧ mag c = k := by
  by_cases h0 : M = 0
  · exact ⟨0, by decide, by rw [hk, h0]; simp; decide⟩
  have hf : isFinite (round false k 1) = true := by
    rw [← Bool.not_eq_false, (round_near false k 1 (by norm_num)).2.1]
    intro h
    have : (2 ^ 24 - 1) * 2 ^ 253 < (2 ^ 25 - 1) * 2 ^ 252 * 1 := by norm_num
    omega
  have hr : roundMag k 1 < 2 ^ 31 := roundMag_lt _ _
  have hd : 2 ^ (shiftFor k 1) ∣ k := by
    unfold shiftFor
    rw [Nat.div_one]
    rcases Nat.lt_or_ge e (k.log2 - 23) with h | h
    · exfalso
      have hkpos : k ≠ 0 := by rw [hk]; positivity
      have h1 : k < 2 ^ (24 + e) := by rw [hk, pow_add]; exact Nat.mul_lt_mul_of_pos_right hM (by positivity)
      have := (Nat.log2_lt hkpos).2 h1
      omega
    · exact (pow_dvd_pow 2 h).trans ⟨M, by rw [hk, Nat.mul_comm]⟩
  obtain ⟨q, hq⟩ := hd
  have h1 : k % 2 ^ shiftFor k 1 = 0 := Nat.mod_eq_zero_of_dvd ⟨q, hq⟩
  have h2 : k / 2 ^ shiftFor k 1 = q := Nat.div_eq_of_eq_mul_right (by positivity) hq
  have hre : roundEven k (1 * 2 ^ shiftFor k 1) = q := by
    unfold roundEven
    rw [one_mul]
    rw [h1, h2, if_neg]
    have : 0 < 2 ^ shiftFor k 1 := by positivity
    omega
  refine ⟨_, hf, ?_⟩
  have hq24 : q ≤ 2 ^ 24 := by
    have := div_shift_lt k 1
    rw [one_mul] at this
    omega
  have hs : shiftFor k 1 = 0 ∨ 2 ^ 23 ≤ q := by
    by_cases h : shiftFor k 1 = 0
    · exact .inl h
    · right
      have := shift_low h
      rw [one_mul] at this
      omega
  have hM' : roundMag k 1 = min (255 * 2 ^ 23) (shiftFor k 1 * 2 ^ 23 + q) := by unfold roundMag; rw [hre]
  have hl : shiftFor k 1 * 2 ^ 23 + q < 255 * 2 ^ 23 := by
    by_contra hc
    unfold isFinite round at hf
    rw [hM', min_eq_left (by omega), expo_ofParts (by norm_num)] at hf
    revert hf; decide
  unfold round
  rw [hM', min_eq_right (by omega)]
  rw [(mag_ofParts_round false _ q hq24 hs hl).1, Nat.mul_comm]
  exact hq.symm

/-- Negation flips the sign and nothing else (R12). -/
theorem negate_parts (x : F32) : expo (negate x) = expo x ∧ frac (negate x) = frac x ∧ sign (negate x) = !sign x := by
    have h : ∀ i, i < 31 → (negate x).getLsbD i = x.getLsbD i := by
      intro i hi
      have : (0x80000000#32).getLsbD i = false := by
        have : ∀ i : Fin 31, (0x80000000#32).getLsbD i.val = false := by decide
        exact this ⟨i, hi⟩
      simp [negate, this]
    have e : (negate x).toNat % 2 ^ 31 = x.toNat % 2 ^ 31 := by
      have := congrArg BitVec.toNat (show (negate x).setWidth 31 = x.setWidth 31 by
        apply BitVec.eq_of_getLsbD_eq
        intro i hi
        simp only [BitVec.getLsbD_setWidth, h i hi])
      simpa [BitVec.toNat_setWidth] using this
    refine ⟨by unfold expo; omega, by unfold frac; omega, ?_⟩
    unfold sign negate
    simp [BitVec.msb_xor, show (2147483648#32).msb = true by decide]

/-- Negation of a finite value negates it (R62: a difference is the sum with the negated operand). -/
theorem units_negate (x : F32) : units (negate x) = - units x := by
  obtain ⟨e1, e2, e3⟩ := negate_parts x
  have hm : mag (negate x) = mag x := by unfold mag; rw [e1, e2]
  unfold units
  rw [hm, e3]
  cases sign x <;> simp

end Sys2Proof.F32
end

