-- ==== Sys2Proof/Machine/Asm.lean ====
section
/-! DEFINITION. The textual form of commands and responses (30_encoding.md R82), words as `0x` patterns. It
serves a reader of programs; no step uses it. -/

namespace Sys2Proof.Machine

def hexDigit (n : Nat) : Char := if n < 10 then Char.ofNat (48 + n) else Char.ofNat (55 + n)

/-- A word as eight hexadecimal digits after `0x`. -/
def hexWord (w : Word) : String :=
  "0x" ++ String.ofList ([28, 24, 20, 16, 12, 8, 4, 0].map fun i => hexDigit (w.toNat / 2 ^ i % 16))

def spaced : List String → String
  | [] => ""
  | [a] => a
  | a :: as => a ++ " " ++ spaced as

def bracketed (ws : List Word) : String := "[" ++ spaced (ws.map hexWord) ++ "]"

def digit (n : Nat) : String := String.ofList [hexDigit n]

def portText : Port → String
  | .rt => "RT:"
  | .an => "AN:"

def chText : Ch → String
  | .ch0 => "0"
  | .ch1 => "1"

/-- One command on a line, the port first (R82). -/
def instrText : Instr → String
  | .nop p => spaced [portText p, "nop"]
  | .upd chm idx k => spaced (["RT: upd", digit chm.toNat, digit idx.val] ++ (wordsOf k).map hexWord)
  | .byp chm idx b => spaced ["RT: byp", digit chm.toNat, digit idx.val, digit b.toNat]
  | .proc c xs => spaced ["RT: proc", chText c, bracketed xs]
  | .push c xs => spaced ["RT: push", chText c, bracketed xs]
  | .rdc p c idx => spaced [portText p, "rdc", chText c, digit idx.val]
  | .pop c => spaced ["AN: pop", chText c]
  | .feed c xs => spaced ["AN: feed", chText c, bracketed xs]
  | .spec c => spaced ["AN: spec", chText c]
  | .fpop c => spaced ["AN: fpop", chText c]
  | .rderr p => spaced [portText p, "rderr"]

/-- A response (R82, R77). -/
def responseText (st : Status) (ws : List Word) : String :=
  match st with
  | .ok => "-> OK " ++ bracketed ws
  | .noData => "-> NODATA"
  | .error .opcode => "-> ERR_OPCODE"
  | .error .port => "-> ERR_PORT"
  | .error .reserved => "-> ERR_RESERVED"
  | .error .chmask => "-> ERR_CHMASK"
  | .error .index => "-> ERR_INDEX"
  | .error .length => "-> ERR_LENGTH"
  | .error .frame => "-> ERR_FRAME"

end Sys2Proof.Machine
end

