-- ==== Sys2Proof/Tests/Slice0.lean ====
section
/-! SUPPORT. The package's own tests. Expected words come from the spec: its encoding tables (30_encoding.md) and
the vectors of 95_test_vectors.md, named in each docstring. -/

namespace Sys2Proof.Tests

open Sys2Proof Sys2Proof.Machine

/-! The test parameter record `PT` of 95_test_vectors.md, and small helpers. -/

def PT : Params where
  blockMax := 8
  cap      := 4
  fftSize  := 8
  frameCap := 2
  floorDb  := 0xC2C00000#32
  win      := List.replicate 8 0x3F800000#32
  num      := .ieee754

def start : State := State.init PT

/-- The state a sequence of commands reaches; no command stops. -/
def after (is : List Instr) (s : State) : State :=
  match execAll is s with
  | .next t => t
  | .fault _ => s
  | .refused _ => s

/-- The state after one packet sent on a port. -/
def send (p : Port) (w : Word) (ws : List Word) (s : State) : State :=
  match step (s.offer p ⟨w, ws⟩) with
  | .next t => t
  | .fault _ => s
  | .refused _ => s

def answer (p : Port) (w : Word) (ws : List Word) : Option Packet := (send p w ws start).lastResponse p

/-- What a packet decodes to under `PT`, or the name it is rejected by. -/
def decoded (p : Port) (pk : Packet) : Option Instr :=
  match decode PT p pk with
  | .ok i => some i
  | .error _ => none

def rejected (p : Port) (pk : Packet) : Option CmdError :=
  match decode PT p pk with
  | .ok _ => none
  | .error e => some e

/-- The next state, where there is one. -/
def nextOf : Host.Outcome State Fault Refusal → Option State
  | .next t => some t
  | .fault _ => none
  | .refused _ => none

/-- A machine in which only section 4 of channel 0 takes part, with a given set. -/
def with4 (k : Coeffs) : State := after [.upd 1#2 4 k, .byp 1#2 4 false] start

/-- Channel 0's sample FIFO full with four one-sample blocks; its frame FIFO full; an error recorded on `RT`. -/
def full : State :=
  after [.push .ch0 [4#32]] (after [.push .ch0 [3#32]] (after [.push .ch0 [2#32]] (after [.push .ch0 [1#32]] start)))

def fullFrames : State := after [.spec .ch0, .spec .ch0] start

def refusedOnce : State := send .rt 0x60000000#32 [] start

def KA : Coeffs := ⟨0x3F000000#32, 0x3E800000#32, 0x3E000000#32, 0xBF000000#32, 0x3E800000#32⟩
def KB : Coeffs := ⟨0x3DCCCCCD#32, 0x3E4CCCCD#32, 0x3E99999A#32, 0xBECCCCCD#32, 0x3D4CCCCD#32⟩

/-! WellFormed: one ill-formed term for each check (R73), refused by the check. -/

theorem test_upd_mask_zero_ill_formed : (Instr.upd 0#2 4 KA).wellFormed PT = false := by decide
theorem test_byp_mask_zero_ill_formed : (Instr.byp 0#2 4 true).wellFormed PT = false := by decide
theorem test_proc_too_long_ill_formed : (Instr.proc .ch0 (List.replicate 9 0#32)).wellFormed PT = false := by decide
theorem test_push_too_long_ill_formed : (Instr.push .ch0 (List.replicate 9 0#32)).wellFormed PT = false := by decide
theorem test_feed_too_long_ill_formed : (Instr.feed .ch1 (List.replicate 9 0#32)).wellFormed PT = false := by decide
theorem test_longest_block_well_formed : (Instr.feed .ch1 (List.replicate 8 0#32)).wellFormed PT = true := by decide

/-! Decoding: each constructor from its word written out field by field, `OPC Z1 CH Z2 IDX IMM` (R71, R73). -/

theorem test_decode_nop : decoded .an ⟨0b0000_00_00_0000_0000_0000000000000000#32, []⟩ = some (.nop .an) := by decide
theorem test_decode_upd : decoded .rt ⟨0b0001_00_10_0000_1001_0000000000000000#32,
    [0x3F000000#32, 0x3E800000#32, 0x3E000000#32, 0xBF000000#32, 0x3E800000#32]⟩ = some (.upd 2#2 9 KA) := by decide
theorem test_decode_byp : decoded .rt ⟨0b0010_00_10_0000_0111_0000000000000001#32, []⟩ =
    some (.byp 2#2 7 true) := by decide
theorem test_decode_proc : decoded .rt ⟨0b0011_00_01_0000_0000_0000000000000010#32, [7#32, 9#32]⟩ =
    some (.proc .ch1 [7#32, 9#32]) := by decide
theorem test_decode_push : decoded .rt ⟨0b0100_00_01_0000_0000_0000000000000000#32, []⟩ =
    some (.push .ch1 []) := by decide
theorem test_decode_rdc : decoded .an ⟨0b0101_00_01_0000_1001_0000000000000000#32, []⟩ =
    some (.rdc .an .ch1 9) := by decide
theorem test_decode_pop : decoded .an ⟨0b0110_00_01_0000_0000_0000000000000000#32, []⟩ = some (.pop .ch1) := by decide
theorem test_decode_feed : decoded .an ⟨0b0111_00_00_0000_0000_0000000000000001#32, [5#32]⟩ =
    some (.feed .ch0 [5#32]) := by decide
theorem test_decode_spec : decoded .an ⟨0b1000_00_01_0000_0000_0000000000000000#32, []⟩ = some (.spec .ch1) := by decide
theorem test_decode_fpop : decoded .an ⟨0b1001_00_00_0000_0000_0000000000000000#32, []⟩ = some (.fpop .ch0) := by decide
theorem test_decode_rderr : decoded .rt ⟨0b1010_00_00_0000_0000_0000000000000000#32, []⟩ =
    some (.rderr .rt) := by decide

/-- Vectors E3 to E15: reserved opcodes, port rights, and a bit set in each field that must be zero. -/
theorem test_decode_rejects_by_name :
    rejected .rt ⟨0xB0000000#32, []⟩ = some .opcode ∧
    rejected .an ⟨0xF1234567#32, [0#32, 0#32]⟩ = some .opcode ∧
    rejected .an ⟨0x13040000#32, wordsOf KA⟩ = some .port ∧
    rejected .rt ⟨0x60000000#32, []⟩ = some .port ∧
    rejected .rt ⟨0x00000001#32, []⟩ = some .reserved ∧
    rejected .rt ⟨0x32000004#32, [0#32, 0#32, 0#32, 0#32]⟩ = some .reserved ∧
    rejected .rt ⟨0x23040002#32, []⟩ = some .reserved ∧
    rejected .rt ⟨0x17040000#32, wordsOf KA⟩ = some .reserved ∧
    rejected .rt ⟨0x13140000#32, wordsOf KA⟩ = some .reserved ∧
    rejected .an ⟨0x51040001#32, []⟩ = some .reserved ∧
    rejected .an ⟨0x60010000#32, []⟩ = some .reserved ∧
    rejected .rt ⟨0xA1000000#32, []⟩ = some .reserved := by decide

/-- Vectors E16 to E27: the operand checks and their order. -/
theorem test_decode_first_error :
    rejected .rt ⟨0x10040000#32, wordsOf KA⟩ = some .chmask ∧
    rejected .rt ⟨0x200F0000#32, []⟩ = some .chmask ∧
    rejected .rt ⟨0x130A0000#32, wordsOf KA⟩ = some .index ∧
    rejected .an ⟨0x500F0000#32, []⟩ = some .index ∧
    rejected .rt ⟨0x30000009#32, List.replicate 9 0#32⟩ = some .length ∧
    rejected .rt ⟨0x4000FFFF#32, []⟩ = some .length ∧
    rejected .rt ⟨0x30000004#32, [0#32, 0#32, 0#32]⟩ = some .frame ∧
    rejected .rt ⟨0x13040000#32, [0#32, 0#32, 0#32, 0#32]⟩ = some .frame ∧
    rejected .rt ⟨0x00000000#32, [0#32]⟩ = some .frame ∧
    rejected .an ⟨0x130C0000#32, wordsOf KA⟩ = some .port ∧
    rejected .an ⟨0x32000009#32, []⟩ = some .port := by decide

/-- Vectors F2, F14, F15, E19: the encoder writes the spec's words. -/
theorem test_encode_words :
    (encode (.upd 1#2 4 KA)).word = 0x11040000#32 ∧ (encode (.byp 3#2 9 false)).word = 0x23090000#32 ∧
    (encode (.byp 2#2 7 true)).word = 0x22070001#32 ∧ (encode (.rdc .rt .ch1 4)).word = 0x51040000#32 ∧
    (encode (.proc .ch1 [0#32, 0#32])).word = 0x31000002#32 := by decide

/-! Steps, one command each. -/

/-- Vector E1. -/
theorem test_nop : answer .rt 0x00000000#32 [] = some ⟨0x00000000#32, []⟩ := by decide +kernel

/-- Vector F15: mask 2 writes channel 1 only, all five words in order. -/
theorem test_upd : let t := send .rt 0x12070000#32 (wordsOf KB) start
    ((t.ch1.secAt 7).cur = KB ∧ (t.ch1.secAt 7).act = Coeffs.reset ∧ (t.ch0.secAt 7).cur = Coeffs.reset ∧
      t.lastResponse .rt = some ⟨0x10000000#32, []⟩) := by decide +kernel

/-- Vector F15: mask 3, section 9. -/
theorem test_byp : let t := send .rt 0x23090000#32 [] start
    ((t.ch0.secAt 9).bypc = false ∧ (t.ch1.secAt 9).bypc = false ∧ (t.ch1.secAt 9).bypa = true ∧
      (t.ch0.secAt 8).bypc = true) := by decide +kernel

/-- Vector F2: the impulse response of `KA`, signs of the feedback included (F3). -/
theorem test_proc_impulse :
    (after [.proc .ch0 (0x3F800000#32 :: List.replicate 7 0#32)] (with4 KA)).lastResponse .rt =
      some ⟨0x30000008#32, [0x3F000000#32, 0x3F000000#32, 0x3E800000#32, 0x00000000#32, 0xBD800000#32,
        0xBD000000#32, 0x00000000#32, 0x3C000000#32]⟩ := by decide +kernel

/-- Vector F5: rounding at every operation, and the order of the additions. -/
theorem test_proc_rounding_order :
    (after [.proc .ch0 [0xBE800000#32, 0x3DCCCCCD#32, 0x3F000000#32, 0x3F333333#32]] (with4 KB)).lastResponse .rt =
      some ⟨0x30000004#32, [0xBCCCCCCD#32, 0xBD4CCCCD#32, 0xBCC28F5E#32, 0x3E45A1CB#32]⟩ := by decide +kernel

/-- Vector F11: two sections in cascade, in index order, each with its own registers. -/
theorem test_proc_cascade :
    let t := after [.upd 1#2 4 ⟨0x3F000000#32, 0#32, 0#32, 0#32, 0#32⟩,
      .upd 1#2 5 ⟨0x3F800000#32, 0x3F800000#32, 0#32, 0#32, 0#32⟩, .byp 1#2 4 false, .byp 1#2 5 false,
      .proc .ch0 [0x3F800000#32, 0x40000000#32, 0x40400000#32]] start
    (t.lastResponse .rt = some ⟨0x30000003#32, [0x3F000000#32, 0x3FC00000#32, 0x40200000#32]⟩ ∧
      (t.ch0.secAt 4).z = ⟨0x40400000#32, 0x40000000#32, 0x3FC00000#32, 0x3F800000#32⟩ ∧
      (t.ch0.secAt 5).z = ⟨0x3FC00000#32, 0x3F800000#32, 0x40200000#32, 0x3FC00000#32⟩) := by decide +kernel

/-- Vector S2: the fifth push drops the oldest of four blocks. -/
theorem test_push_overflow :
    let t := after [.push .ch0 [5#32]] full
    (t.ch0.sf.wr = 5 ∧ t.ch0.sf.rd = 1 ∧ t.ch0.sf.unread 4 = [[2#32], [3#32], [4#32], [5#32]]) := by decide +kernel

/-- Vectors F9, F14: the current copy and the flag. -/
theorem test_rdc : answer .an 0x50090000#32 [] =
    some ⟨0x50000006#32, [0x3F800000#32, 0#32, 0#32, 0#32, 0#32, 1#32]⟩ := by decide +kernel

/-- Vector S3: an empty block is not "no data". -/
theorem test_pop_empty_block :
    (after [.push .ch1 [], .pop .ch1] start).lastResponse .an = some ⟨0x60000000#32, []⟩ ∧
    (after [.push .ch1 [], .pop .ch1, .pop .ch1] start).lastResponse .an = some ⟨0x61000000#32, []⟩ := by
  decide +kernel

/-- Vector S5: a popped block has its own length. -/
theorem test_pop_length :
    (after [.push .ch0 [0x40800000#32, 0x40A00000#32], .pop .ch0] start).lastResponse .an =
      some ⟨0x60000002#32, [0x40800000#32, 0x40A00000#32]⟩ := by decide +kernel

/-- Vector Q1: two feeds. -/
theorem test_feed : (after [.feed .ch0 [1#32, 2#32, 3#32], .feed .ch0 [4#32, 5#32]] start).ch0.roll =
    [0#32, 0#32, 0#32, 1#32, 2#32, 3#32, 4#32, 5#32] := by decide +kernel

/-- Vector Q10: the third frame drops the first; the buffer stays (R147). -/
theorem test_spec_overflow : let t := after [.spec .ch0] fullFrames
    (t.ch0.ff.wr = 3 ∧ t.ch0.ff.rd = 1 ∧ t.ch0.roll = List.replicate 8 0#32) := by decide +kernel

/-- Vector Q12: command word and response word coincide. -/
theorem test_fpop_empty : answer .an 0x91000000#32 [] = some ⟨0x91000000#32, []⟩ := by decide +kernel

/-- Vector E28: the first code stays, and it is the port's own. -/
theorem test_rderr_sticky :
    let t := send .rt 0xA0000000#32 [] (send .rt 0x00000001#32 [] refusedOnce)
    (t.lastResponse .rt = some ⟨0xA0000001#32, [9#32]⟩ ∧ t.an.err = 0#4) := by decide +kernel

/-- Vectors E4, E12, E21, E24: the refusal's response. -/
theorem test_refusal_words :
    answer .an 0xF1234567#32 [0#32, 0#32] = some ⟨0xF8000000#32, []⟩ ∧
    answer .rt 0x13140000#32 (wordsOf KA) = some ⟨0x1A000000#32, []⟩ ∧
    answer .rt 0x4000FFFF#32 [] = some ⟨0x4D000000#32, []⟩ ∧
    answer .rt 0x13040000#32 [0#32] = some ⟨0x1E000000#32, []⟩ := by decide +kernel

/-- The reset event (R215) sets the error register back; the parameters stay (R7). -/
theorem test_reset_event :
    nextOf (step { refusedOnce with sched := [.reset] }) =
      some { start with rt := { start.rt with responses := [⟨0x69000000#32, []⟩] } } := by decide +kernel

/-- Vector Q11: the default window for 8 entries. -/
theorem test_window : Window.table 8 = [0x387BA882#32, 0x3D08C5C3#32, 0x3EAA6927#32, 0x3F63ADBD#32, 0x3F63ADBD#32,
    0x3EAA6927#32, 0x3D08C5C3#32, 0x387BA882#32] := by rw [Window.table_eq]; decide +kernel

/-- Vector Q11: windowing is one product per entry; the open NaN bits do not matter here. -/
theorem test_windowed_product : ∀ d : NaNBits, F32.fmul d 0x40000000#32 0x3D08C5C3#32 = 0x3D88C5C3#32 :=
  fun d => show F32.fmul default 0x40000000#32 0x3D08C5C3#32 = _ by decide

/-- R62 at the edge of the range: half a last place beyond the largest finite value is infinity, less is not. -/
theorem test_overflow_edge : ∀ d : NaNBits, F32.fadd d 0x7F7FFFFF#32 0x73000000#32 = F32.posInf ∧
    F32.fadd d 0x7F7FFFFF#32 0x72FFFFFF#32 = 0x7F7FFFFF#32 :=
  fun d => ⟨show F32.fadd default 0x7F7FFFFF#32 0x73000000#32 = _ by decide +kernel,
    show F32.fadd default 0x7F7FFFFF#32 0x72FFFFFF#32 = _ by decide +kernel⟩

/-- R62: subnormal results are kept, ties go to even. -/
theorem test_subnormal_product : ∀ d : NaNBits, F32.fmul d 0x00800000#32 0x3F000000#32 = 0x00400000#32 ∧
    F32.fmul d 0x00000003#32 0x3F000000#32 = 0x00000002#32 :=
  fun d => ⟨show F32.fmul default 0x00800000#32 0x3F000000#32 = _ by decide +kernel,
    show F32.fmul default 0x00000003#32 0x3F000000#32 = _ by decide +kernel⟩

/-- R82: the textual form. -/
theorem test_text : instrText (.upd 3#2 4 KA) =
    "RT: upd 3 4 0x3F000000 0x3E800000 0x3E000000 0xBF000000 0x3E800000" ∧
    responseText (.error .length) [] = "-> ERR_LENGTH" := by decide +kernel

/-! The host's two questions. -/

/-- A table word of two payload words of zeros decodes and runs as the first command after reset. -/
theorem test_table_word : decodeTableWord 32 0x30000002 = some (.proc .ch0 [0#32, 0#32]) ∧
    decodeTableWord 32 0x13090000 = some (.upd 3#2 9 ⟨0#32, 0#32, 0#32, 0#32, 0#32⟩) ∧
    decodeTableWord 32 0x10090000 = none := by decide +kernel

theorem test_fetch_word : step (State.reset.withFetchWord 32 0x91000000) = exec (.fpop .ch1) State.reset := by rfl

/-! Witnesses: states and operands that meet the hypotheses of the statements in Obligations.lean. -/

theorem witness_params : PT.Valid where
  blockMax_pos := by decide
  blockMax_le := by decide
  block_fits := by decide
  cap_pos := by decide
  cap_le := by decide
  fft_ge := by decide
  fft_le := by decide
  fft_pow := by decide
  frame_pos := by decide
  frame_le := by decide
  floor_finite := by decide
  floor_neg := by decide +kernel
  win_length := by decide
  win_finite := fun _ h => List.eq_of_mem_replicate h ▸ by decide

/-- The edges of R6 are met as well: the smallest capacities, the largest block for the smallest transform, and a
numerics record that is not the default. -/
theorem witness_params_edges : Params.Valid { PT with cap := 1, frameCap := 32767, blockMax := 8, num := .other 3 } where
  blockMax_pos := by decide
  blockMax_le := by decide
  block_fits := by decide
  cap_pos := by decide
  cap_le := by decide
  fft_ge := by decide
  fft_le := by decide
  fft_pow := by decide
  frame_pos := by decide
  frame_le := by decide
  floor_finite := by decide
  floor_neg := by decide +kernel
  win_length := by decide
  win_finite := fun _ h => List.eq_of_mem_replicate h ▸ by decide

/-- `State.Inv` (StepKeepsInvariants, EveryPacketGetsOneResponse, PushRefinesQueue, PopRefinesQueue,
OverflowKeepsNewestBlocks, DrainFeedsQueueInOrder, SpecPushesFrameAndKeepsBuffer, FpopRefinesQueue,
CallbackPushesProcessedBlocks, TickDrainsThenPushesOneFrameEach). -/
theorem witness_inv : start.Inv :=
  ⟨witness_params, wf_reset _ witness_params _, wf_reset _ witness_params _, .inl rfl, .inl rfl⟩

/-- SpecExampleWordsDecode. -/
theorem witness_block_max : 4 ≤ PT.blockMax := by decide

/-- DecodeOfEncode, at a boundary of each operand. -/
theorem witness_well_formed : PT.Valid ∧ (Instr.upd 3#2 9 KA).wellFormed PT = true ∧
    (Instr.proc .ch1 (List.replicate 8 0#32)).wellFormed PT = true :=
  ⟨witness_params, by decide, by decide⟩

/-- StepExecutesDecodedCommand, EveryPacketGetsOneResponse, RtPacketsLeaveAnalysisStateAlone: a port's turn and a
packet that decodes (EncodeOfDecode). -/
theorem witness_turn : (start.offer .rt ⟨0x31000000#32, []⟩).sched = [.port .rt] ∧
    ((start.offer .rt ⟨0x31000000#32, []⟩).port .rt).pending = [⟨0x31000000#32, []⟩] ∧
    decode start.par .rt ⟨0x31000000#32, []⟩ = .ok (.proc .ch1 []) ∧
    (start.offer .rt ⟨0x31000000#32, []⟩).Inv :=
  ⟨rfl, rfl, rfl, witness_params, witness_inv.ch0, witness_inv.ch1, .inl rfl, .inl rfl⟩

/-- The same on the other port (AnPacketsLeaveFilterStateAlone). -/
theorem witness_turn_an : (start.offer .an ⟨0x91000000#32, []⟩).sched = [.port .an] ∧
    nextOf (step (start.offer .an ⟨0x91000000#32, []⟩)) =
      some { start with an := { start.an with responses := [⟨0x91000000#32, []⟩] } } := by decide +kernel

/-- RefusalChangesErrorRegisterOnly, ErrorRegisterKeepsFirstCode (second clause: the register is set). -/
theorem witness_refusal : (start.offer .rt ⟨0xB0000000#32, []⟩).sched = [.port .rt] ∧
    rejected .rt ⟨0xB0000000#32, []⟩ = some .opcode ∧
    nextOf (step (start.offer .rt ⟨0xB0000000#32, []⟩)) =
      some { start with rt := ⟨8#4, [], [⟨0xB8000000#32, []⟩]⟩ } := by decide +kernel

/-- ErrorRegisterKeepsFirstCode, first clause: a register that is set stays through a further refusal. -/
theorem witness_sticky : (send .rt 0xB0000000#32 [] start).rt.err = 8#4 ∧
    (send .rt 0x00000001#32 [] (send .rt 0xB0000000#32 [] start)).rt.err = 8#4 := by decide +kernel

/-- ResetEventSetsResetValues, from a state that is not the reset state. -/
theorem witness_reset_event : { with4 KA with sched := [.reset] }.sched = [.reset] ∧
    ((with4 KA).ch0.secAt 4).cur ≠ Section.reset.cur := by decide +kernel

/-- BlockWaitsForPackets, both clauses. -/
theorem witness_wait : start.sched = [] ∧ { start with sched := [.port .an] }.sched = [.port .an] ∧
    ({ start with sched := [.port .an] }.port .an).pending = [] := by decide

/-- OrdersAgreeUnlessListed: `PUSH` and `POP` of one channel, neither empty nor full. -/
theorem witness_two_ports : let s := after [.push .ch0 [1#32]] start
    (¬ ordersDiffer s (.push .ch0 [2#32]) (.pop .ch0) ∧
      decode s.par .rt ⟨0x40000001#32, [2#32]⟩ = .ok (.push .ch0 [2#32]) ∧
      decode s.par .an ⟨0x60000000#32, []⟩ = .ok (.pop .ch0)) := by
  refine ⟨?_, rfl, rfl⟩
  rintro ⟨-, h | h⟩
  · exact absurd h (by decide +kernel)
  · exact absurd h (by decide +kernel)

/-- The invariants of a state reached by pushes on channel 0. -/
theorem inv_after_push {s : State} (b : List F32) (h : s.Inv) (hb : b.length ≤ s.par.blockMax) :
    (after [.push .ch0 b] s).Inv := by
  obtain ⟨hf, hq⟩ := Ring.push_spec h.par.cap_pos h.ch0.sf b
  refine ⟨h.par, ⟨hf, fun x hx => ?_, h.ch0.roll, h.ch0.ff, h.ch0.frames⟩, h.ch1, h.rt, h.an⟩
  have hx' : x ∈ queuePush s.par.cap (s.ch0.sf.unread s.par.cap) b := by
    rw [← hq]; exact hx
  rcases mem_queuePush hx' with hx'' | rfl
  · exact h.ch0.blocks x hx''
  · exact hb

/-- The invariants of a state reached by a `SPEC` on channel 0. -/
theorem inv_after_spec {s : State} (h : s.Inv) : (after [.spec .ch0] s).Inv := by
  obtain ⟨hf, hq⟩ := Ring.push_spec h.par.frame_pos h.ch0.ff (frameOf s.par s.ch0.roll)
  refine ⟨h.par, ⟨h.ch0.sf, h.ch0.blocks, h.ch0.roll, hf, fun F hF => ?_⟩, h.ch1, h.rt, h.an⟩
  have hF' : F ∈ queuePush s.par.frameCap (s.ch0.ff.unread s.par.frameCap) (frameOf s.par s.ch0.roll) := by
    rw [← hq]; exact hF
  rcases mem_queuePush hF' with hF'' | rfl
  · exact h.ch0.frames F hF''
  · exact frameOf_good h.par _

/-- SpecPushesFrameAndKeepsBuffer, FpopRefinesQueue: a full frame FIFO. -/
theorem witness_full_frames : fullFrames.Inv ∧
    ((fullFrames.chan .ch0).ff.unread fullFrames.par.frameCap).length = fullFrames.par.frameCap :=
  ⟨inv_after_spec (s := after [.spec .ch0] start) (inv_after_spec witness_inv),
    (Ring.unread_length _ _).trans (by decide +kernel)⟩

/-- PushPopOrdersOnFullFifo, OrdersAgreeUnlessListed; also a full FIFO for PushRefinesQueue and PopRefinesQueue. -/
theorem witness_full : full.Inv ∧ (full.chan .ch0).sf.unread full.par.cap = [[1#32], [2#32], [3#32], [4#32]] ∧
    [[2#32], [3#32], [4#32]].length + 1 = full.par.cap := by
  refine ⟨?_, by decide +kernel, by decide +kernel⟩
  exact inv_after_push _ (inv_after_push _ (inv_after_push _ (inv_after_push _ witness_inv
    (by decide)) (by decide)) (by decide)) (by decide)

/-- PushPopOrdersOnEmptyFifo, PopsReturnBlocksInPushOrder on an empty FIFO, as many blocks as there is room for. -/
theorem witness_empty : start.Inv ∧ (start.chan .ch1).sf.unread start.par.cap = [] ∧
    [[1#32], [], [3#32], [4#32]].length ≤ start.par.cap :=
  ⟨witness_inv, by decide, by decide⟩

/-- PopsReturnBlocksInPushOrder on a FIFO that holds a block already, filled to the last slot; the block count of the
statement's premise is at its bound. -/
theorem witness_room : (after [.push .ch0 [9#32]] start).Inv ∧
    (((after [.push .ch0 [9#32]] start).chan .ch0).sf.unread 4).length + [[1#32], [], [3#32]].length = 4 :=
  ⟨inv_after_push _ witness_inv (by decide), by decide +kernel⟩

/-- OverflowKeepsNewestBlocks: one block more than there is room for. -/
theorem witness_overflow : start.Inv ∧ (start.chan .ch0).sf.unread start.par.cap = [] ∧
    start.par.cap < [[1#32], [2#32], [], [4#32], [5#32]].length :=
  ⟨witness_inv, by decide, by decide⟩

/-- StateIsWrittenOnlyAsListed: a change of each piece of state, by a step that is no reset. -/
theorem witness_written :
    (((send .rt 0x11040000#32 (wordsOf KA) start).chan .ch0).secAt 4).cur ≠ ((start.chan .ch0).secAt 4).cur ∧
    (((send .rt 0x21040000#32 [] start).chan .ch0).secAt 4).bypc ≠ ((start.chan .ch0).secAt 4).bypc ∧
    (((send .rt 0x30000000#32 [] (with4 KA)).chan .ch0).secAt 4).act ≠ (((with4 KA).chan .ch0).secAt 4).act ∧
    ((send .rt 0x40000000#32 [] start).chan .ch0).sf.wr ≠ (start.chan .ch0).sf.wr ∧
    ((send .an 0x60000000#32 [] full).chan .ch0).sf.rd ≠ (full.chan .ch0).sf.rd ∧
    ((send .an 0x70000001#32 [5#32] start).chan .ch0).roll ≠ (start.chan .ch0).roll ∧
    ((send .an 0x80000000#32 [] start).chan .ch0).ff.wr ≠ (start.chan .ch0).ff.wr ∧
    ((send .an 0x90000000#32 [] fullFrames).chan .ch0).ff.rd ≠ (fullFrames.chan .ch0).ff.rd := by decide +kernel

/-- ActiveSectionFollowsStepRule: exactly one section takes part. -/
theorem witness_one_active : ∀ j, (((with4 KB).chan .ch0).secAt j).bypc = true ↔ j ≠ 4 := by decide +kernel

/-- BypassedChainIsIdentity. -/
theorem witness_all_bypassed : ∀ i, ((start.chan .ch1).secAt i).bypc = true := by decide +kernel

/-- NaNSticksInActiveSection: vector F8, a NaN in `y1` of section 9, the last. -/
theorem witness_nan :
    let g : Channel := start.ch0.onSec 9 fun x => { x with bypc := false, z := ⟨0#32, 0#32, 0x7FC00001#32, 0#32⟩ }
    (((start.setChan .ch0 g).chan .ch0).secAt 9).bypc = false ∧
      (∀ j, 9 < j → (((start.setChan .ch0 g).chan .ch0).secAt j).bypc = true) ∧
      F32.isNaN (((start.setChan .ch0 g).chan .ch0).secAt 9).z.y1 = true ∧
      (start.setChan .ch0 g).par.num = .ieee754 := by decide +kernel

/-- NextBlockUsesLatestUpdate: each channel in some mask. -/
theorem witness_selects : selects 1#2 .ch0 = true ∧ selects 2#2 .ch1 = true ∧ selects 3#2 .ch1 = true := by decide

/-- FeedShiftsRollingBuffer, RollingBufferHoldsLastSamplesFed: the empty and the longest block. -/
theorem witness_feed : start.Inv ∧ (List.replicate 8 1#32).length ≤ start.par.fftSize ∧
    ∀ b ∈ [[], List.replicate 8 1#32], b.length ≤ PT.blockMax :=
  ⟨witness_inv, by decide, by decide⟩

/-- FrameFollowsTheStepsOfSpec, FrameEntriesAreFiniteAndAboveFloor, UnitMagnitudeGivesZeroDecibels, ResetValues,
DriverSeesResetState, SilenceGivesTheFloor: zeros of both signs. -/
theorem witness_silence : PT.Valid ∧ PT.num = .ieee754 ∧ (0x80000000#32 :: List.replicate 7 0#32).length = PT.fftSize ∧
    ∀ x ∈ 0x80000000#32 :: List.replicate 7 0#32, x = 0x00000000#32 ∨ x = 0x80000000#32 :=
  ⟨witness_params, rfl, by decide, fun _ h =>
    (List.mem_cons.1 h).elim .inr fun h => .inl (List.eq_of_mem_replicate h)⟩

/-- NonFiniteMagnitudeGivesTheFloor: both infinities and a NaN. -/
theorem witness_non_finite : PT.Valid ∧ PT.num = .ieee754 ∧ F32.isFinite 0x7F800000#32 = false ∧ F32.isFinite 0xFF800000#32 = false ∧
    F32.isFinite 0x7FC00001#32 = false :=
  ⟨witness_params, rfl, by decide, by decide, by decide⟩

/-- DivisionByBinCountIsExact: 4.0, and the smallest magnitude whose last place allows the division. -/
theorem witness_division : PT.Valid ∧ F32.isFinite 0x40800000#32 = true ∧ PT.nbin ∣ F32.mag 0x40800000#32 ∧
    PT.nbin ∣ F32.mag 0x00000004#32 :=
  ⟨witness_params, by decide +kernel, by decide +kernel, by decide +kernel⟩

/-- AdditionRoundsToNearestEven, SubtractionRoundsToNearestEven, MultiplicationRoundsToNearestEven,
DivisionRoundsToNearestEven: operands with a finite and with an infinite result. -/
theorem witness_rounding : F32.isFinite 0x7F7FFFFF#32 = true ∧ F32.isFinite 0x3F800001#32 = true ∧
    F32.isFinite (F32.fadd default 0x7F7FFFFF#32 0x7F7FFFFF#32) = false ∧
    F32.isFinite (F32.fadd default 0x3F800001#32 0x3F800001#32) = true ∧
    F32.isFinite (F32.fmul default 0x7F7FFFFF#32 0x7F7FFFFF#32) = false ∧
    F32.isFinite (F32.fmul default 0x3F800001#32 0x3F800001#32) = true ∧
    F32.isFinite (F32.fsub default 0x7F7FFFFF#32 0xFF7FFFFF#32) = false ∧
    F32.isFinite (F32.fsub default 0x3F800001#32 0x3F800001#32) = true ∧
    F32.mag 0x00000001#32 ≠ 0 ∧ F32.isFinite (F32.fdiv default 0x7F7FFFFF#32 0x00000001#32) = false ∧
    F32.isFinite (F32.fdiv default 0x00000003#32 0x40000000#32) = true := by decide +kernel

/-- R62, R140 where the quotient underflows: 3 units over 2.0 is a tie and goes to the even neighbour, 2 units. -/
theorem test_quotient_underflow : ∀ d : NaNBits, F32.fdiv d 0x00000003#32 0x40000000#32 = 0x00000002#32 ∧
    F32.fsub d 0x3F800000#32 0x33000000#32 = 0x3F800000#32 :=
  fun d => ⟨show F32.fdiv default 0x00000003#32 0x40000000#32 = _ by decide +kernel,
    show F32.fsub default 0x3F800000#32 0x33000000#32 = _ by decide +kernel⟩

/-- InvalidOperationsGiveAnyNaN and ExactZeroSumsArePositiveZero, clause by clause. -/
theorem witness_invalid : F32.isNaN 0x7F800001#32 = true ∧ F32.isInf 0xFF800000#32 = true ∧
    F32.mag 0x80000000#32 = 0 ∧ F32.isFinite 0x00000001#32 = true := by decide

/-- InfinitiesPropagate: two infinities of one sign, an infinity and a finite value that is no zero. -/
theorem witness_infinities : F32.isInf 0xFF800000#32 = true ∧ F32.isNaN 0xFF800000#32 = false ∧
    F32.isInf 0x00000001#32 = false ∧ F32.mag 0x00000001#32 ≠ 0 := by decide

end Sys2Proof.Tests
end

section
/-! The state after reset, part by part (10_state.md R34). -/

namespace Sys2Proof.Machine

@[simp] theorem chan_init (P : Params) (c : Ch) : (State.init P).chan c = Channel.reset P 0 := by cases c <;> rfl
@[simp] theorem err_init (P : Params) (p : Port) : ((State.init P).port p).err = 0#4 := by cases p <;> rfl
@[simp] theorem sched_init (P : Params) : (State.init P).sched = [] := rfl

@[simp] theorem secAt_reset (P : Params) (d : Nat) (i : SecIdx) : (Channel.reset P d).secAt i = Section.reset := by
  simp [Channel.secAt, Channel.reset]

/-- Where the schedule is empty the block waits (R34, R57): of the cases of a step only the first is left. -/
theorem step_waits {s : State} (h : s.sched = []) : step s = .next s := by
  rcases step_cases s with ⟨-, hs⟩ | ⟨_, h', -⟩ | ⟨_, _, h', -⟩ | ⟨_, _, _, _, _, h', -⟩ | ⟨_, _, _, _, _, h', -⟩
  · exact hs
  all_goals simp [h] at h'

/-- The values of R34 that a channel has after reset, as literal words; the slots' content is unspecified. -/
theorem channel_reset_values (P : Params) (d : Nat) :
    (∀ i, (Channel.reset P d).secAt i =
        ⟨⟨0x3F800000#32, 0#32, 0#32, 0#32, 0#32⟩, ⟨0x3F800000#32, 0#32, 0#32, 0#32, 0#32⟩, true, true,
          ⟨0#32, 0#32, 0#32, 0#32⟩⟩) ∧
      (Channel.reset P d).sf.wr = 0 ∧ (Channel.reset P d).sf.rd = 0 ∧
      (Channel.reset P d).roll.length = P.fftSize ∧ (∀ x ∈ (Channel.reset P d).roll, x = 0#32) ∧
      (Channel.reset P d).ff.wr = 0 ∧ (Channel.reset P d).ff.rd = 0 :=
  ⟨secAt_reset P d, rfl, rfl, List.length_replicate, fun _ => List.eq_of_mem_replicate, rfl, rfl⟩

/-- Settles O21: both channels are reset channels, both error registers are 0, and the schedule is empty. -/
theorem resetValues : Obligations.ResetValues := by
  unfold Obligations.ResetValues
  refine ⟨rfl, fun P _ => ⟨fun c => ?_, err_init P .rt, err_init P .an, step_waits (sched_init P)⟩⟩
  rw [chan_init]
  exact channel_reset_values P 0

end Sys2Proof.Machine
end

section
/-! One active section among bypassed ones: the way of a sample through the cascade (40_filter_chain.md R105, R106,
R108). -/

namespace Sys2Proof.Machine

variable (N : Num) (nan : Nat → Nat → NaNBits)

/-- What enters section `m` of a list enters section `n` too, if the sections from `m` up to `n` are bypassed (R108). -/
theorem inputAt_eq_of_bypassed (k : Nat) (xs : List Section) (v : F32) {m n : Nat} (hmn : m ≤ n) (hn : n ≤ xs.length)
    (h : ∀ j (hj : j < xs.length), m ≤ j → j < n → xs[j].bypa = true) :
    inputAt N nan k xs n v = inputAt N nan k xs m v := by
  induction hmn with
  | refl => rfl
  | @step n hmn ih =>
    rw [inputAt_succ N nan k xs n v hn, out_bypassed N (h n hn hmn n.lt_succ_self)]
    exact ih (Nat.le_of_succ_le hn) fun j hj hmj hjn => h j hj hmj (Nat.lt_succ_of_lt hjn)

section Bank
variable {x : Vector Section 10} {i : SecIdx} (h : ∀ j, j ≠ i → x[j].bypa = true) (v : F32)
include h

/-- The sample reaches the one active section unchanged: all sections before it are bypassed. -/
theorem inputAt_of_one_active : inputAt N nan 0 x.toList i.val v = v :=
  inputAt_eq_of_bypassed N nan 0 x.toList v (Nat.zero_le _) (by simp) fun j hj _ hji =>
    h ⟨j, by simpa using hj⟩ (Fin.ne_of_lt hji)

/-- The active section's output leaves the chain unchanged: all sections after it are bypassed. -/
theorem chainOut_of_one_active : chainOut N nan 0 x.toList v = x[i].out N (nan i.val) v := by
  have hi : i.val < x.toList.length := by simp
  have after : inputAt N nan 0 x.toList x.toList.length v = inputAt N nan 0 x.toList (i.val + 1) v :=
    inputAt_eq_of_bypassed N nan 0 x.toList v hi (Nat.le_refl _) fun j hj hij _ =>
      h ⟨j, by simpa using hj⟩ (Fin.ne_of_gt hij)
  rw [← inputAt_length, after, inputAt_succ N nan 0 x.toList i.val v hi, inputAt_of_one_active N nan h, Nat.zero_add]
  simp

/-- The active section after the sample. -/
theorem bankAfter_of_one_active : (bankAfter N nan x v)[i] = x[i].after N (nan i.val) v := by
  rw [bankAfter_get, inputAt_of_one_active N nan h]

end Bank

/-- The active section of a channel computes the step on its current set, which the latch has made active (R103). -/
theorem proc_of_one_active {c : Ch} {g : Channel} {i : SecIdx} (h : ∀ j, (g.secAt j).bypc = true ↔ j ≠ i) (v : F32) :
    let u := biquadOut N (Config.freeNaN c g.draws i.val) (g.secAt i).cur (g.secAt i).z v
    g.procOut N c [v] = [u] ∧ ((g.proc N c [v]).secAt i).z = (g.secAt i).z.shift v u := by
  have bypassed : ∀ j, j ≠ i → g.latch.sec[j].bypa = true := fun j hj => by
    rw [latch_sec]; exact (h j).2 hj
  have active : g.latch.sec[i].bypa = false := by
    rw [latch_sec]; exact Bool.eq_false_iff.2 fun hi => (h i).1 hi rfl
  have out := chainOut_of_one_active N (Config.freeNaN c g.draws) bypassed v
  have after := bankAfter_of_one_active N (Config.freeNaN c g.draws) bypassed v
  rw [out_active N active, latch_sec] at out
  rw [after_active N active, latch_sec] at after
  exact ⟨congrArg (fun u => [u]) out, congrArg Section.z after⟩

/-- `PROC` of one sample answers one sample, with the response word of R76 for opcode 3, `OK` and one word. -/
theorem response_proc_singleton (u : F32) : response Op.proc.code .ok [u] = ⟨0x30000001#32, [u]⟩ :=
  congrArg (Packet.mk · [u]) (show responseWord Op.proc.code .ok 1 = 0x30000001#32 by decide)

/-- Settles O27: the nine operations are `biquadOut` of the active section, on its current set and delay registers;
the NaN bits are that section's draws. -/
theorem activeSectionFollowsStepRule : Obligations.ActiveSectionFollowsStepRule := by
  unfold Obligations.ActiveSectionFollowsStepRule
  intro s c i v h
  obtain ⟨out, after⟩ := proc_of_one_active s.par.NUM h v
  let d := Config.freeNaN c (s.chan c).draws i.val
  refine ⟨_, biquadOut s.par.NUM d ((s.chan c).secAt i).cur ((s.chan c).secAt i).z v, d, rfl, ?answer, ?registers, rfl⟩
  case answer => rw [lastResponse_respond, out, response_proc_singleton]
  case registers => rw [chan_respond, chan_setChan, after]; rfl

end Sys2Proof.Machine
end

section
/-! The causes of a rejection one by one (60_exceptions.md R191): for a packet whose opcode is known, each cause is the
decoder's test of the same name. -/

namespace Sys2Proof.Machine

/-- The opcode nibbles differ from opcode to opcode (R73). -/
theorem opCode_inj {op op' : Op} : op.code = op'.code ↔ op = op' :=
  ⟨fun h => Option.some.inj (by rw [← ofCode_code op, h, ofCode_code]), congrArg Op.code⟩

/-- The status codes of two errors differ (R77). -/
theorem errorCode_inj {e e' : CmdError} (h : e.code.toNat = e'.code.toNat) : e = e' := by
  revert h; cases e <;> cases e' <;> decide

/-- The formats with a channel mask, a section index, a length are those of the commands R191 lists (R72, R73). -/
theorem hasMask_iff (op : Op) : op.format.hasMask = true ↔ op ∈ [Op.upd, .byp] := by cases op <;> decide
theorem hasIdx_iff (op : Op) : op.format.hasIdx = true ↔ op ∈ [Op.upd, .byp, .rdc] := by cases op <;> decide
theorem hasLen_iff (op : Op) : op.format.hasLen = true ↔ op ∈ [Op.proc, .push, .feed] := by cases op <;> decide

variable {P : Params} {p : Port} {pk : Packet}

/-- A reserved nibble is a cause of its own (R79). -/
theorem causeHolds_opcode_iff : causeHolds P p pk .opcode ↔ Op.ofCode (fieldOpc pk.word) = none :=
  (ofCode_none_iff _).symm

section Known
variable {op : Op} (h : fieldOpc pk.word = op.code)
include h

theorem not_causeHolds_opcode : ¬ causeHolds P p pk .opcode := by simp [causeHolds_opcode_iff, h]

theorem causeHolds_port_iff : causeHolds P p pk .port ↔ op.permits p = false := by
  simp [causeHolds, h, opCode_inj]

theorem causeHolds_reserved_iff : causeHolds P p pk .reserved ↔ pk.word &&& op.mask ≠ op.pattern := by
  simp [causeHolds, h, opCode_inj]

theorem causeHolds_chmask_iff :
    causeHolds P p pk .chmask ↔ op.format.hasMask = true ∧ fieldCh pk.word = 0 := by
  simp only [causeHolds, h, opCode_inj, hasMask_iff, exists_eq_left', and_left_comm]

theorem causeHolds_index_iff :
    causeHolds P p pk .index ↔ op.format.hasIdx = true ∧ 9 < (fieldIdx pk.word).toNat := by
  simp only [causeHolds, h, opCode_inj, hasIdx_iff, exists_eq_left', and_left_comm]

theorem causeHolds_length_iff :
    causeHolds P p pk .length ↔ op.format.hasLen = true ∧ P.blockMax < fieldLen pk.word := by
  simp only [causeHolds, h, opCode_inj, hasLen_iff, exists_eq_left', and_left_comm]

theorem causeHolds_frame_iff : causeHolds P p pk .frame ↔ pk.payload.length ≠ op.payloadLen pk.word := by
  simp [causeHolds, h, opCode_inj]

end Known

end Sys2Proof.Machine
end

section
/-! The order of the decoder's tests (30_encoding.md R84, 60_exceptions.md R194): a test is made when no cause of a
smaller code holds, so the first that fails is the first cause that applies. -/

namespace Sys2Proof.Machine

/-- No cause of a code below `n` holds. -/
def NoCauseBelow (P : Params) (p : Port) (pk : Packet) (n : Nat) : Prop :=
  ∀ e : CmdError, e.code.toNat < n → ¬ causeHolds P p pk e

/-- What R194 says of a decoder's answer: a command when no cause holds, else the first cause that does. -/
def ReportsFirst (P : Params) (p : Port) (pk : Packet) : Except CmdError Instr → Prop
  | .ok _ => ∀ e : CmdError, ¬ causeHolds P p pk e
  | .error e => causeHolds P p pk e ∧ NoCauseBelow P p pk e.code.toNat

variable {P : Params} {p : Port} {pk : Packet}

/-- `ERR_OPCODE` has the smallest code. -/
theorem noCauseBelow_opcode : NoCauseBelow P p pk CmdError.opcode.code.toNat :=
  fun e he => absurd he (by cases e <;> decide)

/-- `ERR_FRAME` has the largest code. -/
theorem noCause_of_below_frame (h : NoCauseBelow P p pk (CmdError.frame.code.toNat + 1)) (e : CmdError) :
    ¬ causeHolds P p pk e := h e (by cases e <;> decide)

theorem NoCauseBelow.succ {e : CmdError} (h : NoCauseBelow P p pk e.code.toNat) (he : ¬ causeHolds P p pk e) :
    NoCauseBelow P p pk (e.code.toNat + 1) := by
  intro e' hlt
  rcases Nat.lt_succ_iff_lt_or_eq.1 hlt with hlt | heq
  · exact h e' hlt
  · rw [errorCode_inj heq]; exact he

/-- One test of the decoder: made after all causes of smaller codes are excluded, it excludes its own or reports it. -/
theorem reportsFirst_ite {e : CmdError} {C : Prop} [Decidable C] {r : Except CmdError Instr}
    (hC : causeHolds P p pk e ↔ C) (below : NoCauseBelow P p pk e.code.toNat)
    (rest : NoCauseBelow P p pk (e.code.toNat + 1) → ReportsFirst P p pk r) :
    ReportsFirst P p pk (if C then .error e else r) := by
  split
  · next hc => exact ⟨hC.2 hc, below⟩
  · next hc => exact rest (below.succ (mt hC.1 hc))

/-- The decoder reports the first cause, test by test. -/
theorem decode_reportsFirst : ReportsFirst P p pk (decode P p pk) := by
  unfold decode
  split
  · next hnone => exact ⟨causeHolds_opcode_iff.2 hnone, noCauseBelow_opcode⟩
  · next op hop =>
    have h := code_of_ofCode hop
    have below := noCauseBelow_opcode.succ (not_causeHolds_opcode (P := P) (p := p) h)
    refine reportsFirst_ite (causeHolds_port_iff h) below fun below => ?_
    refine reportsFirst_ite (causeHolds_reserved_iff h) below fun below => ?_
    refine reportsFirst_ite (causeHolds_chmask_iff h) below fun below => ?_
    refine reportsFirst_ite (causeHolds_index_iff h) below fun below => ?_
    refine reportsFirst_ite (causeHolds_length_iff h) below fun below => ?_
    exact reportsFirst_ite (causeHolds_frame_iff h) below noCause_of_below_frame

/-- At most one cause is the first. -/
theorem first_cause_unique {e e' : CmdError} (he : causeHolds P p pk e) (hb : NoCauseBelow P p pk e.code.toNat)
    (he' : causeHolds P p pk e') (hb' : NoCauseBelow P p pk e'.code.toNat) : e = e' := by
  rcases Nat.lt_trichotomy e.code.toNat e'.code.toNat with hlt | heq | hgt
  · exact absurd he (hb' e hlt)
  · exact errorCode_inj heq
  · exact absurd he' (hb e' hgt)

/-- Such an answer is an error exactly when that error is the first cause. -/
theorem ReportsFirst.eq_error_iff {r : Except CmdError Instr} (h : ReportsFirst P p pk r) (e : CmdError) :
    r = .error e ↔ causeHolds P p pk e ∧ NoCauseBelow P p pk e.code.toNat := by
  constructor
  · rintro rfl
    exact h
  · rintro ⟨he, below⟩
    cases r with
    | ok i => exact absurd he (h e)
    | error e' => exact congrArg _ (first_cause_unique h.1 h.2 he below)

/-- Such an answer is a command exactly when no cause holds. -/
theorem ReportsFirst.ok_iff {r : Except CmdError Instr} (h : ReportsFirst P p pk r) :
    (∃ i, r = .ok i) ↔ ∀ e : CmdError, ¬ causeHolds P p pk e := by
  constructor
  · rintro ⟨i, rfl⟩
    exact h
  · intro noCause
    cases r with
    | ok i => exact ⟨i, rfl⟩
    | error e => exact absurd h.1 (noCause e)

/-- Settles O4: each test of the decoder is the cause of its name, and the tests stand in the order of the codes. -/
theorem firstApplicableErrorIsReported : Obligations.FirstApplicableErrorIsReported := by
  unfold Obligations.FirstApplicableErrorIsReported
  intro P p pk
  have h : ReportsFirst P p pk (decode P p pk) := decode_reportsFirst
  exact ⟨h.eq_error_iff, h.ok_iff⟩

end Sys2Proof.Machine
end

section
/-! What a refusal answers and what it leaves alone (60_exceptions.md R192). -/

namespace Sys2Proof.Machine

/-- The other port is as before, its register, its stream and its responses alike. -/
@[simp] theorem port_refuse_other (s : State) (p : Port) (w : Word) (e : CmdError) :
    (s.refuse p w e).port (otherPort p) = s.port (otherPort p) := by
  simp [State.refuse, State.respond]

/-- The answer to a refused packet, field by field: opcode, code, zeros, and no payload (R76). -/
theorem response_error (opc : BitVec 4) (e : CmdError) :
    response opc (.error e) [] = ⟨opc ++ e.code ++ 0x00#8 ++ 0x0000#16, []⟩ := rfl

/-- Settles O6: the step is `refuse` from the state in which the packet has been taken. -/
theorem refusalChangesErrorRegisterOnly : Obligations.RefusalChangesErrorRegisterOnly := by
  unfold Obligations.RefusalChangesErrorRegisterOnly
  intro s p rest pk more e hsched hpending herror
  have chan_same (c : Ch) : ((s.took p rest more).refuse p pk.word e).chan c = s.chan c := by simp
  refine ⟨_, step_error hsched hpending herror, ?err, ?answer, ?consumed, ?sched, ?otherPort, ?par,
    chan_same .ch0, chan_same .ch1⟩
  case err => rw [err_refuse, err_took, recordError]
  case answer => rw [responses_refuse, responses_took, response_error]
  case consumed => rw [pending_refuse, pending_took]
  case sched => rw [sched_refuse, sched_took]
  case otherPort => rw [port_refuse_other, port_took_other]
  case par => rw [par_refuse, par_took]

end Sys2Proof.Machine
end

section
/-! The decoder on encoded words and the encoder on decoded ones (30_encoding.md R71 to R75, R84). -/

namespace Sys2Proof.Machine

variable {P : Params} {p : Port} {pk : Packet}

/-- The converse of `decode_ok`: a packet that passes every test is a command. -/
theorem decode_of_tests {op : Op} (hop : Op.ofCode (fieldOpc pk.word) = some op) (hport : op.permits p = true)
    (hmask : pk.word &&& op.mask = op.pattern) (hch : ¬ (op.format.hasMask = true ∧ fieldCh pk.word = 0))
    (hidx : ¬ (op.format.hasIdx = true ∧ 9 < (fieldIdx pk.word).toNat))
    (hlen : ¬ (op.format.hasLen = true ∧ P.blockMax < fieldLen pk.word))
    (hpay : pk.payload.length = op.payloadLen pk.word) : decode P p pk = .ok (assemble op p pk) := by
  simp only [decode, hop]
  rw [if_neg (by simp [hport]), if_neg (by simpa using hmask), if_neg hch, if_neg hidx, if_neg hlen,
    if_neg (by simpa using hpay)]

/-! Encoding first. -/

/-- The tests that every encoding passes, for all eleven commands. -/
theorem encodes (i : Instr) : Laws.Encodes.Statement i := by
  cases i with
  | nop p => exact Laws.Encodes.nop p
  | upd chm idx k => exact Laws.Encodes.upd chm idx k
  | byp chm idx b => exact Laws.Encodes.byp chm idx b
  | proc c xs => exact Laws.Encodes.proc c xs
  | push c xs => exact Laws.Encodes.push c xs
  | rdc p c idx => exact Laws.Encodes.rdc p c idx
  | pop c => exact Laws.Encodes.pop c
  | feed c xs => exact Laws.Encodes.feed c xs
  | spec c => exact Laws.Encodes.spec c
  | fpop c => exact Laws.Encodes.fpop c
  | rderr p => exact Laws.Encodes.rderr p

/-- The mask of an encoded command is the mask given, which is not zero if the command is well formed (R74). -/
theorem mask_nonzero_encode {i : Instr} (hw : i.wellFormed P = true) :
    ¬ (i.op.format.hasMask = true ∧ fieldCh (encode i).word = 0) := by
  rintro ⟨hm, hz⟩
  cases i with
  | upd chm idx k => simp [Instr.wellFormed] at hw; simp [encode] at hz; exact hw hz
  | byp chm idx b => simp [Instr.wellFormed] at hw; simp [encode] at hz; exact hw hz
  | _ => cases hm

/-- The index of an encoded command is a section index, at most 9 (R74). -/
theorem idx_le_encode (i : Instr) : ¬ (i.op.format.hasIdx = true ∧ 9 < (fieldIdx (encode i).word).toNat) := by
  rintro ⟨hm, hlt⟩
  cases i with
  | upd chm idx k => simp [encode] at hlt; omega
  | byp chm idx b => simp [encode] at hlt; omega
  | rdc p c idx => simp [encode] at hlt; omega
  | _ => cases hm

/-- The length of an encoded block fits, since a well-formed block does (R74). -/
theorem len_le_encode {i : Instr} (hb : P.blockMax ≤ 65535) (hw : i.wellFormed P = true) :
    ¬ (i.op.format.hasLen = true ∧ P.blockMax < fieldLen (encode i).word) := by
  have fits {xs : List F32} (h : xs.length ≤ P.blockMax) (op : Op) (c : Ch) :
      fieldLen (encodeWord op (chnField c) 0 (BitVec.ofNat 16 xs.length)) ≤ P.blockMax := by
    rw [fieldLen, fieldImm_encodeWord, Laws.Encodes.len_field h hb]; exact h
  rintro ⟨hm, hlt⟩
  cases i with
  | proc c xs => exact absurd (fits (of_decide_eq_true hw) .proc c) (Nat.not_le.2 hlt)
  | push c xs => exact absurd (fits (of_decide_eq_true hw) .push c) (Nat.not_le.2 hlt)
  | feed c xs => exact absurd (fits (of_decide_eq_true hw) .feed c) (Nat.not_le.2 hlt)
  | _ => cases hm

/-- The operands assembled from an encoding are those encoded (R74, R75). -/
theorem assemble_encode (i : Instr) : assemble i.op i.port (encode i) = i := by
  cases i with
  | nop p => rfl
  | upd chm idx k => simp [encode, assemble, Instr.op]
  | byp chm idx b => cases b <;> simp [encode, assemble, Instr.op]
  | proc c xs => simp [encode, assemble, Instr.op]
  | push c xs => simp [encode, assemble, Instr.op]
  | rdc p c idx => simp [encode, assemble, Instr.op, Instr.port]
  | pop c => simp [encode, assemble, Instr.op]
  | feed c xs => simp [encode, assemble, Instr.op]
  | spec c => simp [encode, assemble, Instr.op]
  | fpop c => simp [encode, assemble, Instr.op]
  | rderr p => rfl

/-- Settles O2: the encoding passes the decoder's tests one by one, and its operands are assembled unchanged. -/
theorem decodeOfEncode : Obligations.DecodeOfEncode := by
  intro P i hP hw
  obtain ⟨hop, hport, hmask, hpay⟩ := encodes i P hP.blockMax_le hw
  have h := decode_of_tests hop hport hmask (mask_nonzero_encode hw) (idx_le_encode i)
    (len_le_encode hP.blockMax_le hw) hpay
  rwa [assemble_encode] at h

/-! Decoding first: each operand field is the encoding of the operand read from it. -/

/-- A channel number with its unused bit zero (R71). -/
theorem chnField_fieldChn {w : Word} (h : fieldCh w &&& 2 = 0) : chnField (fieldChn w) = fieldCh w :=
  field_of_chn h

theorem idxField_fieldSec {w : Word} (h : ¬ 9 < (fieldIdx w).toNat) : idxField (fieldSec w) = fieldIdx w :=
  idxField_of_sec (Nat.not_lt.1 h)

theorem ofNat_fieldLen {w : Word} {n : Nat} (h : n = fieldLen w) : BitVec.ofNat 16 n = fieldImm w := by
  rw [h, fieldLen, BitVec.ofNat_toNat, BitVec.setWidth_eq]

/-- A flag whose other immediate bits are zero (R71, R74). -/
theorem ofNat_fieldB {w : Word} (h : fieldImm w &&& 0xFFFE#16 = 0) :
    BitVec.ofNat 16 (fieldB w).toNat = fieldImm w := by
  have hb : fieldB w = (fieldImm w).getLsbD 0 := by simp [fieldB, fieldImm]
  rw [hb]
  generalize fieldImm w = x at h
  apply BitVec.eq_of_getLsbD_eq
  intro i hi
  have hx := congrArg (fun y => y.getLsbD i) h
  have hbits : ∀ j : Fin 16, (0xFFFE#16).getLsbD j.val = decide (j.val ≠ 0) := by decide
  rcases Nat.eq_zero_or_pos i with rfl | hpos
  · cases x.getLsbD 0 <;> rfl
  · have : x.getLsbD i = false := by simpa [hbits ⟨i, hi⟩, Nat.pos_iff_ne_zero.1 hpos] using hx
    rw [this]
    cases x.getLsbD 0 <;> simp [BitVec.getLsbD_one, Nat.pos_iff_ne_zero.1 hpos]

/-- Zero bits under a full mask are a zero field. -/
theorem eq_zero_of_and_allOnes {n : Nat} {x m : BitVec n} (h : x &&& m = 0) (hm : m = BitVec.allOnes n) : x = 0 := by
  rwa [hm, BitVec.and_allOnes] at h

/-- A packet whose must-be-zero fields are zero is its fields' encoding with its payload. -/
theorem encodeWord_eq_packet {op : Op} (hop : fieldOpc pk.word = op.code) (hz1 : fieldZ1 pk.word = 0)
    (hz2 : fieldZ2 pk.word = 0) {ch : BitVec 2} {idx : BitVec 4} {imm : BitVec 16} {ws : List Word}
    (hch : ch = fieldCh pk.word) (hidx : idx = fieldIdx pk.word) (himm : imm = fieldImm pk.word)
    (hws : ws = pk.payload) : ⟨encodeWord op ch idx imm, ws⟩ = pk := by
  rw [hch, hidx, himm, hws, ← eq_encodeWord op hop hz1 hz2]

/-- The command assembled from a packet that passes the tests encodes to the packet (R71 to R75). -/
theorem encode_assemble {op : Op} (hop : fieldOpc pk.word = op.code) (hmask : pk.word &&& op.mask = op.pattern)
    (hidx : ¬ (op.format.hasIdx = true ∧ 9 < (fieldIdx pk.word).toNat))
    (hpay : pk.payload.length = op.payloadLen pk.word) : encode (assemble op p pk) = pk := by
  obtain ⟨_, hz1, hch, hz2, hix, him⟩ := (mask_iff op pk.word).1 hmask
  have zero {n : Nat} {x m : BitVec n} (h : x &&& m = 0) (hm : m = BitVec.allOnes n) : 0 = x :=
    (eq_zero_of_and_allOnes h hm).symm
  have nil (h : pk.payload.length = 0) : [] = pk.payload := (List.length_eq_zero_iff.1 h).symm
  have sec (h : op.format.hasIdx = true) : idxField (fieldSec pk.word) = fieldIdx pk.word :=
    idxField_fieldSec fun hlt => hidx ⟨h, hlt⟩
  cases op with
  | nop => exact encodeWord_eq_packet hop hz1 hz2 (zero hch rfl) (zero hix rfl) (zero him rfl) (nil hpay)
  | upd => exact encodeWord_eq_packet hop hz1 hz2 rfl (sec rfl) (zero him rfl) (wordsOf_coeffsOf hpay)
  | byp => exact encodeWord_eq_packet hop hz1 hz2 rfl (sec rfl) (ofNat_fieldB him) (nil hpay)
  | proc => exact encodeWord_eq_packet hop hz1 hz2 (chnField_fieldChn hch) (zero hix rfl) (ofNat_fieldLen hpay) rfl
  | push => exact encodeWord_eq_packet hop hz1 hz2 (chnField_fieldChn hch) (zero hix rfl) (ofNat_fieldLen hpay) rfl
  | rdc => exact encodeWord_eq_packet hop hz1 hz2 (chnField_fieldChn hch) (sec rfl) (zero him rfl) (nil hpay)
  | pop => exact encodeWord_eq_packet hop hz1 hz2 (chnField_fieldChn hch) (zero hix rfl) (zero him rfl) (nil hpay)
  | feed => exact encodeWord_eq_packet hop hz1 hz2 (chnField_fieldChn hch) (zero hix rfl) (ofNat_fieldLen hpay) rfl
  | spec => exact encodeWord_eq_packet hop hz1 hz2 (chnField_fieldChn hch) (zero hix rfl) (zero him rfl) (nil hpay)
  | fpop => exact encodeWord_eq_packet hop hz1 hz2 (chnField_fieldChn hch) (zero hix rfl) (zero him rfl) (nil hpay)
  | rderr => exact encodeWord_eq_packet hop hz1 hz2 (zero hch rfl) (zero hix rfl) (zero him rfl) (nil hpay)

/-- Settles O3: what passes the tests is the encoding of what is assembled from it, and is well formed. -/
theorem encodeOfDecode : Obligations.EncodeOfDecode := by
  intro P p pk i h
  obtain ⟨hport, hwf, -⟩ := decode_wf h
  obtain ⟨op, hop, -, hmask, -, hidx, -, hpay, rfl⟩ := decode_ok h
  exact ⟨encode_assemble hop hmask hidx hpay, hport, hwf⟩

/-! The spec's examples. -/

/-- A block command whose length field is at most the longest block's passes the tests of mask and index, which its
format has no field for, and the length test (R72, R84). -/
theorem decode_block {op : Op} (hop : Op.ofCode (fieldOpc pk.word) = some op) (hport : op.permits p = true)
    (hmask : pk.word &&& op.mask = op.pattern) (hformat : op.format = .SL) (hlen : fieldLen pk.word ≤ P.blockMax)
    (hpay : pk.payload.length = op.payloadLen pk.word) : decode P p pk = .ok (assemble op p pk) :=
  decode_of_tests hop hport hmask (by simp [hformat, Format.hasMask]) (by simp [hformat, Format.hasIdx])
    (fun h => Nat.not_lt.2 hlen h.2) hpay

/-- Settles O1: the tests and the operands are evaluated word by word; only the three block commands' length test
depends on the parameters. -/
theorem specExampleWordsDecode : Obligations.SpecExampleWordsDecode := by
  intro P hP
  have fits {w : Word} (h : fieldLen w ≤ 4) : fieldLen w ≤ P.blockMax := Nat.le_trans h hP
  exact ⟨rfl, rfl, rfl, decode_block (op := .proc) rfl rfl rfl rfl (fits (by decide)) rfl,
    decode_block (op := .push) rfl rfl rfl rfl (fits (by decide)) rfl, rfl, rfl,
    decode_block (op := .feed) rfl rfl rfl rfl (fits (by decide)) rfl, rfl, rfl, rfl, rfl⟩

end Sys2Proof.Machine
end

section
/-! The default arithmetic against exact values (20_memory.md R62, R63): what the four operations give for finite
operands, and the rounding of an exact sum, product or quotient. -/

namespace Sys2Proof.F32

variable (d : NaNBits) {a b : F32}

/-! The operations on finite operands. -/

theorem fadd_finite (ha : isFinite a = true) (hb : isFinite b = true) : fadd d a b =
    if units a + units b = 0 then if sign a && sign b then negZero else posZero
    else round (decide (units a + units b < 0)) (units a + units b).natAbs 1 := by
  simp only [fadd, finite_not_nan _ ha, finite_not_nan _ hb, finite_not_inf _ ha, finite_not_inf _ hb, Bool.or_self,
    Bool.false_eq_true, if_false]

theorem fmul_finite (ha : isFinite a = true) (hb : isFinite b = true) :
    fmul d a b = round (sign a != sign b) (mag a * mag b) (2 ^ 149) := by
  simp only [fmul, finite_not_nan _ ha, finite_not_nan _ hb, finite_not_inf _ ha, finite_not_inf _ hb, Bool.or_self,
    Bool.false_eq_true, if_false]

theorem fdiv_finite (ha : isFinite a = true) (hb : isFinite b = true) (hz : mag b ≠ 0) :
    fdiv d a b = round (sign a != sign b) (mag a * 2 ^ 149) (mag b) := by
  simp only [fdiv, finite_not_nan _ ha, finite_not_nan _ hb, finite_not_inf _ ha, finite_not_inf _ hb, hz, Bool.or_self,
    Bool.false_eq_true, if_false]

theorem isFinite_negate (x : F32) : isFinite (negate x) = isFinite x := by
  rw [isFinite, (negate_parts x).1, ← isFinite]

/-! Sums. -/

/-- What R62 asks of a result `r` for the exact sum `S`: a nearest value, the even one on a tie, and an infinity of the
sum's sign exactly from half a last place beyond the largest finite value on. -/
def SumRounded (S : Int) (r : F32) : Prop :=
  (isFinite r = true → ∀ c, isFinite c = true → (S - units r).natAbs ≤ (S - units c).natAbs ∧
    ((S - units r).natAbs = (S - units c).natAbs → units c = units r ∨ frac r % 2 = 0)) ∧
  (isFinite r = false ↔ (2 ^ 25 - 1) * 2 ^ 252 ≤ S.natAbs) ∧
  (isFinite r = false → isInf r = true ∧ sign r = decide (S < 0))

/-- An exact zero sum is a zero. -/
theorem sumRounded_zero {r : F32} (hfin : isFinite r = true) (hmag : mag r = 0) : SumRounded 0 r := by
  have hunits : units r = 0 := by simp [units, hmag]
  have hfrac : frac r = 0 := ((mag_eq_zero_iff r).1 hmag).2
  refine ⟨fun _ c _ => ⟨by rw [hunits]; exact Nat.zero_le _, fun _ => .inr (by rw [hfrac])⟩, ?_, ?_⟩
  · rw [hfin]; simp
  · rw [hfin]; intro h; cases h

/-- A value of the other sign is not nearer to an exact sum than zero is, and zero not nearer than the rounded sum. -/
theorem sumRounded_round (S : Int) : SumRounded S (round (decide (S < 0)) S.natAbs 1) := by
  obtain ⟨hnear, hover, hinf⟩ := round_near (decide (S < 0)) S.natAbs 1 Nat.one_pos
  set r := round (decide (S < 0)) S.natAbs 1 with hr
  have hsign : sign r = decide (S < 0) := sign_round ..
  refine ⟨fun hf c hc => ?_, by rw [hover, Nat.mul_one], fun hf => ⟨hinf hf, hsign⟩⟩
  obtain ⟨hc1, hc2⟩ := hnear hf c hc
  obtain ⟨hz1, hz2⟩ := hnear hf posZero (by decide)
  rw [show mag posZero = 0 by decide] at hz1 hz2
  have hur : units r = if S < 0 then -(mag r : Int) else mag r := by simp [units, hsign]
  have huc : units c = (mag c : Int) ∨ units c = -(mag c : Int) := by
    unfold units; split
    · exact .inr rfl
    · exact .inl rfl
  rw [hur]
  split <;> rcases huc with huc | huc <;> rw [huc] <;> omega

theorem fadd_rounded (ha : isFinite a = true) (hb : isFinite b = true) :
    SumRounded (units a + units b) (fadd d a b) := by
  rw [fadd_finite d ha hb]
  split
  · next hzero =>
    rw [hzero]
    split
    · exact sumRounded_zero (by decide) (by decide)
    · exact sumRounded_zero (by decide) (by decide)
  · exact sumRounded_round _

/-- Settles O51: an exact sum that is not zero is rounded as a magnitude with its sign. -/
theorem additionRoundsToNearestEven : Obligations.AdditionRoundsToNearestEven :=
  fun d _ _ ha hb => fadd_rounded d ha hb

/-- Settles O59: a difference is the sum with the negated operand. -/
theorem subtractionRoundsToNearestEven : Obligations.SubtractionRoundsToNearestEven := by
  intro d a b ha hb
  have h := fadd_rounded d ha ((isFinite_negate b).trans hb)
  rwa [units_negate, ← sub_eq_add_neg] at h

/-! Products and quotients. -/

/-- Settles O52: a product is the product of the magnitudes, in units of 2^-298, rounded with its sign. -/
theorem multiplicationRoundsToNearestEven : Obligations.MultiplicationRoundsToNearestEven := by
  intro d a b ha hb
  rw [fmul_finite d ha hb]
  obtain ⟨hnear, hover, hinf⟩ := round_near (sign a != sign b) (mag a * mag b) (2 ^ 149) (by norm_num)
  push_cast at hnear
  exact ⟨sign_round .., hnear, hover, hinf⟩

/-- Settles O60: a quotient is the quotient of the magnitudes rounded with its sign. -/
theorem divisionRoundsToNearestEven : Obligations.DivisionRoundsToNearestEven := by
  intro d a b ha hb hz
  rw [fdiv_finite d ha hb hz]
  obtain ⟨hnear, hover, hinf⟩ := round_near (sign a != sign b) (mag a * 2 ^ 149) (mag b) (Nat.pos_of_ne_zero hz)
  push_cast at hnear
  exact ⟨sign_round .., hnear, hover, hinf⟩

end Sys2Proof.F32
end

section
/-! NaN results, exact zero sums and infinities (20_memory.md R62, R63). -/

namespace Sys2Proof.F32

variable (d : NaNBits) {a b : F32}

/-- Sign, exponent and fraction are the whole pattern (R12). -/
theorem eq_of_parts (hs : sign a = sign b) (he : expo a = expo b) (hf : frac a = frac b) : a = b := by
  have ha := a.isLt
  have hb := b.isLt
  apply BitVec.eq_of_toNat_eq
  simp only [sign, BitVec.msb_eq_decide, decide_eq_decide] at hs
  unfold expo at he
  unfold frac at hf
  omega

theorem inf_parts (h : isInf a = true) : expo a = 255 ∧ frac a = 0 := by
  simpa [isInf] using h

theorem inf_not_nan (h : isInf a = true) : isNaN a = false := by
  simp [isNaN, (inf_parts h).2]

theorem inf_not_finite (h : isInf a = true) : isFinite a = false := by
  simp [isFinite, (inf_parts h).1]

theorem inf_mag_ne_zero (h : isInf a = true) : mag a ≠ 0 := fun hz =>
  Bool.false_ne_true ((inf_not_finite h).symm.trans (finite_of_mag_zero a hz))

theorem isInf_negate (x : F32) : isInf (negate x) = isInf x := by
  rw [isInf, (negate_parts x).1, (negate_parts x).2.1, ← isInf]

/-- The pattern of an infinity of either sign (R12). -/
theorem isInf_ofParts (neg : Bool) : isInf (ofParts neg (255 * 2 ^ 23)) = true := by cases neg <;> decide

theorem sign_inf_ofParts (neg : Bool) : sign (ofParts neg (255 * 2 ^ 23)) = neg := sign_ofParts (by decide)

/-! Sums with an infinity. -/

theorem fadd_inf_left (ha : isInf a = true) (hb : isNaN b = false) (h : isInf b = false ∨ sign a = sign b) :
    fadd d a b = a := by
  have hopp : (isInf b && sign a != sign b) = false := by
    rcases h with h | h <;> simp [h]
  simp [fadd, inf_not_nan ha, hb, ha, hopp]

theorem fadd_inf_right (ha : isInf a = true) (hb : isNaN b = false) (h : isInf b = false ∨ sign a = sign b) :
    fadd d b a = a := by
  by_cases hib : isInf b = true
  · -- two infinities of one sign are one pattern
    have hsign : sign a = sign b := h.resolve_left (by simp [hib])
    rw [fadd_inf_left d hib (inf_not_nan ha) (.inr hsign.symm)]
    obtain ⟨hea, hfa⟩ := inf_parts ha
    obtain ⟨heb, hfb⟩ := inf_parts hib
    exact eq_of_parts hsign.symm (heb.trans hea.symm) (hfb.trans hfa.symm)
  · simp [fadd, inf_not_nan ha, hb, ha, hib]

theorem fadd_inf_opposite (ha : isInf a = true) (hb : isInf b = true) (h : sign a ≠ sign b) :
    fadd d a b = nan d := by
  simp [fadd, inf_not_nan ha, inf_not_nan hb, ha, hb, h]

/-! Products with an infinity. -/

theorem fmul_inf (hinf : isInf a = true ∨ isInf b = true) (ha : isNaN a = false) (hb : isNaN b = false)
    (hza : mag a ≠ 0) (hzb : mag b ≠ 0) : fmul d a b = ofParts (sign a != sign b) (255 * 2 ^ 23) := by
  have hor : (isInf a || isInf b) = true := by rcases hinf with h | h <;> simp [h]
  simp [fmul, ha, hb, hor, hza, hzb]

theorem fmul_inf_zero (hinf : isInf a = true ∨ isInf b = true) (ha : isNaN a = false) (hb : isNaN b = false)
    (hz : mag a = 0 ∨ mag b = 0) : fmul d a b = nan d := by
  have hor : (isInf a || isInf b) = true := by rcases hinf with h | h <;> simp [h]
  simp only [fmul, ha, hb, hor]
  rcases hz with h | h <;> simp [h]

/-- Settles O53: each invalid operation is the drawn NaN, and every NaN pattern can be drawn. -/
theorem invalidOperationsGiveAnyNaN : Obligations.InvalidOperationsGiveAnyNaN := by
  refine ⟨fun d a b h => ?_, fun d a b ha hb hs => ?_, fun d a b hz hb => ?_, fun x hx => ?_⟩
  · rw [fadd_nan d a b h, fsub_nan d a b h, fmul_nan d a b h, fdiv_nan d a b h]
    exact ⟨isNaN_nan d, isNaN_nan d, isNaN_nan d, isNaN_nan d⟩
  · have hopp : sign a ≠ sign (negate b) := by rw [(negate_parts b).2.2, hs]; cases sign b <;> decide
    rw [fsub, fadd_inf_opposite d ha ((isInf_negate b).trans hb) hopp]
    exact isNaN_nan d
  · have ha := finite_not_nan a (finite_of_mag_zero a hz)
    rw [fmul_inf_zero d (.inr hb) ha (inf_not_nan hb) (.inl hz),
      fmul_inf_zero d (.inl hb) (inf_not_nan hb) ha (.inr hz)]
    exact ⟨isNaN_nan d, isNaN_nan d⟩
  · obtain ⟨d, rfl⟩ := nan_surjective hx
    exact ⟨d, fun a b ha => fadd_nan d a b (.inl ha)⟩

/-- Settles O54: an exact zero sum is `+0.0` unless both operands are negative, and a value and its negation are not. -/
theorem exactZeroSumsArePositiveZero : Obligations.ExactZeroSumsArePositiveZero := by
  have zero_sum (d : NaNBits) {a b : F32} (ha : isFinite a = true) (hb : isFinite b = true)
      (hsum : units a + units b = 0) (hsign : (sign a && sign b) = false) : fadd d a b = 0x00000000#32 := by
    rw [fadd_finite d ha hb, if_pos hsum, hsign]
    rfl
  refine ⟨fun d x hx => ?_, fun d => zero_sum d (by decide) (by decide) (by decide) (by decide)⟩
  refine zero_sum d hx ((isFinite_negate x).trans hx) ?_ ?_
  · rw [units_negate, add_neg_cancel]
  · rw [(negate_parts x).2.2, Bool.and_not_self]

/-- Settles O55: the four results are the operand's infinity and the infinity of the product's sign. -/
theorem infinitiesPropagate : Obligations.InfinitiesPropagate := by
  intro d a b ha hb
  refine ⟨fun h => ⟨fadd_inf_left d ha hb h, fadd_inf_right d ha hb h⟩, fun hz => ?_⟩
  rw [fmul_inf d (.inl ha) (inf_not_nan ha) hb (inf_mag_ne_zero ha) hz,
    fmul_inf d (.inr ha) hb (inf_not_nan ha) hz (inf_mag_ne_zero ha)]
  exact ⟨isInf_ofParts _, isInf_ofParts _, sign_inf_ofParts _, by rw [sign_inf_ofParts, bne_comm]⟩

end Sys2Proof.F32
end

section
/-! Exact results (20_memory.md R62, 42_spectrum.md R140): a magnitude that binary32 holds is not rounded. -/

namespace Sys2Proof.F32

/-- Rounding a ratio that is a finite magnitude gives that magnitude. -/
theorem round_exact (neg : Bool) {num den : Nat} (hden : 0 < den) {c : F32} (hc : isFinite c = true)
    (hnum : num = mag c * den) :
    isFinite (round neg num den) = true ∧ mag (round neg num den) = mag c := by
  obtain ⟨hnear, hover, -⟩ := round_near neg num den hden
  have hfin : isFinite (round neg num den) = true := by
    rw [← Bool.not_eq_false, hover, hnum]
    intro h
    have hle := Nat.le_of_mul_le_mul_right h hden
    have := mag_le hc
    omega
  refine ⟨hfin, ?_⟩
  obtain ⟨hle, -⟩ := hnear hfin c hc
  rw [hnum] at hle
  push_cast at hle
  rw [sub_self, Int.natAbs_zero, Nat.le_zero, Int.natAbs_eq_zero, ← sub_mul, mul_eq_zero] at hle
  have hden' : (den : Int) ≠ 0 := by exact_mod_cast hden.ne'
  have := hle.resolve_right hden'
  rw [← hnum] at this
  omega

/-- A magnitude divided by a power of two that divides it is a magnitude (R12). -/
theorem exists_mag_div {m : F32} (hm : isFinite m = true) {j q : Nat} (h : mag m = 2 ^ j * q) :
    ∃ c, isFinite c = true ∧ mag c = q := by
  obtain ⟨M, k, hMk, hM⟩ := mag_form m
  have hle : q ≤ (2 ^ 24 - 1) * 2 ^ 253 :=
    le_trans (le_trans (Nat.le_mul_of_pos_left q (by positivity)) h.ge) (mag_le hm)
  rcases le_total j k with hjk | hkj
  · -- the power of two is taken from the exponent
    refine exists_of_form M (k - j) q ?_ hM hle
    have h2 : 2 ^ j * q = 2 ^ j * (M * 2 ^ (k - j)) := by
      rw [← h, hMk, ← Nat.pow_sub_mul_pow 2 hjk]; ring
    exact Nat.eq_of_mul_eq_mul_left (by positivity) h2
  · -- it takes some of the fraction's bits too
    refine exists_of_form q 0 q (by simp) ?_ hle
    have h2 : M = 2 ^ (j - k) * q := by
      apply Nat.eq_of_mul_eq_mul_right (show 0 < 2 ^ k by positivity)
      rw [← hMk, h, ← Nat.pow_sub_mul_pow 2 hkj]; ring
    exact lt_of_le_of_lt (h2 ▸ Nat.le_mul_of_pos_left q (by positivity)) hM

/-- A power of two in the range of the bin counts is held exactly (R140). -/
theorem ofNat_two_pow {k : Nat} (hk : k ≤ 15) :
    isFinite (ofNat (2 ^ k)) = true ∧ mag (ofNat (2 ^ k)) = 2 ^ k * 2 ^ 149 ∧ sign (ofNat (2 ^ k)) = false := by
  have hle : 2 ^ k * 2 ^ 149 ≤ (2 ^ 24 - 1) * 2 ^ 253 :=
    Nat.mul_le_mul (le_trans (Nat.pow_le_pow_right (by norm_num) hk) (by norm_num)) (by norm_num)
  obtain ⟨c, hc, hmag⟩ := exists_of_form 1 (k + 149) (2 ^ k * 2 ^ 149) (by rw [one_mul, pow_add]) (by norm_num) hle
  obtain ⟨hfin, hround⟩ := round_exact false Nat.one_pos hc (by rw [hmag, mul_one])
  exact ⟨hfin, hround.trans hmag, sign_round ..⟩

/-- A magnitude over itself is rounded to the word 1.0. -/
theorem round_self {n : Nat} (hn : 0 < n) : round false (n * 2 ^ 149) n = 0x3F800000#32 := by
  have hshift : shiftFor (n * 2 ^ 149) n = 126 := by
    rw [shiftFor, Nat.mul_div_cancel_left _ hn, Nat.log2_two_pow]
  have hsplit : n * 2 ^ 149 = n * 2 ^ 126 * 2 ^ 23 := by ring
  have heven : roundEven (n * 2 ^ 149) (n * 2 ^ 126) = 2 ^ 23 := by
    have hpos : 0 < n * 2 ^ 126 := by positivity
    rw [roundEven, hsplit, Nat.mul_mod_right, Nat.mul_div_cancel_left _ hpos, if_neg (by omega)]
  have hmag : roundMag (n * 2 ^ 149) n = 127 * 2 ^ 23 := by
    rw [roundMag, hshift, heven]
    norm_num
  rw [round, hmag]
  decide

end Sys2Proof.F32
end

section
/-! The frame's values (42_spectrum.md R138, R140, R141, R143, R146). -/

namespace Sys2Proof.Machine

variable {P : Params}

/-- The bin count is a power of two from 4 to 32768 (R6). -/
theorem nbin_eq_two_pow (hP : P.Valid) : ∃ k, k ≤ 15 ∧ P.nbin = 2 ^ k := by
  have hge := hP.fft_ge
  have hle := hP.fft_le
  have hpow := hP.fft_pow
  have hlog : P.fftSize.log2 < 17 := (Nat.log2_lt (by omega)).2 (by omega)
  obtain ⟨k, hk⟩ : ∃ k, P.fftSize.log2 = k + 1 := ⟨P.fftSize.log2 - 1, by
    have : P.fftSize.log2 ≠ 0 := fun h => by rw [h] at hpow; omega
    omega⟩
  refine ⟨k, by omega, ?_⟩
  rw [hk, pow_succ] at hpow
  show P.fftSize / 2 = 2 ^ k
  omega

/-- The divisor of the normalisation is a finite word that is not zero, and holds the bin count exactly (R140). -/
theorem nbin_word (hP : P.Valid) : F32.isFinite (F32.ofNat P.nbin) = true ∧
    F32.mag (F32.ofNat P.nbin) = P.nbin * 2 ^ 149 ∧ F32.sign (F32.ofNat P.nbin) = false ∧
    F32.mag (F32.ofNat P.nbin) ≠ 0 := by
  obtain ⟨k, hk, hnbin⟩ := nbin_eq_two_pow hP
  obtain ⟨hfin, hmag, hsign⟩ := F32.ofNat_two_pow hk
  rw [hnbin]
  exact ⟨hfin, hmag, hsign, by rw [hmag]; positivity⟩

/-! Values that become the floor. -/

/-- A normalised value that is a zero or not finite gives the floor (R140, R141). -/
theorem decibel_normalise_floor {d : NaNBits} {m : F32}
    (h : F32.isFinite (P.NUM.fdiv d m (F32.ofNat P.nbin)) = false ∨
      F32.mag (P.NUM.fdiv d m (F32.ofNat P.nbin)) = 0) : decibel P (normalise P d m) = P.floorDb := by
  refine decibel_floor (F32.gtZero_of_mag_zero _ ?_)
  show F32.mag (if F32.isFinite (P.NUM.fdiv d m (F32.ofNat P.nbin)) then _ else F32.posZero) = 0
  split
  · next hfin => exact h.resolve_left (Bool.not_eq_false _ ▸ hfin)
  · decide

/-- A magnitude that is not finite has a quotient that is not finite (R62). -/
theorem fdiv_not_finite (d : NaNBits) {a b : F32} (ha : F32.isFinite a = false) (hb : F32.isFinite b = true) :
    F32.isFinite (F32.fdiv d a b) = false := by
  by_cases hnan : F32.isNaN a = true
  · rw [F32.fdiv_nan d a b (.inl hnan)]
    exact F32.not_finite_of_nan (F32.isNaN_nan d)
  · have hinf : F32.isInf a = true := by
      have hexpo : F32.expo a = 255 := by simpa [F32.isFinite] using ha
      have hfrac : F32.frac a = 0 := by simpa [F32.isNaN, hexpo] using hnan
      simp [F32.isInf, hexpo, hfrac]
    have hdiv : F32.fdiv d a b = F32.ofParts (F32.sign a != F32.sign b) (255 * 2 ^ 23) := by
      simp [F32.fdiv, hnan, hinf, F32.finite_not_nan b hb, F32.finite_not_inf b hb]
    rw [hdiv]
    exact F32.inf_not_finite (F32.isInf_ofParts _)

/-- Settles O45: the quotient is not finite either. -/
theorem nonFiniteMagnitudeGivesTheFloor : Obligations.NonFiniteMagnitudeGivesTheFloor := by
  intro P d m hP hnum hm
  refine decibel_normalise_floor (.inl ?_)
  rw [NUM_of_ieee754 hnum]
  exact fdiv_not_finite d hm (nbin_word hP).1

/-- A zero magnitude gives the floor in the default arithmetic (R140, R141). -/
theorem decibel_normalise_zero (hP : P.Valid) (hnum : P.num = .ieee754) (d : NaNBits) {m : F32} (hm : F32.mag m = 0) :
    decibel P (normalise P d m) = P.floorDb := by
  obtain ⟨hfin, -, -, hne⟩ := nbin_word hP
  refine decibel_normalise_floor (.inr ?_)
  rw [NUM_of_ieee754 hnum]
  exact F32.mag_fdiv_zero d m _ hm hfin hne

/-- Every entry a list gives, the default included, is a zero if the list's entries are. -/
theorem mag_getD_zero {xs : List F32} (h : ∀ x ∈ xs, F32.mag x = 0) (n : Nat) :
    F32.mag (xs.getD n F32.posZero) = 0 := by
  by_cases hn : n < xs.length
  · rw [List.getD_eq_getElem _ _ hn]
    exact h _ (List.getElem_mem hn)
  · rw [List.getD_eq_default _ _ (Nat.not_lt.1 hn)]
    decide

/-- The window entry of an index is finite (R6). -/
theorem win_getD_finite (hP : P.Valid) (n : Nat) : F32.isFinite (P.win.getD n F32.posZero) = true := by
  by_cases hn : n < P.win.length
  · rw [List.getD_eq_getElem _ _ hn]
    exact hP.win_finite _ (List.getElem_mem hn)
  · rw [List.getD_eq_default _ _ (Nat.not_lt.1 hn)]
    decide

/-- The windowed copy of zeros is zeros (R138). -/
theorem windowed_zero (hP : P.Valid) (hnum : P.num = .ieee754) {roll : List F32} (h : ∀ x ∈ roll, F32.mag x = 0) :
    ∀ x ∈ windowed P roll, F32.mag x = 0 := by
  intro x hx
  obtain ⟨n, -, rfl⟩ := List.mem_map.1 hx
  have hz := mag_getD_zero h n
  rw [NUM_of_ieee754 hnum]
  exact F32.mag_fmul_zero _ _ _ (F32.finite_of_mag_zero _ hz) (win_getD_finite hP n) hz

/-- A buffer of zeros gives a frame of floors (R141, `FFTMAG_ZERO`). -/
theorem frameOf_zero (hP : P.Valid) (hnum : P.num = .ieee754) {roll : List F32} (h : ∀ x ∈ roll, F32.mag x = 0) :
    frameOf P roll = List.replicate P.nbin P.floorDb := by
  have hM := P.NUM.fftmag.zero _ (windowed_zero hP hnum h)
  refine List.eq_replicate_iff.2 ⟨frameOf_length roll, fun x hx => ?_⟩
  obtain ⟨k, -, rfl⟩ := List.mem_map.1 hx
  exact decibel_normalise_zero hP hnum _ (mag_getD_zero hM k)

/-- Settles O43: zeros of both signs have magnitude 0. -/
theorem silenceGivesTheFloor : Obligations.SilenceGivesTheFloor := by
  intro P roll hP hnum h
  refine frameOf_zero hP hnum fun x hx => ?_
  rcases h x hx with rfl | rfl
  · decide
  · decide

/-- Settles O42: `frameOf_good` says it. -/
theorem frameEntriesAreFiniteAndAboveFloor : Obligations.FrameEntriesAreFiniteAndAboveFloor :=
  fun _ roll hP => frameOf_good hP roll

/-- Settles O44: the windowed copy, its transform and the buffer's draws are those of `frameOf`. -/
theorem frameFollowsTheStepsOfSpec : Obligations.FrameFollowsTheStepsOfSpec := by
  intro P roll hP hroll
  have hlen : (P.NUM.fftmag.f (windowed P roll)).length = P.nbin := by
    rw [P.NUM.fftmag.length, windowed_length]; rfl
  refine ⟨windowed P roll, _, Config.specNaN roll, fun k => Config.specNaN roll (P.fftSize + k), rfl,
    windowed_length roll, hlen, frameOf_length roll, fun n x w hx hw => ?_, fun k m hm => ?_⟩
  · have hn : n < P.fftSize := by rw [← hroll]; exact (List.getElem?_eq_some_iff.1 hx).1
    simp [windowed, hn, hx, hw]
  · have hk : k < P.nbin := by rw [← hlen]; exact (List.getElem?_eq_some_iff.1 hm).1
    rw [frameOf_getElem? roll hk, List.getD_eq_getElem?_getD, hm]
    rfl

/-! Exact division. -/

/-- Settles O46: the quotient is a magnitude that binary32 holds, so that it is not rounded. -/
theorem divisionByBinCountIsExact : Obligations.DivisionByBinCountIsExact := by
  intro P d m hP hm hdvd
  obtain ⟨hfin, hmag, hsign, hne⟩ := nbin_word hP
  obtain ⟨k, -, hnbin⟩ := nbin_eq_two_pow hP
  obtain ⟨q, hq⟩ := hdvd
  obtain ⟨c, hc, hcq⟩ := F32.exists_mag_div hm (hq.trans (by rw [hnbin]))
  rw [F32.fdiv_finite d hm hfin hne, hmag, hsign]
  have hpos : 0 < P.nbin * 2 ^ 149 := by rw [hnbin]; positivity
  have hnum : F32.mag m * 2 ^ 149 = F32.mag c * (P.nbin * 2 ^ 149) := by rw [hq, hcq]; ring
  obtain ⟨hfin', hmag'⟩ := F32.round_exact (F32.sign m != false) hpos hc hnum
  refine ⟨hfin', ?_, ?_⟩
  · rw [hmag', hcq, hq, Nat.mul_comm]
  · rw [F32.sign_round, Bool.bne_false]

/-- Settles O47: the quotient is the word 1.0, whose decibel value `DB20_ONE` gives, and the floor is below it. -/
theorem unitMagnitudeGivesZeroDecibels : Obligations.UnitMagnitudeGivesZeroDecibels := by
  intro P d hP hnum
  obtain ⟨hfin, -, hsign, hne⟩ := nbin_word hP
  have hdiv : P.NUM.fdiv d (F32.ofNat P.nbin) (F32.ofNat P.nbin) = 0x3F800000#32 := by
    rw [NUM_of_ieee754 hnum]
    show F32.fdiv d _ _ = _
    rw [F32.fdiv_finite d hfin hfin hne, hsign]
    exact F32.round_self (Nat.pos_of_ne_zero hne)
  have hone : normalise P d (F32.ofNat P.nbin) = 0x3F800000#32 := by
    show (if F32.isFinite (P.NUM.fdiv d _ _) then P.NUM.fdiv d _ _ else F32.posZero) = _
    rw [hdiv]
    decide
  rw [hone, decibel, if_pos (by decide), P.NUM.db20.one, F32.fmax, if_pos]
  · rfl
  · exact lt_of_lt_of_le hP.floor_neg (by decide)

end Sys2Proof.Machine
end

section
/-! What a command does, once: the channels it leaves and the answer it gives, as functions (30_encoding.md R73,
R76). -/

namespace Sys2Proof.Machine

/-- A FIFO after the consumer's read, whether it was empty or not (R122, R145). -/
def Ring.afterPop (K : Nat) (f : Ring) : Ring := if f.wr = f.rd then f else { f with rd := ringNext K f.rd }

/-- A channel after a command, under the parameters of the block. -/
def chanAfter (P : Params) : Instr → Ch → Channel → Channel
  | .nop _, _, g => g
  | .upd chm idx k, c, g => if selects chm c then g.onSec idx fun x => { x with cur := k } else g
  | .byp chm idx b, c, g => if selects chm c then g.onSec idx fun x => { x with bypc := b } else g
  | .proc d xs, c, g => if c = d then g.proc P.NUM c xs else g
  | .push d xs, c, g => if c = d then { g with sf := g.sf.push P.cap xs } else g
  | .rdc _ _ _, _, g => g
  | .pop d, c, g => if c = d then { g with sf := g.sf.afterPop P.cap } else g
  | .feed d xs, c, g => if c = d then { g with roll := feedRoll g.roll xs } else g
  | .spec d, c, g => if c = d then { g with ff := g.ff.push P.frameCap (frameOf P g.roll) } else g
  | .fpop d, c, g => if c = d then { g with ff := g.ff.afterPop P.frameCap } else g
  | .rderr _, _, g => g

/-- The answer to a consumer's read: the oldest unit, or `NODATA` (R122, R145). -/
def popAnswer (K : Nat) (f : Ring) : Status × List Word := (f.pop K).elim (.noData, []) fun x => (.ok, x.1)

/-- The status and payload a command answers, from the channels and its port's error register. -/
def answerOf (P : Params) (chan : Ch → Channel) (err : BitVec 4) : Instr → Status × List Word
  | .nop _ => (.ok, [])
  | .upd _ _ _ => (.ok, [])
  | .byp _ _ _ => (.ok, [])
  | .proc c xs => (.ok, (chan c).procOut P.NUM c xs)
  | .push _ _ => (.ok, [])
  | .rdc _ c idx => (.ok, wordsOf ((chan c).secAt idx).cur ++ [flagWord ((chan c).secAt idx).bypc])
  | .pop c => popAnswer P.cap (chan c).sf
  | .feed _ _ => (.ok, [])
  | .spec _ => (.ok, [])
  | .fpop c => popAnswer P.frameCap (chan c).ff
  | .rderr _ => (.ok, [errWord err])

/-- A change made to each channel. -/
def State.onChans (s : State) (f : Ch → Channel → Channel) : State :=
  { s with ch0 := f .ch0 s.ch0, ch1 := f .ch1 s.ch1 }

/-- What a command answers in a state. -/
def State.answer (s : State) (i : Instr) : Status × List Word := answerOf s.par s.chan (s.port i.port).err i

/-- The state after a command: its channels, and one more response on its port. -/
def State.afterCommand (s : State) (i : Instr) : State :=
  (s.onChans (chanAfter s.par i)).respond i.port i.op.code (s.answer i).1 (s.answer i).2

/-! The definitions above, said once; later proofs go through these equations. -/

theorem Ring.afterPop_eq (K : Nat) (f : Ring) :
    f.afterPop K = if f.wr = f.rd then f else { f with rd := ringNext K f.rd } := rfl

theorem popAnswer_eq (K : Nat) (f : Ring) : popAnswer K f = (f.pop K).elim (.noData, []) fun x => (.ok, x.1) := rfl

theorem afterCommand_eq (s : State) (i : Instr) : s.afterCommand i =
    (s.onChans (chanAfter s.par i)).respond i.port i.op.code (s.answer i).1 (s.answer i).2 := rfl

section Parts
variable (s : State) (f : Ch → Channel → Channel) (c : Ch) (p : Port) (i : Instr)

@[simp] theorem par_onChans : (s.onChans f).par = s.par := rfl
@[simp] theorem sched_onChans : (s.onChans f).sched = s.sched := rfl
@[simp] theorem port_onChans : (s.onChans f).port p = s.port p := by cases p <;> rfl
@[simp] theorem chan_onChans : (s.onChans f).chan c = f c (s.chan c) := by cases c <;> rfl

theorem setChan_eq_onChans (h : Channel → Channel) :
    s.setChan c (h (s.chan c)) = s.onChans fun d g => if d = c then h g else g := by cases c <;> rfl

@[simp] theorem par_afterCommand : (s.afterCommand i).par = s.par := par_respond ..
@[simp] theorem sched_afterCommand : (s.afterCommand i).sched = s.sched := sched_respond ..
@[simp] theorem chan_afterCommand : (s.afterCommand i).chan c = chanAfter s.par i c (s.chan c) := by
  rw [afterCommand_eq, chan_respond, chan_onChans]

/-- What the answer of every command does and does not do. -/
theorem answers_afterCommand :
    s.Answers (s.afterCommand i) i.port (response i.op.code (s.answer i).1 (s.answer i).2) :=
  answers_of_same _ _ _ _ (par_onChans ..) (sched_onChans ..) (port_onChans s _)

/-- The same with the answer given. -/
theorem answers_of_answer {s : State} {i : Instr} {st : Status} {ws : List Word} (h : s.answer i = (st, ws)) :
    s.Answers (s.afterCommand i) i.port (response i.op.code st ws) := by
  have hA := answers_afterCommand s i
  rwa [h] at hA

/-- An answered response is its port's newest. -/
theorem lastResponse_of_answers {s t : State} {p : Port} {r : Packet} (h : s.Answers t p r) :
    t.lastResponse p = some r := by
  rw [State.lastResponse, h.responses, List.getLast?_concat]

@[simp] theorem err_afterCommand : ((s.afterCommand i).port p).err = (s.port p).err :=
  (answers_afterCommand s i).err p

/-- A command's answer goes to its own port, and nothing else of that port changes. -/
theorem port_afterCommand : (s.afterCommand i).port i.port = { s.port i.port with
    responses := (s.port i.port).responses ++ [response i.op.code (s.answer i).1 (s.answer i).2] } := by
  rw [afterCommand_eq, State.respond, port_setPort, port_onChans]

@[simp] theorem port_afterCommand_other : (s.afterCommand i).port (otherPort i.port) = s.port (otherPort i.port) := by
  rw [afterCommand_eq, State.respond, port_setPort_other, port_onChans]

theorem lastResponse_afterCommand :
    (s.afterCommand i).lastResponse i.port = some (response i.op.code (s.answer i).1 (s.answer i).2) :=
  lastResponse_respond ..

end Parts

/-! The consumer's read by its two outcomes. -/

/-- A read finds nothing exactly when the indices are equal, and else leaves the read index advanced (R122). -/
theorem Ring.pop_eq (K : Nat) (f : Ring) :
    f.pop K = if f.wr = f.rd then none else some (f.slotRead K f.rd, f.afterPop K) := by
  by_cases h : f.wr = f.rd
  · rw [Ring.pop, if_pos h, if_pos h]
  · rw [Ring.pop, if_neg h, if_neg h, Ring.afterPop_eq, if_neg h]

theorem Ring.afterPop_of_none {K : Nat} {f : Ring} (h : f.pop K = none) : f.afterPop K = f := by
  by_cases he : f.wr = f.rd
  · rw [Ring.afterPop_eq, if_pos he]
  · rw [Ring.pop_eq, if_neg he] at h; cases h

theorem Ring.afterPop_of_some {K : Nat} {f g : Ring} {v : List F32} (h : f.pop K = some (v, g)) :
    f.afterPop K = g := by
  by_cases he : f.wr = f.rd
  · rw [Ring.pop_eq, if_pos he] at h; cases h
  · rw [Ring.pop_eq, if_neg he] at h; exact congrArg Prod.snd (Option.some.inj h)

theorem popAnswer_of_none {K : Nat} {f : Ring} (h : f.pop K = none) : popAnswer K f = (.noData, []) := by
  rw [popAnswer_eq, h, Option.elim_none]

theorem popAnswer_of_some {K : Nat} {f g : Ring} {v : List F32} (h : f.pop K = some (v, g)) :
    popAnswer K f = (.ok, v) := by
  rw [popAnswer_eq, h, Option.elim_some]

@[simp] theorem Ring.afterPop_slots (K : Nat) (f : Ring) : (f.afterPop K).slots = f.slots := by
  rw [Ring.afterPop_eq, apply_ite Ring.slots, ite_self]
@[simp] theorem Ring.afterPop_wr (K : Nat) (f : Ring) : (f.afterPop K).wr = f.wr := by
  rw [Ring.afterPop_eq, apply_ite Ring.wr, ite_self]

/-- A state that answers what the command answers, its channels being what the command leaves. -/
theorem respond_eq_afterCommand {s t : State} {i : Instr} {st : Status} {ws : List Word}
    (hchan : t = s.onChans (chanAfter s.par i)) (hanswer : s.answer i = (st, ws)) :
    t.respond i.port i.op.code st ws = s.afterCommand i := by
  rw [afterCommand_eq, hanswer, hchan]

/-- A consumer's read that finds nothing leaves every channel. -/
theorem onChans_of_unchanged {s : State} {c : Ch} {h : Channel → Channel} (hc : h (s.chan c) = s.chan c) :
    s = s.onChans fun d g => if d = c then h g else g := by
  rw [← setChan_eq_onChans, hc, setChan_chan]

/-- Every command answers a next state, the one its effect and its answer name. -/
theorem exec_eq (i : Instr) (s : State) : exec i s = .next (s.afterCommand i) := by
  cases i with
  | nop p => rfl
  | upd chm idx k => rfl
  | byp chm idx b => rfl
  | proc c xs => cases c <;> rfl
  | push c xs => cases c <;> rfl
  | rdc p c idx => rfl
  | pop c =>
    show execPop c s = _
    cases h : (s.chan c).sf.pop s.par.cap with
    | none =>
      have hc : { s.chan c with sf := (s.chan c).sf.afterPop s.par.cap } = s.chan c := by
        rw [Ring.afterPop_of_none h]
      rw [execPop_none h]
      exact congrArg _ (respond_eq_afterCommand (i := .pop c) (onChans_of_unchanged hc) (popAnswer_of_none h))
    | some x =>
      rw [execPop_some h, ← Ring.afterPop_of_some h]
      have hc := setChan_eq_onChans s c fun g => { g with sf := g.sf.afterPop s.par.cap }
      exact congrArg _ (respond_eq_afterCommand (i := .pop c) hc (popAnswer_of_some h))
  | feed c xs => cases c <;> rfl
  | spec c => cases c <;> rfl
  | fpop c =>
    show execFpop c s = _
    cases h : (s.chan c).ff.pop s.par.frameCap with
    | none =>
      have hc : { s.chan c with ff := (s.chan c).ff.afterPop s.par.frameCap } = s.chan c := by
        rw [Ring.afterPop_of_none h]
      rw [execFpop_none h]
      exact congrArg _ (respond_eq_afterCommand (i := .fpop c) (onChans_of_unchanged hc) (popAnswer_of_none h))
    | some x =>
      rw [execFpop_some h, ← Ring.afterPop_of_some h]
      have hc := setChan_eq_onChans s c fun g => { g with ff := g.ff.afterPop s.par.frameCap }
      exact congrArg _ (respond_eq_afterCommand (i := .fpop c) hc (popAnswer_of_some h))
  | rderr p => rfl

end Sys2Proof.Machine
end

section
/-! What a step does, once, and what follows for the ports, the parameters and the events without a packet
(20_memory.md R57, 30_encoding.md R76, 60_exceptions.md R192, R193, 70_reset_and_hazards.md R215). -/

namespace Sys2Proof.Machine

/-- The state after a port's packet, its command word and what it decodes to given (R57, R192). -/
def State.afterPacket (s : State) (p : Port) (w : Word) : Except CmdError Instr → State
  | .ok i => s.afterCommand i
  | .error e => s.refuse p w e

/-- A step that takes a packet executes or refuses it. -/
theorem step_packet {s : State} {p : Port} {rest : List Event} {pk : Packet} {more : List Packet}
    (hsched : s.sched = .port p :: rest) (hpending : (s.port p).pending = pk :: more) :
    step s = .next ((s.took p rest more).afterPacket p pk.word (decode s.par p pk)) := by
  cases hd : decode s.par p pk with
  | ok i => rw [step_ok hsched hpending hd, exec_eq]; rfl
  | error e => exact step_error hsched hpending hd

/-- `step_cases` read from the next state. -/
theorem step_next_cases {s t : State} (h : step s = .next t) :
    (s.sched = [] ∧ t = s) ∨ (∃ rest, s.sched = .reset :: rest ∧ t = State.onReset { s with sched := rest }) ∨
    (∃ p rest, s.sched = .port p :: rest ∧ (s.port p).pending = [] ∧ t = { s with sched := rest }) ∨
    (∃ p rest pk more, s.sched = .port p :: rest ∧ (s.port p).pending = pk :: more ∧
      t = (s.took p rest more).afterPacket p pk.word (decode s.par p pk)) := by
  have eq_of {u : State} (hu : step s = .next u) : t = u := by rw [h] at hu; injection hu
  have packet {p rest pk more} (hs : s.sched = .port p :: rest) (hp : (s.port p).pending = pk :: more) :
      t = (s.took p rest more).afterPacket p pk.word (decode s.par p pk) := eq_of (step_packet hs hp)
  rcases step_cases s with ⟨hs, ht⟩ | ⟨rest, hs, ht⟩ | ⟨p, rest, hs, hp, ht⟩ | ⟨p, rest, pk, more, i, hs, hp, -⟩ |
      ⟨p, rest, pk, more, e, hs, hp, -⟩
  · exact .inl ⟨hs, eq_of ht⟩
  · exact .inr (.inl ⟨rest, hs, eq_of ht⟩)
  · exact .inr (.inr (.inl ⟨p, rest, hs, hp, eq_of ht⟩))
  · exact .inr (.inr (.inr ⟨p, rest, pk, more, hs, hp, packet hs hp⟩))
  · exact .inr (.inr (.inr ⟨p, rest, pk, more, hs, hp, packet hs hp⟩))

/-! What a packet leaves alone, whatever it decodes to. -/

section Packet
variable (s : State) (p : Port) (w : Word) (d : Except CmdError Instr)

@[simp] theorem par_afterPacket : (s.afterPacket p w d).par = s.par := by
  cases d with
  | ok i => exact par_afterCommand s i
  | error e => exact par_refuse s p w e

@[simp] theorem sched_afterPacket : (s.afterPacket p w d).sched = s.sched := by
  cases d with
  | ok i => exact sched_afterCommand s i
  | error e => exact sched_refuse s p w e

variable {s p w d}

/-- A packet touches its own port only. -/
theorem port_afterPacket_other (hd : ∀ i, d = .ok i → i.port = p) :
    (s.afterPacket p w d).port (otherPort p) = s.port (otherPort p) := by
  cases d with
  | ok i => rw [← hd i rfl]; exact port_afterCommand_other s i
  | error e => exact port_refuse_other s p w e

/-- A packet changes an error register only where it is refused (R192). -/
theorem err_afterPacket (q : Port) : ((s.afterPacket p w d).port q).err = (s.port q).err ∨
    ∃ e, d = .error e ∧ q = p ∧ ((s.afterPacket p w d).port q).err = recordError (s.port q).err e := by
  cases d with
  | ok i => exact .inl (err_afterCommand s q i)
  | error e =>
    rcases port_eq_or_other p q with rfl | rfl
    · exact .inr ⟨e, rfl, rfl, err_refuse s q w e⟩
    · exact .inl (err_refuse_other s p w e)

/-- A packet changes a channel only by a command's effect. -/
theorem chan_afterPacket (c : Ch) : (s.afterPacket p w d).chan c = s.chan c ∨
    ∃ i, d = .ok i ∧ (s.afterPacket p w d).chan c = chanAfter s.par i c (s.chan c) := by
  cases d with
  | ok i => exact .inr ⟨i, rfl, chan_afterCommand s c i⟩
  | error e => exact .inl (chan_refuse s c p w e)

end Packet

/-- What is decoded from a packet of a port is sent on that port (R85). -/
theorem port_of_decode {P : Params} {p : Port} {pk : Packet} : ∀ i, decode P p pk = .ok i → i.port = p :=
  fun _ h => (decode_wf h).1

/-! Events. -/

/-- Settles O5: `step_ok` says it. -/
theorem stepExecutesDecodedCommand : Obligations.StepExecutesDecodedCommand := by
  intro s p rest pk more i hsched hpending hdecode
  exact step_ok hsched hpending hdecode

/-- Settles O8: the two kinds of idle step. -/
theorem blockWaitsForPackets : Obligations.BlockWaitsForPackets := by
  refine fun s => ⟨step_waits, fun p rest hsched hpending => ?_⟩
  rcases step_cases s with ⟨h, -⟩ | ⟨_, h, -⟩ | ⟨_, _, h, -, hstep⟩ | ⟨_, _, _, _, _, h, hp, -⟩ |
      ⟨_, _, _, _, _, h, hp, -⟩ <;> rw [hsched] at h <;> cases h
  · exact hstep
  · rw [hpending] at hp; cases hp
  · rw [hpending] at hp; cases hp

/-- Settles O9: each case of a step, executing a command included, answers a next state. -/
theorem stepNeverStops : Obligations.StepNeverStops := by
  intro s
  rcases step_cases s with ⟨-, h⟩ | ⟨_, -, h⟩ | ⟨_, _, -, -, h⟩ | ⟨_, _, _, _, i, -, -, -, h⟩ |
      ⟨_, _, _, _, _, -, -, -, h⟩
  · exact ⟨_, h⟩
  · exact ⟨_, h⟩
  · exact ⟨_, h⟩
  · exact ⟨_, h.trans (exec_eq i _)⟩
  · exact ⟨_, h⟩

/-- Settles O12: no case of a step writes the parameters. -/
theorem stepKeepsParameters : Obligations.StepKeepsParameters := by
  intro s t h
  rcases step_next_cases h with ⟨-, rfl⟩ | ⟨_, -, rfl⟩ | ⟨_, _, -, -, rfl⟩ | ⟨_, _, _, _, -, -, rfl⟩
  · rfl
  · rfl
  · rfl
  · rw [par_afterPacket, par_took]

/-- The step of a scheduled reset. -/
theorem step_reset {s : State} {rest : List Event} (h : s.sched = .reset :: rest) :
    step s = .next (State.onReset { s with sched := rest }) := by
  rcases step_cases s with ⟨h', -⟩ | ⟨_, h', hstep⟩ | ⟨_, _, h', -⟩ | ⟨_, _, _, _, _, h', -⟩ |
      ⟨_, _, _, _, _, h', -⟩ <;> rw [h] at h' <;> cases h'
  exact hstep

/-- Settles O7: the step is the reset event, which builds both channels anew. -/
theorem resetEventSetsResetValues : Obligations.ResetEventSetsResetValues := by
  intro s rest h
  refine ⟨_, step_reset h, rfl, rfl, err_onReset _, fun c => ?_⟩
  rw [chan_onReset]
  exact ⟨secAt_reset _ _, rfl, rfl, rfl, rfl, rfl⟩

/-- Settles O11: of all steps but the reset only a refusal writes an error register, its own port's, and only
where the register holds 0. -/
theorem errorRegisterKeepsFirstCode : Obligations.ErrorRegisterKeepsFirstCode := by
  intro s t q h hreset
  have key : (t.port q).err = (s.port q).err ∨ ∃ pk e, s.sched.head? = some (.port q) ∧
      (s.port q).pending.head? = some pk ∧ decode s.par q pk = .error e ∧
      (t.port q).err = recordError (s.port q).err e := by
    rcases step_next_cases h with ⟨-, rfl⟩ | ⟨_, hs, -⟩ | ⟨_, _, -, -, rfl⟩ | ⟨p, rest, pk, more, hs, hp, rfl⟩
    · exact .inl rfl
    · rw [hs] at hreset; exact absurd rfl hreset
    · exact .inl (by cases q <;> rfl)
    · rcases err_afterPacket (s := s.took p rest more) (p := p) (w := pk.word)
          (d := decode s.par p pk) q with he | ⟨e, hd, rfl, he⟩
      · exact .inl (he.trans (err_took ..))
      · exact .inr ⟨pk, e, by rw [hs]; rfl, by rw [hp]; rfl, hd, by rw [he, err_took]⟩
  rcases key with he | ⟨pk, e, hs, hp, hd, he⟩
  · exact ⟨fun _ => he, fun hne => absurd he hne⟩
  · refine ⟨fun hne => by rw [he, record_ne_zero e hne], fun hne => ?_⟩
    have hzero : (s.port q).err = 0#4 := by
      by_contra hnz
      exact hne (by rw [he, record_ne_zero e hnz])
    exact ⟨pk, e, hs, hp, hd, hzero, by rw [he, hzero]; rfl⟩

/-! Responses. -/

/-- The status codes a response can carry (R77). -/
theorem status_code_mem (st : Status) : st.code ∈ [0#4, 1#4, 8#4, 9#4, 10#4, 11#4, 12#4, 13#4, 14#4] := by
  cases st with
  | ok => decide
  | noData => decide
  | error e => cases e <;> decide

/-- A response with a payload that the count field holds is well formed (R76). -/
theorem response_fields (opc : BitVec 4) (st : Status) {ws : List Word} (hws : ws.length ≤ 65535) :
    (response opc st ws).word.extractLsb' 28 4 = opc ∧
      ((response opc st ws).word.extractLsb' 24 4 ∈ [0#4, 1#4, 8#4, 9#4, 10#4, 11#4, 12#4, 13#4, 14#4]) ∧
      (response opc st ws).word.extractLsb' 16 8 = 0#8 ∧
      ((response opc st ws).word.extractLsb' 0 16).toNat = (response opc st ws).payload.length := by
  obtain ⟨h1, h2, h3, h4⟩ := responseWord_fields opc st.code (BitVec.ofNat 16 ws.length)
  refine ⟨h1, ?_, h3, ?_⟩
  · rw [show (response opc st ws).word.extractLsb' 24 4 = st.code from h2]; exact status_code_mem st
  · rw [show (response opc st ws).word.extractLsb' 0 16 = BitVec.ofNat 16 ws.length from h4]
    exact Laws.Encodes.len_field hws (Nat.le_refl _)

/-- A packet is answered once, with the packet's opcode, and the answer's count fits its field (R76). -/
theorem afterPacket_responds {s : State} {p : Port} {pk : Packet} (hi : s.Inv) :
    ∃ st ws, ((s.afterPacket p pk.word (decode s.par p pk)).port p).responses =
        (s.port p).responses ++ [response (fieldOpc pk.word) st ws] ∧ ws.length ≤ 65535 ∧
      ((s.afterPacket p pk.word (decode s.par p pk)).port p).pending = (s.port p).pending := by
  cases hd : decode s.par p pk with
  | ok i =>
    obtain ⟨rfl, hw, hop⟩ := decode_wf hd
    obtain ⟨t, st, ws, ht, hA, -, hlen⟩ := exec_answers_fit i s hi hw
    rw [exec_eq] at ht
    injection ht with ht
    subst ht
    exact ⟨st, ws, by rw [hop]; exact hA.responses, hlen, hA.pending _⟩
  | error e => exact ⟨.error e, [], responses_refuse s p pk.word e, Nat.zero_le _, pending_refuse ..⟩

/-- Settles O10: the step is the packet's, executed or refused, from the state in which it has been taken. -/
theorem everyPacketGetsOneResponse : Obligations.EveryPacketGetsOneResponse := by
  intro s p rest pk more hi hsched hpending
  obtain ⟨st, ws, hr, hlen, hpend⟩ := afterPacket_responds (p := p) (pk := pk) (inv_took p rest more hi)
  have hother : ((s.took p rest more).afterPacket p pk.word (decode s.par p pk)).port (otherPort p) =
      s.port (otherPort p) := (port_afterPacket_other port_of_decode).trans (port_took_other ..)
  rw [par_took] at hr hpend
  refine ⟨_, response (fieldOpc pk.word) st ws, step_packet hsched hpending, hr.trans (by rw [responses_took]),
    hpend.trans (pending_took ..), ?_, ?_, response_fields (fieldOpc pk.word) st hlen⟩
  · rw [hother]
  · rw [hother]

/-! The system commands. -/

/-- A command that leaves both channels leaves the block. -/
theorem sameBlock_afterCommand {s : State} {i : Instr} (h : ∀ c g, chanAfter s.par i c g = g) :
    s.SameBlock (s.afterCommand i) :=
  ⟨par_afterCommand s i, (chan_afterCommand s .ch0 i).trans (h ..), (chan_afterCommand s .ch1 i).trans (h ..),
    err_afterCommand s .rt i, err_afterCommand s .an i⟩

/-- A command's answer with its response word written out (R76). -/
theorem answers_literal {s : State} {i : Instr} {op : Op} {st : Status} {ws : List Word} {w : Word} {n : Nat}
    (hop : i.op = op) (hanswer : s.answer i = (st, ws)) (hn : ws.length = n) (hw : responseWord op.code st n = w) :
    s.Answers (s.afterCommand i) i.port ⟨w, ws⟩ := by
  have h := answers_of_answer hanswer
  rwa [response, hop, hn, hw] at h

/-- Settles O49: `NOP` has no effect on a channel and an empty answer. -/
theorem nopOnlyAnswers : Obligations.NopOnlyAnswers := by
  intro s p
  exact ⟨_, exec_eq (.nop p) s, sameBlock_afterCommand fun _ _ => rfl,
    answers_literal (i := .nop p) (op := .nop) (n := 0) rfl rfl rfl (by decide)⟩

/-- The word of an error register holds the register and zeros (R78). -/
theorem errWord_fields (e : BitVec 4) : (errWord e).extractLsb' 0 4 = e ∧ (errWord e).extractLsb' 4 28 = 0#28 := by
  revert e; decide

/-- Settles O50: `RDERR` has no effect on a channel and answers its port's register as a word. -/
theorem rderrReadsOwnRegister : Obligations.RderrReadsOwnRegister := by
  intro s p
  exact ⟨_, errWord (s.port p).err, exec_eq (.rderr p) s, sameBlock_afterCommand fun _ _ => rfl,
    answers_literal (i := .rderr p) (op := .rderr) (n := 1) rfl rfl rfl (by decide), errWord_fields _⟩

end Sys2Proof.Machine
end

section
/-! The invariants of a reachable state (10_state.md R27, R28, R35): every command's effect on a channel keeps them. -/

namespace Sys2Proof.Machine

variable {P : Params} {g : Channel}

/-- The consumer's read keeps the FIFO well formed and adds no unit (R122, R145). -/
theorem Ring.afterPop_spec {K : Nat} {f : Ring} (hf : f.Wf K) :
    (f.afterPop K).Wf K ∧ ∀ b ∈ (f.afterPop K).unread K, b ∈ f.unread K := by
  have hspec := Ring.pop_spec hf
  cases h : f.pop K with
  | none => rw [Ring.afterPop_of_none h]; exact ⟨hf, fun _ hb => hb⟩
  | some x =>
    rw [h] at hspec
    rw [Ring.afterPop_of_some (v := x.1) h]
    exact ⟨hspec.1, fun b hb => by rw [hspec.2]; exact List.mem_cons_of_mem _ hb⟩

/-- The producer's write keeps the FIFO well formed and adds the one unit (R121, R144). -/
theorem Ring.mem_unread_push {K : Nat} {f : Ring} (hK : 1 ≤ K) (hf : f.Wf K) {v b : List F32}
    (hb : b ∈ (f.push K v).unread K) : b ∈ f.unread K ∨ b = v :=
  mem_queuePush (by rwa [(Ring.push_spec hK hf v).2] at hb)

/-- Nothing behind the filter is changed, nothing of R35 is. -/
theorem Channel.Wf.of_sameFifos {h : Channel} (hg : g.Wf P) (hsame : SameFifos g h) : h.Wf P := by
  obtain ⟨hsf, hroll, hff⟩ := hsame
  exact ⟨by rw [hsf]; exact hg.sf, by rw [hsf]; exact hg.blocks, by rw [hroll]; exact hg.roll,
    by rw [hff]; exact hg.ff, by rw [hff]; exact hg.frames⟩

/-- A conditional change keeps a channel well formed if the change does. -/
theorem Channel.Wf.ite {p : Prop} [Decidable p] {h : Channel} (hg : g.Wf P) (hh : h.Wf P) :
    (if p then h else g).Wf P := by
  split
  · exact hh
  · exact hg

/-- Every well-formed command keeps a channel well formed (R35). -/
theorem wf_chanAfter (hP : P.Valid) {i : Instr} (hw : i.wellFormed P = true) (c : Ch) (hg : g.Wf P) :
    (chanAfter P i c g).Wf P := by
  cases i with
  | nop | rdc | rderr => exact hg
  | upd | byp | proc => exact hg.ite (hg.of_sameFifos ⟨rfl, rfl, rfl⟩)
  | push d xs =>
    refine hg.ite ⟨(Ring.push_spec hP.cap_pos hg.sf xs).1, fun b hb => ?_, hg.roll, hg.ff, hg.frames⟩
    rcases Ring.mem_unread_push hP.cap_pos hg.sf hb with hb | rfl
    · exact hg.blocks b hb
    · exact of_decide_eq_true hw
  | pop d =>
    obtain ⟨hsf, hmem⟩ := Ring.afterPop_spec hg.sf
    exact hg.ite ⟨hsf, fun b hb => hg.blocks b (hmem b hb), hg.roll, hg.ff, hg.frames⟩
  | feed d xs =>
    have hlen : xs.length ≤ g.roll.length := by
      rw [hg.roll]; exact Nat.le_trans (of_decide_eq_true hw) hP.block_fits
    exact hg.ite ⟨hg.sf, hg.blocks, (feedRoll_length g.roll hlen).trans hg.roll, hg.ff, hg.frames⟩
  | spec d =>
    have hpush := (Ring.push_spec hP.frame_pos hg.ff (frameOf P g.roll)).1
    refine hg.ite ⟨hg.sf, hg.blocks, hg.roll, hpush, fun F hF => ?_⟩
    rcases Ring.mem_unread_push hP.frame_pos hg.ff hF with hF | rfl
    · exact hg.frames F hF
    · exact frameOf_good hP g.roll
  | fpop d =>
    obtain ⟨hff, hmem⟩ := Ring.afterPop_spec hg.ff
    exact hg.ite ⟨hg.sf, hg.blocks, hg.roll, hff, fun F hF => hg.frames F (hmem F hF)⟩

/-- A well-formed command keeps the invariants. -/
theorem inv_afterCommand {s : State} {i : Instr} (hs : s.Inv) (hw : i.wellFormed s.par = true) :
    (s.afterCommand i).Inv := by
  obtain ⟨hP, hC, -⟩ := (inv_iff s).1 hs
  exact inv_of hs (par_afterCommand s i) (fun c => by rw [chan_afterCommand]; exact wf_chanAfter hP hw c (hC c))
    fun p => err_afterCommand s p i

/-- A refusal keeps the invariants: the recorded code is a legal one (R30, R192). -/
theorem inv_refuse {s : State} (p : Port) (w : Word) (e : CmdError) (hs : s.Inv) : (s.refuse p w e).Inv := by
  obtain ⟨hP, hC, hE⟩ := (inv_iff s).1 hs
  refine (inv_iff _).2 ⟨by rwa [par_refuse], fun c => by rw [par_refuse, chan_refuse]; exact hC c, fun q => ?_⟩
  rcases port_eq_or_other p q with rfl | rfl
  · rw [err_refuse]; exact errLegal_record e (hE q)
  · rw [err_refuse_other]; exact hE _

/-- The reset event meets the invariants if the parameters do (R34, R35). -/
theorem inv_onReset {s : State} (hP : s.par.Valid) : s.onReset.Inv :=
  ⟨hP, wf_reset _ hP _, wf_reset _ hP _, .inl rfl, .inl rfl⟩

/-- The state right after reset meets them (R34, R35). -/
theorem inv_init (hP : P.Valid) : (State.init P).Inv :=
  ⟨hP, wf_reset _ hP _, wf_reset _ hP _, .inl rfl, .inl rfl⟩

/-- Settles O13: waiting, the reset, a command and a refusal each keep the invariants. -/
theorem stepKeepsInvariants : Obligations.StepKeepsInvariants := by
  intro s t hs h
  rcases step_next_cases h with ⟨-, rfl⟩ | ⟨_, -, rfl⟩ | ⟨_, _, -, -, rfl⟩ | ⟨p, rest, pk, more, -, -, rfl⟩
  · exact hs
  · exact inv_onReset hs.par
  · exact ⟨hs.par, hs.ch0, hs.ch1, hs.rt, hs.an⟩
  · have htook := inv_took p rest more hs
    cases hd : decode s.par p pk with
    | ok i => exact inv_afterCommand htook (by rw [par_took]; exact (decode_wf hd).2.1)
    | error e => exact inv_refuse p pk.word e htook

/-- Settles O14: reset channels are well formed for every valid record, the default one included. -/
theorem resetMeetsInvariants : Obligations.ResetMeetsInvariants := by
  exact ⟨fun P hP => inv_init hP, inv_init default_valid⟩

end Sys2Proof.Machine
end

section
/-! Who writes what (10_state.md R21): a change of a piece of a channel names the command that made it. -/

namespace Sys2Proof.Machine

/-- A change to one section leaves alone what it leaves alone in that section. -/
theorem onSec_keeps {α : Type} (f : Section → α) {g : Channel} {idx j : SecIdx} {h : Section → Section}
    (hf : ∀ x, f (h x) = f x) : f ((g.onSec idx h).secAt j) = f (g.secAt j) := by
  rcases eq_or_ne j idx with rfl | hj
  · rw [secAt_onSec, hf]
  · rw [secAt_onSec_ne g h hj]

/-- The section that differs after a change to one section is that section. -/
theorem eq_of_onSec_changed {α : Type} (f : Section → α) {g : Channel} {idx j : SecIdx} {h : Section → Section}
    (hne : f ((g.onSec idx h).secAt j) ≠ f (g.secAt j)) : j = idx := by
  by_contra hj
  exact hne (by rw [secAt_onSec_ne g h hj])

/-- A part of the channel that differs after a conditional change: the condition held, and the change changes it. -/
theorem of_ite_changed {α : Type} (f : Channel → α) {p : Prop} [Decidable p] {g g' : Channel}
    (h : f (if p then g' else g) ≠ f g) : p ∧ f g' ≠ f g := by
  by_cases hp : p
  · rw [if_pos hp] at h; exact ⟨hp, h⟩
  · rw [if_neg hp] at h; exact absurd rfl h

section Written
variable {P : Params} {i : Instr} {c : Ch} {g : Channel}

theorem cur_written {j : SecIdx} (hne : ((chanAfter P i c g).secAt j).cur ≠ (g.secAt j).cur) :
    ∃ chm k, i = .upd chm j k ∧ selects chm c = true := by
  cases i with
  | nop | rdc | rderr => exact absurd rfl hne
  | upd chm idx k =>
    obtain ⟨hs, hne⟩ := of_ite_changed (fun g => (g.secAt j).cur) hne
    exact ⟨chm, k, by rw [eq_of_onSec_changed Section.cur hne], hs⟩
  | byp => exact ((of_ite_changed (fun g => (g.secAt j).cur) hne).2 (onSec_keeps Section.cur fun _ => rfl)).elim
  | proc d xs => exact absurd (secAt_proc P.NUM c g xs j).1 (of_ite_changed (fun g => (g.secAt j).cur) hne).2
  | _ => exact absurd rfl (of_ite_changed (fun g => (g.secAt j).cur) hne).2

theorem bypc_written {j : SecIdx} (hne : ((chanAfter P i c g).secAt j).bypc ≠ (g.secAt j).bypc) :
    ∃ chm b, i = .byp chm j b ∧ selects chm c = true := by
  cases i with
  | nop | rdc | rderr => exact absurd rfl hne
  | upd => exact ((of_ite_changed (fun g => (g.secAt j).bypc) hne).2 (onSec_keeps Section.bypc fun _ => rfl)).elim
  | byp chm idx b =>
    obtain ⟨hs, hne⟩ := of_ite_changed (fun g => (g.secAt j).bypc) hne
    exact ⟨chm, b, by rw [eq_of_onSec_changed Section.bypc hne], hs⟩
  | proc d xs => exact absurd (secAt_proc P.NUM c g xs j).2.2.1 (of_ite_changed (fun g => (g.secAt j).bypc) hne).2
  | _ => exact absurd rfl (of_ite_changed (fun g => (g.secAt j).bypc) hne).2

/-- What the latch and the samples write of a section: the active copies and the delay registers (R103, R105). -/
def Section.running (x : Section) : Coeffs × Bool × Delay := (x.act, x.bypa, x.z)

theorem running_written {j : SecIdx} (hne : ((chanAfter P i c g).secAt j).running ≠ (g.secAt j).running) :
    ∃ xs, i = .proc c xs := by
  cases i with
  | nop | rdc | rderr => exact absurd rfl hne
  | upd => exact ((of_ite_changed (fun g => (g.secAt j).running) hne).2 (onSec_keeps Section.running fun _ => rfl)).elim
  | byp => exact ((of_ite_changed (fun g => (g.secAt j).running) hne).2 (onSec_keeps Section.running fun _ => rfl)).elim
  | proc d xs => exact ⟨xs, by rw [(of_ite_changed (fun g => (g.secAt j).running) hne).1]⟩
  | _ => exact absurd rfl (of_ite_changed (fun g => (g.secAt j).running) hne).2

/-- What the producer writes of a FIFO: the slots and the write index (R121, R144). -/
def Ring.produced (f : Ring) : List (List F32) × Nat := (f.slots, f.wr)

theorem Ring.produced_afterPop (K : Nat) (f : Ring) : (f.afterPop K).produced = f.produced :=
  Prod.ext (Ring.afterPop_slots K f) (Ring.afterPop_wr K f)

theorem sf_written (hne : (chanAfter P i c g).sf.produced ≠ g.sf.produced) : ∃ xs, i = .push c xs := by
  cases i with
  | nop | rdc | rderr => exact absurd rfl hne
  | push d xs => exact ⟨xs, by rw [(of_ite_changed (fun g => g.sf.produced) hne).1]⟩
  | pop => exact absurd (Ring.produced_afterPop P.cap g.sf) (of_ite_changed (fun g => g.sf.produced) hne).2
  | _ => exact absurd rfl (of_ite_changed (fun g => g.sf.produced) hne).2

theorem sf_rd_written (hne : (chanAfter P i c g).sf.rd ≠ g.sf.rd) : i = .pop c ∨ ∃ xs, i = .push c xs := by
  cases i with
  | nop | rdc | rderr => exact absurd rfl hne
  | push d xs => exact .inr ⟨xs, by rw [(of_ite_changed (fun g => g.sf.rd) hne).1]⟩
  | pop d => exact .inl (by rw [(of_ite_changed (fun g => g.sf.rd) hne).1])
  | _ => exact absurd rfl (of_ite_changed (fun g => g.sf.rd) hne).2

theorem roll_written (hne : (chanAfter P i c g).roll ≠ g.roll) : ∃ xs, i = .feed c xs := by
  cases i with
  | nop | rdc | rderr => exact absurd rfl hne
  | feed d xs => exact ⟨xs, by rw [(of_ite_changed Channel.roll hne).1]⟩
  | _ => exact absurd rfl (of_ite_changed Channel.roll hne).2

theorem ff_written (hne : (chanAfter P i c g).ff.produced ≠ g.ff.produced) : i = .spec c := by
  cases i with
  | nop | rdc | rderr => exact absurd rfl hne
  | spec d => rw [(of_ite_changed (fun g => g.ff.produced) hne).1]
  | fpop => exact absurd (Ring.produced_afterPop P.frameCap g.ff) (of_ite_changed (fun g => g.ff.produced) hne).2
  | _ => exact absurd rfl (of_ite_changed (fun g => g.ff.produced) hne).2

theorem ff_rd_written (hne : (chanAfter P i c g).ff.rd ≠ g.ff.rd) : i = .fpop c ∨ i = .spec c := by
  cases i with
  | nop | rdc | rderr => exact absurd rfl hne
  | spec d => exact .inr (by rw [(of_ite_changed (fun g => g.ff.rd) hne).1])
  | fpop d => exact .inl (by rw [(of_ite_changed (fun g => g.ff.rd) hne).1])
  | _ => exact absurd rfl (of_ite_changed (fun g => g.ff.rd) hne).2

end Written

/-- A step that is not the reset leaves a channel, or the next command has its effect on it. -/
theorem step_chan {s t : State} (h : step s = .next t) (hreset : s.sched.head? ≠ some .reset) (c : Ch) :
    t.chan c = s.chan c ∨ ∃ i, s.NextCommand i ∧ t.chan c = chanAfter s.par i c (s.chan c) := by
  rcases step_next_cases h with ⟨-, rfl⟩ | ⟨_, hs, -⟩ | ⟨_, _, -, -, rfl⟩ | ⟨p, rest, pk, more, hs, hp, rfl⟩
  · exact .inl rfl
  · rw [hs] at hreset; exact absurd rfl hreset
  · exact .inl (by cases c <;> rfl)
  · rcases chan_afterPacket (s := s.took p rest more) (p := p) (w := pk.word) (d := decode s.par p pk) c with
      hc | ⟨i, hd, hc⟩
    · exact .inl (hc.trans (chan_took ..))
    · exact .inr ⟨i, ⟨p, pk, by rw [hs]; rfl, by rw [hp]; rfl, hd⟩, by rw [hc, chan_took, par_took]⟩

/-- Settles O17: what differs after the step was written by the next command, and a piece names its writers. -/
theorem stateIsWrittenOnlyAsListed : Obligations.StateIsWrittenOnlyAsListed := by
  intro s t c h hreset
  rcases step_chan h hreset c with hsame | ⟨i, hi, he⟩
  · simp [hsame]
  rw [he]
  refine ⟨fun j hne => ?_, fun j hne => ?_, fun j hne => ?_, fun hne => ?_, fun hne => ?_, fun hne => ?_,
    fun hne => ?_, fun hne => ?_⟩
  · obtain ⟨chm, k, rfl, hs⟩ := cur_written hne
    exact ⟨chm, k, hi, hs⟩
  · obtain ⟨chm, b, rfl, hs⟩ := bypc_written hne
    exact ⟨chm, b, hi, hs⟩
  · obtain ⟨xs, rfl⟩ := running_written (mt Prod.mk.inj (by simp only [Prod.mk.injEq, not_and_or]; exact hne))
    exact ⟨xs, hi⟩
  · obtain ⟨xs, rfl⟩ := sf_written (mt Prod.mk.inj (not_and_or.2 hne))
    exact ⟨xs, hi⟩
  · rcases sf_rd_written hne with rfl | ⟨xs, rfl⟩
    · exact .inl hi
    · exact .inr ⟨xs, hi⟩
  · obtain ⟨xs, rfl⟩ := roll_written hne
    exact ⟨xs, hi⟩
  · rw [← ff_written (mt Prod.mk.inj (not_and_or.2 hne))]
    exact hi
  · rcases ff_rd_written hne with rfl | rfl
    · exact .inl hi
    · exact .inr hi

end Sys2Proof.Machine
end

section
/-! Which part of a channel each port's commands work on (20_memory.md R58, 60_exceptions.md R199): a command of `RT`
works on the filter or pushes a block, a command of `AN` works on the spectrum unit or pops a block. -/

namespace Sys2Proof.Machine

/-- A change of the filter's part of a channel, which sees nothing else of the channel. -/
def Channel.onFilter (F : Vector Section 10 → Nat → Vector Section 10 × Nat) (g : Channel) : Channel :=
  { g with sec := (F g.sec g.draws).1, draws := (F g.sec g.draws).2 }

/-- A change of the spectrum unit's part of a channel, which sees nothing else of the channel. -/
def Channel.onSpectrum (G : List F32 → Ring → List F32 × Ring) (g : Channel) : Channel :=
  { g with roll := (G g.roll g.ff).1, ff := (G g.roll g.ff).2 }

/-- What a command of `RT` does to a channel. -/
theorem chanAfter_rt (P : Params) {i : Instr} (hi : i.port = .rt) (c : Ch) :
    (∃ F, ∀ g, chanAfter P i c g = g.onFilter F) ∨
      ∃ xs, i = .push c xs ∧ ∀ g, chanAfter P i c g = { g with sf := g.sf.push P.cap xs } := by
  have same {f : Channel → Channel} (h : ∀ g, f g = g) : ∃ F, ∀ g, f g = g.onFilter F := ⟨Prod.mk, h⟩
  have of_ite {p : Prop} [Decidable p] {f : Channel → Channel} (F) (h : ∀ g, f g = g.onFilter F) :
      ∃ F, ∀ g, (if p then f g else g) = g.onFilter F := by
    by_cases hp : p
    · exact ⟨F, fun g => by rw [if_pos hp, h]⟩
    · exact same fun g => if_neg hp
  cases i with
  | nop p => exact .inl (same fun _ => rfl)
  | upd chm idx k => exact .inl (of_ite (fun x n => (x.set idx { x[idx] with cur := k }, n)) fun _ => rfl)
  | byp chm idx b => exact .inl (of_ite (fun x n => (x.set idx { x[idx] with bypc := b }, n)) fun _ => rfl)
  | proc d xs =>
    exact .inl (of_ite (fun x n => (blockAfter P.NUM (Config.freeNaN c) n (x.map Section.latch) xs, n + xs.length))
      fun _ => rfl)
  | push d xs =>
    by_cases hd : c = d
    · subst hd; exact .inr ⟨xs, rfl, fun _ => if_pos rfl⟩
    · exact .inl (same fun _ => if_neg hd)
  | rdc p d idx => exact .inl (same fun _ => rfl)
  | rderr p => exact .inl (same fun _ => rfl)
  | _ => cases hi

/-- What a command of `AN` does to a channel. -/
theorem chanAfter_an (P : Params) {i : Instr} (hi : i.port = .an) (c : Ch) :
    (∃ G, ∀ g, chanAfter P i c g = g.onSpectrum G) ∨
      i = .pop c ∧ ∀ g, chanAfter P i c g = { g with sf := g.sf.afterPop P.cap } := by
  have same {f : Channel → Channel} (h : ∀ g, f g = g) : ∃ G, ∀ g, f g = g.onSpectrum G := ⟨Prod.mk, h⟩
  have of_ite {p : Prop} [Decidable p] {f : Channel → Channel} (G) (h : ∀ g, f g = g.onSpectrum G) :
      ∃ G, ∀ g, (if p then f g else g) = g.onSpectrum G := by
    by_cases hp : p
    · exact ⟨G, fun g => by rw [if_pos hp, h]⟩
    · exact same fun g => if_neg hp
  cases i with
  | nop p => exact .inl (same fun _ => rfl)
  | rdc p d idx => exact .inl (same fun _ => rfl)
  | pop d =>
    by_cases hd : c = d
    · subst hd; exact .inr ⟨rfl, fun _ => if_pos rfl⟩
    · exact .inl (same fun _ => if_neg hd)
  | feed d xs => exact .inl (of_ite (fun r f => (feedRoll r xs, f)) fun _ => rfl)
  | spec d => exact .inl (of_ite (fun r f => (r, f.push P.frameCap (frameOf P r))) fun _ => rfl)
  | fpop d => exact .inl (of_ite (fun r f => (r, f.afterPop P.frameCap)) fun _ => rfl)
  | rderr p => exact .inl (same fun _ => rfl)
  | _ => cases hi

/-- A channel after a turn of a port: as it was, or as a command of that port leaves it. -/
theorem chan_after_turn {s t : State} {p : Port} {rest : List Event} (hsched : s.sched = .port p :: rest)
    (h : step s = .next t) (c : Ch) :
    t.chan c = s.chan c ∨ ∃ i : Instr, i.port = p ∧ t.chan c = chanAfter s.par i c (s.chan c) := by
  rcases step_next_cases h with ⟨hs, -⟩ | ⟨_, hs, -⟩ | ⟨_, _, -, -, rfl⟩ | ⟨q, rest', pk, more, hs, -, rfl⟩
  · rw [hsched] at hs; cases hs
  · rw [hsched] at hs; cases hs
  · exact .inl (by cases c <;> rfl)
  · rw [hsched] at hs
    cases hs
    rcases chan_afterPacket (s := s.took p rest more) (p := p) (w := pk.word) (d := decode s.par p pk) c with
      hc | ⟨i, hd, hc⟩
    · exact .inl (hc.trans (chan_took ..))
    · exact .inr ⟨i, port_of_decode i hd, by rw [hc, chan_took, par_took]⟩

/-- A turn of a port leaves the other port. -/
theorem port_after_turn {s t : State} {p : Port} {rest : List Event} (hsched : s.sched = .port p :: rest)
    (h : step s = .next t) : t.port (otherPort p) = s.port (otherPort p) := by
  rcases step_next_cases h with ⟨hs, -⟩ | ⟨_, hs, -⟩ | ⟨_, _, -, -, rfl⟩ | ⟨q, rest', pk, more, hs, -, rfl⟩
  · rw [hsched] at hs; cases hs
  · rw [hsched] at hs; cases hs
  · cases p <;> rfl
  · rw [hsched] at hs
    cases hs
    exact (port_afterPacket_other port_of_decode).trans (port_took_other ..)

/-- Settles O15: a command of `RT` works on the filter, or pushes, which moves the read index on overflow only. -/
theorem rtPacketsLeaveAnalysisStateAlone : Obligations.RtPacketsLeaveAnalysisStateAlone := by
  intro s t rest hsched h
  refine ⟨port_after_turn hsched h, fun c => ?_⟩
  rcases chan_after_turn hsched h c with hc | ⟨i, hi, hc⟩
  · simp [hc]
  rcases chanAfter_rt s.par hi c with ⟨F, hF⟩ | ⟨xs, -, hpush⟩
  · rw [hc, hF]
    exact ⟨rfl, rfl, fun _ => rfl⟩
  · rw [hc, hpush]
    exact ⟨rfl, rfl, fun hcnt => if_neg hcnt⟩

/-- Settles O16: a command of `AN` works on the spectrum unit, or pops, which moves the read index only. -/
theorem anPacketsLeaveFilterStateAlone : Obligations.AnPacketsLeaveFilterStateAlone := by
  intro s t rest hsched h
  refine ⟨port_after_turn hsched h, fun c => ?_⟩
  rcases chan_after_turn hsched h c with hc | ⟨i, hi, hc⟩
  · simp [hc, SameFilter]
  rcases chanAfter_an s.par hi c with ⟨G, hG⟩ | ⟨-, hpop⟩
  · rw [hc, hG]
    exact ⟨⟨rfl, rfl⟩, rfl, rfl⟩
  · rw [hc, hpop]
    exact ⟨⟨rfl, rfl⟩, Ring.afterPop_slots _ _, Ring.afterPop_wr _ _⟩

end Sys2Proof.Machine
end

section
/-! The two orders of two ports' packets (60_exceptions.md R196): neither sees what the other writes, except `POP` what
`PUSH` writes and `RDC` what `UPD` and `BYP` write. -/

namespace Sys2Proof.Machine

/-- States with the same parts are the same. -/
theorem state_ext {s t : State} (hpar : s.par = t.par) (hchan : ∀ c, s.chan c = t.chan c)
    (hport : ∀ p, s.port p = t.port p) (hsched : s.sched = t.sched) : s = t := by
  obtain ⟨par, ch0, ch1, rt, an, sched⟩ := s
  obtain ⟨par', ch0', ch1', rt', an', sched'⟩ := t
  cases hpar
  cases hsched
  cases hchan .ch0
  cases hchan .ch1
  cases hport .rt
  cases hport .an
  rfl

/-- The two orders of a `PUSH` and a `POP` on a FIFO that is neither empty nor full. -/
theorem Ring.push_afterPop_comm {K : Nat} {f : Ring} (hf : f.Wf K) (h0 : f.cnt K ≠ 0) (h1 : f.cnt K ≠ K)
    (v : List F32) : (f.push K v).afterPop K = (f.afterPop K).push K v ∧ popAnswer K (f.push K v) = popAnswer K f := by
  have hcomm := Ring.push_pop_comm hf h0 h1 v
  cases hp : f.pop K with
  | none => exact absurd ((Ring.unread_length K f).symm.trans (by
      have := Ring.pop_spec hf; rw [hp] at this; rw [this]; rfl)) h0
  | some x =>
    rw [hp, Option.map_some] at hcomm
    rw [Ring.afterPop_of_some hcomm, Ring.afterPop_of_some (v := x.1) hp, popAnswer_of_some hcomm,
      popAnswer_of_some (v := x.1) hp]
    exact ⟨rfl, rfl⟩

/-- The command of `RT` answers the same after the command of `AN`, which leaves the filter. -/
theorem answer_rt_after (P : Params) (chan : Ch → Channel) {i j : Instr} (hi : i.port = .rt) (hj : j.port = .an)
    (err : BitVec 4) : answerOf P (fun c => chanAfter P j c (chan c)) err i = answerOf P chan err i := by
  have hfilter (c : Ch) : SameFilter (chan c) (chanAfter P j c (chan c)) := by
    rcases chanAfter_an P hj c with ⟨G, hG⟩ | ⟨-, hpop⟩
    · rw [hG]; exact ⟨rfl, rfl⟩
    · rw [hpop]; exact ⟨rfl, rfl⟩
  cases i with
  | proc c xs =>
    obtain ⟨hsec, hdraws⟩ := hfilter c
    show (Status.ok, blockOut P.NUM (Config.freeNaN c) (chanAfter P j c (chan c)).draws
      ((chanAfter P j c (chan c)).sec.map Section.latch) xs) = _
    rw [hsec, hdraws]
    rfl
  | rdc p c idx => exact congrArg (fun x : Vector Section 10 =>
      (Status.ok, wordsOf x[idx].cur ++ [flagWord x[idx].bypc])) (hfilter c).1
  | nop p => rfl
  | upd chm idx k => rfl
  | byp chm idx b => rfl
  | push c xs => rfl
  | rderr p => rfl
  | _ => cases hi

section TwoCommands
variable {s : State} (hs : s.Inv) {i j : Instr} (hi : i.port = .rt) (hj : j.port = .an) (hd : ¬ ordersDiffer s i j)
include hi hj hs hd

/-- The two commands' effects on a channel commute. -/
theorem chanAfter_comm (c : Ch) : chanAfter s.par j c (chanAfter s.par i c (s.chan c)) =
    chanAfter s.par i c (chanAfter s.par j c (s.chan c)) := by
  have hwf := ((inv_iff s).1 hs).2.1 c
  rcases chanAfter_rt s.par hi c with ⟨F, hF⟩ | ⟨xs, rfl, hpush⟩ <;>
    rcases chanAfter_an s.par hj c with ⟨G, hG⟩ | ⟨rfl, hpop⟩
  · simp only [hF, hG]; rfl
  · simp only [hF, hpop]; rfl
  · simp only [hpush, hG]; rfl
  · obtain ⟨h0, h1⟩ := not_or.1 fun h => hd ⟨rfl, h⟩
    simp only [hpush, hpop, (Ring.push_afterPop_comm hwf.sf h0 h1 xs).1]

/-- The command of `AN` answers the same after the command of `RT`, but for a `POP` after a `PUSH` on an empty or full
FIFO and an `RDC` after an `UPD` or a `BYP` of its section. -/
theorem answer_an_after (err : BitVec 4) :
    answerOf s.par (fun c => chanAfter s.par i c (s.chan c)) err j = answerOf s.par s.chan err j := by
  cases j with
  | rdc p c idx =>
    have hcur : ((chanAfter s.par i c (s.chan c)).secAt idx).cur = ((s.chan c).secAt idx).cur := by
      by_contra hne
      obtain ⟨chm, k, rfl, hsel⟩ := cur_written hne
      exact hd ⟨hsel, rfl⟩
    have hbypc : ((chanAfter s.par i c (s.chan c)).secAt idx).bypc = ((s.chan c).secAt idx).bypc := by
      by_contra hne
      obtain ⟨chm, b, rfl, hsel⟩ := bypc_written hne
      exact hd ⟨hsel, rfl⟩
    exact congrArg₂ (fun k b => (Status.ok, wordsOf k ++ [flagWord b])) hcur hbypc
  | pop c =>
    rcases chanAfter_rt s.par hi c with ⟨F, hF⟩ | ⟨xs, rfl, hpush⟩
    · exact congrArg (fun g => popAnswer s.par.cap g.sf) (hF (s.chan c))
    · obtain ⟨h0, h1⟩ := not_or.1 fun h => hd ⟨rfl, h⟩
      exact (congrArg (fun g => popAnswer s.par.cap g.sf) (hpush (s.chan c))).trans
        (Ring.push_afterPop_comm (((inv_iff s).1 hs).2.1 c).sf h0 h1 xs).2
  | fpop c =>
    rcases chanAfter_rt s.par hi c with ⟨F, hF⟩ | ⟨xs, -, hpush⟩
    · exact congrArg (fun g => popAnswer s.par.frameCap g.ff) (hF (s.chan c))
    · exact congrArg (fun g => popAnswer s.par.frameCap g.ff) (hpush (s.chan c))
  | nop p => rfl
  | feed c xs => rfl
  | spec c => rfl
  | rderr p => rfl
  | _ => cases hj

end TwoCommands

/-! Two packets, executed or refused. -/

/-- A channel after a packet. -/
def packetChan (P : Params) (d : Except CmdError Instr) (c : Ch) (g : Channel) : Channel :=
  match d with
  | .ok i => chanAfter P i c g
  | .error _ => g

/-- A port after a packet of its own: the error recorded, if there was one, and the answer. -/
def packetPort (P : Params) (chan : Ch → Channel) (w : Word) (d : Except CmdError Instr) (v : PortState) : PortState :=
  match d with
  | .ok i => { v with responses := v.responses ++
      [response i.op.code (answerOf P chan v.err i).1 (answerOf P chan v.err i).2] }
  | .error e => { v with
      err := recordError v.err e
      responses := v.responses ++ [response (fieldOpc w) (.error e) []] }

theorem packetPort_ok (P : Params) (chan : Ch → Channel) (w : Word) (i : Instr) (v : PortState) :
    packetPort P chan w (.ok i) v = { v with responses := v.responses ++
      [response i.op.code (answerOf P chan v.err i).1 (answerOf P chan v.err i).2] } := rfl

theorem chan_eq_packetChan (s : State) (p : Port) (w : Word) (d : Except CmdError Instr) :
    (s.afterPacket p w d).chan = fun c => packetChan s.par d c (s.chan c) := by
  funext c
  cases d with
  | ok i => exact chan_afterCommand s c i
  | error e => exact chan_refuse s c p w e

theorem port_eq_packetPort {s : State} {p : Port} {w : Word} {d : Except CmdError Instr}
    (hd : ∀ i, d = .ok i → i.port = p) : (s.afterPacket p w d).port p = packetPort s.par s.chan w d (s.port p) := by
  cases d with
  | ok i => obtain rfl := hd i rfl; exact port_afterCommand s i
  | error e => cases p <;> rfl

/-- A port after the packet of its turn has been taken. -/
theorem port_took (s : State) (p : Port) (rest : List Event) (more : List Packet) :
    (s.took p rest more).port p = { s.port p with pending := more } := by cases p <;> rfl

/-- The state after the turns of two ports, one packet each. -/
def twoPackets (s : State) (p q : Port) (rest : List Event) (pk pk' : Packet) (more more' : List Packet) : State :=
  (((s.took p (.port q :: rest) more).afterPacket p pk.word (decode s.par p pk)).took q rest more').afterPacket q
    pk'.word (decode s.par q pk')

theorem twoPackets_eq (s : State) (p q : Port) (rest : List Event) (pk pk' : Packet) (more more' : List Packet) :
    twoPackets s p q rest pk pk' more more' = (((s.took p (.port q :: rest) more).afterPacket p pk.word
      (decode s.par p pk)).took q rest more').afterPacket q pk'.word (decode s.par q pk') := rfl

section TwoPackets
variable {s : State} {p q : Port} (hpq : otherPort p = q) {rest : List Event} {pk pk' : Packet}
  {more more' : List Packet}

include hpq in
/-- A packet of one port leaves the other port as it was before the packet was taken. -/
theorem port_afterPacket_took_other :
    ((s.took p rest more).afterPacket p pk.word (decode s.par p pk)).port q = s.port q := by
  subst hpq
  exact (port_afterPacket_other port_of_decode).trans (port_took_other ..)

include hpq in
theorem stepTwice_eq (hp : (s.port p).pending = pk :: more) (hq : (s.port q).pending = pk' :: more') :
    stepTwice { s with sched := .port p :: .port q :: rest } = .next (twoPackets s p q rest pk pk' more more') := by
  have hfirst : step { s with sched := .port p :: .port q :: rest } =
      .next ((s.took p (.port q :: rest) more).afterPacket p pk.word (decode s.par p pk)) :=
    step_packet (s := { s with sched := .port p :: .port q :: rest }) rfl (by rw [← hp]; cases p <;> rfl)
  have hsched : ((s.took p (.port q :: rest) more).afterPacket p pk.word (decode s.par p pk)).sched =
      .port q :: rest := by rw [sched_afterPacket, sched_took]
  simp only [stepTwice, hfirst, step_packet hsched ((congrArg _ (port_afterPacket_took_other hpq)).trans hq),
    twoPackets_eq, par_afterPacket, par_took]

theorem chan_twoPackets (c : Ch) : (twoPackets s p q rest pk pk' more more').chan c =
    packetChan s.par (decode s.par q pk') c (packetChan s.par (decode s.par p pk) c (s.chan c)) := by
  simp only [twoPackets_eq, chan_eq_packetChan, chan_took, par_afterPacket, par_took]

/-- The first packet's port does not see the second packet. -/
theorem port_twoPackets_first (hqp : otherPort q = p) : (twoPackets s p q rest pk pk' more more').port p =
    packetPort s.par s.chan pk.word (decode s.par p pk) { s.port p with pending := more } := by
  have hchan : (s.took p (.port q :: rest) more).chan = s.chan := funext (chan_took s p _ more)
  have hpar : ((s.took p (.port q :: rest) more).afterPacket p pk.word (decode s.par p pk)).par = s.par := by
    rw [par_afterPacket, par_took]
  have hfirst := port_afterPacket_took_other hqp (rest := rest) (pk := pk') (more := more')
    (s := (s.took p (.port q :: rest) more).afterPacket p pk.word (decode s.par p pk))
  rw [hpar] at hfirst
  rw [twoPackets_eq, hfirst, port_eq_packetPort port_of_decode, par_took, hchan, port_took]

include hpq in
/-- The second packet's port sees the channels the first packet has left. -/
theorem port_twoPackets_second : (twoPackets s p q rest pk pk' more more').port q =
    packetPort s.par (fun c => packetChan s.par (decode s.par p pk) c (s.chan c)) pk'.word
      (decode s.par q pk') { s.port q with pending := more' } := by
  have hchan (u : State) : (u.took q rest more').chan = u.chan := funext (chan_took u _ _ _)
  rw [twoPackets_eq, port_eq_packetPort port_of_decode, port_took, port_afterPacket_took_other hpq, hchan,
    chan_eq_packetChan]
  simp only [par_took, par_afterPacket, chan_took]

end TwoPackets

/-- Settles O18: the two final states agree part by part; only two commands that are both executed can meet. -/
theorem ordersAgreeUnlessListed : Obligations.OrdersAgreeUnlessListed := by
  intro s pr pa rs as rest hs hrt han hdiffer
  rw [stepTwice_eq (p := .rt) (q := .an) rfl hrt han, stepTwice_eq (p := .an) (q := .rt) rfl han hrt]
  refine congrArg _ (state_ext ?par (fun c => ?chan) (fun p => ?port) ?sched)
  case par => simp only [twoPackets_eq, par_afterPacket, par_took]
  case sched => simp only [twoPackets_eq, sched_afterPacket, sched_took]
  case chan =>
    rw [chan_twoPackets, chan_twoPackets]
    cases hi : decode s.par .rt pr with
    | error e => rfl
    | ok i =>
      cases hj : decode s.par .an pa with
      | error e => rfl
      | ok j => exact chanAfter_comm hs (port_of_decode i hi) (port_of_decode j hj) (hdiffer i j hi hj) c
  case port =>
    cases p with
    | rt =>
      rw [port_twoPackets_first (p := .rt) (q := .an) rfl, port_twoPackets_second (p := .an) (q := .rt) rfl]
      cases hi : decode s.par .rt pr with
      | error e => rfl
      | ok i =>
        cases hj : decode s.par .an pa with
        | error e => rfl
        | ok j =>
          rw [packetPort_ok, packetPort_ok]
          exact congrArg (fun a : Status × List Word => PortState.mk _ _ (_ ++ [response _ a.1 a.2]))
            (answer_rt_after s.par s.chan (port_of_decode i hi) (port_of_decode j hj) _).symm
    | an =>
      rw [port_twoPackets_first (p := .an) (q := .rt) rfl, port_twoPackets_second (p := .rt) (q := .an) rfl]
      cases hj : decode s.par .an pa with
      | error e => rfl
      | ok j =>
        cases hi : decode s.par .rt pr with
        | error e => rfl
        | ok i =>
          rw [packetPort_ok, packetPort_ok]
          exact congrArg (fun a : Status × List Word => PortState.mk _ _ (_ ++ [response _ a.1 a.2]))
            (answer_an_after hs (port_of_decode i hi) (port_of_decode j hj) (hdiffer i j hi hj) _)

end Sys2Proof.Machine
end

section
/-! Commands one after the other, and the channel a command names. -/

namespace Sys2Proof.Machine

/-- A sequence of commands reaches the state of its commands' effects and answers in turn. -/
theorem execAll_eq (is : List Instr) (s : State) : execAll is s = .next (is.foldl State.afterCommand s) := by
  induction is generalizing s with
  | nil => rfl
  | cons i is ih =>
    show andThen (exec i s) (execAll is) = _
    rw [exec_eq]
    exact ih _

theorem otherCh_ne (c : Ch) : otherCh c ≠ c := by cases c <;> decide

/-! A command that names one channel leaves the other. -/

section Named
variable {s : State} {c d : Ch} (h : d ≠ c)
include h

theorem chan_proc_ne (xs : List F32) : (s.afterCommand (.proc c xs)).chan d = s.chan d :=
  (chan_afterCommand ..).trans (if_neg h)
theorem chan_push_ne (xs : List F32) : (s.afterCommand (.push c xs)).chan d = s.chan d :=
  (chan_afterCommand ..).trans (if_neg h)
theorem chan_pop_ne : (s.afterCommand (.pop c)).chan d = s.chan d := (chan_afterCommand ..).trans (if_neg h)
theorem chan_feed_ne (xs : List F32) : (s.afterCommand (.feed c xs)).chan d = s.chan d :=
  (chan_afterCommand ..).trans (if_neg h)
theorem chan_spec_ne : (s.afterCommand (.spec c)).chan d = s.chan d := (chan_afterCommand ..).trans (if_neg h)
theorem chan_fpop_ne : (s.afterCommand (.fpop c)).chan d = s.chan d := (chan_afterCommand ..).trans (if_neg h)

end Named

/-! What it leaves of the channel it names. -/

theorem chan_afterCommand_proc (s : State) (c : Ch) (xs : List F32) :
    (s.afterCommand (.proc c xs)).chan c = (s.chan c).proc s.par.NUM c xs :=
  (chan_afterCommand ..).trans (if_pos rfl)

theorem chan_afterCommand_push {s : State} {c : Ch} (b : List F32) : (s.afterCommand (.push c b)).chan c =
    { s.chan c with sf := (s.chan c).sf.push s.par.cap b } := (chan_afterCommand ..).trans (if_pos rfl)

theorem chan_afterCommand_pop {s : State} {c : Ch} : (s.afterCommand (.pop c)).chan c =
    { s.chan c with sf := (s.chan c).sf.afterPop s.par.cap } := (chan_afterCommand ..).trans (if_pos rfl)

theorem chan_afterCommand_spec {s : State} {c : Ch} : (s.afterCommand (.spec c)).chan c =
    { s.chan c with ff := (s.chan c).ff.push s.par.frameCap (frameOf s.par (s.chan c).roll) } :=
  (chan_afterCommand ..).trans (if_pos rfl)

theorem chan_afterCommand_fpop {s : State} {c : Ch} : (s.afterCommand (.fpop c)).chan c =
    { s.chan c with ff := (s.chan c).ff.afterPop s.par.frameCap } := (chan_afterCommand ..).trans (if_pos rfl)

theorem chan_afterCommand_feed {s : State} {c : Ch} (b : List F32) : (s.afterCommand (.feed c b)).chan c =
    { s.chan c with roll := feedRoll (s.chan c).roll b } := (chan_afterCommand ..).trans (if_pos rfl)

theorem lastResponse_proc (s : State) (c : Ch) (xs : List F32) : (s.afterCommand (.proc c xs)).lastResponse .rt =
    some (response 0x3#4 .ok ((s.chan c).procOut s.par.NUM c xs)) :=
  lastResponse_afterCommand s (.proc c xs)

end Sys2Proof.Machine
end

section
/-! The commands that write and read the coefficient sets and bypass flags (40_filter_chain.md R101, R102, R109). -/

namespace Sys2Proof.Machine

theorem selects_eq (chm : BitVec 2) (c : Ch) : selects chm c = chm.getLsbD (chNum c) := by cases c <;> rfl

/-- What a change of one section of the masked channels does, whichever command makes it. -/
theorem masked_change {s : State} {i : Instr} {chm : BitVec 2} {idx : SecIdx} {h : Section → Section}
    (hi : ∀ c g, chanAfter s.par i c g = if selects chm c then g.onSec idx h else g) (c : Ch) :
    SameFifos (s.chan c) ((s.afterCommand i).chan c) ∧ ((s.afterCommand i).chan c).draws = (s.chan c).draws ∧
      ∀ j, ((s.afterCommand i).chan c).secAt j =
        if chm.getLsbD (chNum c) = true ∧ j = idx then h ((s.chan c).secAt j) else (s.chan c).secAt j := by
  rw [chan_afterCommand, hi, selects_eq]
  by_cases hc : chm.getLsbD (chNum c) = true
  · rw [if_pos hc]
    refine ⟨⟨rfl, rfl, rfl⟩, rfl, fun j => ?_⟩
    rcases eq_or_ne j idx with rfl | hj
    · rw [secAt_onSec, if_pos ⟨hc, rfl⟩]
    · rw [secAt_onSec_ne _ _ hj, if_neg fun h => hj h.2]
  · rw [if_neg hc]
    exact ⟨⟨rfl, rfl, rfl⟩, rfl, fun j => (if_neg fun h => hc h.1).symm⟩

/-- Settles O23: `UPD` is a masked change of the current set. -/
theorem updWritesCurrentSetsOnly : Obligations.UpdWritesCurrentSetsOnly := by
  intro s chm idx k
  exact ⟨_, exec_eq (.upd chm idx k) s,
    answers_literal (i := .upd chm idx k) (op := .upd) (n := 0) rfl rfl rfl (by decide),
    masked_change (i := .upd chm idx k) fun _ _ => rfl⟩

/-- Settles O24: `BYP` is a masked change of the current flag. -/
theorem bypWritesCurrentFlagsOnly : Obligations.BypWritesCurrentFlagsOnly := by
  intro s chm idx b
  exact ⟨_, exec_eq (.byp chm idx b) s,
    answers_literal (i := .byp chm idx b) (op := .byp) (n := 0) rfl rfl rfl (by decide),
    masked_change (i := .byp chm idx b) fun _ _ => rfl⟩

/-- Settles O25: `RDC` has no effect on a channel; its answer is the set's five words and the flag's. -/
theorem rdcReturnsCurrentSetAndFlag : Obligations.RdcReturnsCurrentSetAndFlag := by
  intro s p c idx
  exact ⟨_, exec_eq (.rdc p c idx) s, sameBlock_afterCommand fun _ _ => rfl,
    answers_literal (i := .rdc p c idx) (op := .rdc) (n := 6) rfl rfl rfl (by decide)⟩

/-! `UPD` and `BYP` before a block (R103, R104). -/

/-- Two changes of one section are one. -/
theorem onSec_onSec (g : Channel) (i : SecIdx) (f h : Section → Section) :
    (g.onSec i f).onSec i h = g.onSec i fun x => h (f x) := by
  simp [Channel.onSec]

theorem chanAfter_upd (P : Params) (chm : BitVec 2) (idx : SecIdx) (k : Coeffs) (c : Ch) (g : Channel) :
    chanAfter P (.upd chm idx k) c g = if selects chm c then g.onSec idx fun x => { x with cur := k } else g := rfl

theorem chanAfter_byp (P : Params) (chm : BitVec 2) (idx : SecIdx) (b : Bool) (c : Ch) (g : Channel) :
    chanAfter P (.byp chm idx b) c g = if selects chm c then g.onSec idx fun x => { x with bypc := b } else g := rfl

/-- Of two `UPD` of one section the first leaves no trace, and `UPD` and `BYP` commute (R101, R104). -/
theorem latest_update (P : Params) (chm : BitVec 2) (idx : SecIdx) (k1 k2 : Coeffs) (b : Bool) (c : Ch) (g : Channel) :
    chanAfter P (.byp chm idx b) c (chanAfter P (.upd chm idx k2) c (chanAfter P (.upd chm idx k1) c g)) =
      chanAfter P (.upd chm idx k2) c (chanAfter P (.byp chm idx b) c g) := by
  simp only [chanAfter_upd, chanAfter_byp]
  by_cases hc : selects chm c = true
  · simp only [if_pos hc, onSec_onSec]
  · simp only [if_neg hc]

/-- Settles O32: before the `PROC` both sequences leave the same channels, the section holding the second set and
the flag, and the `PROC` latches them. -/
theorem nextBlockUsesLatestUpdate : Obligations.NextBlockUsesLatestUpdate := by
  intro s chm idx k1 k2 b c xs hsel
  let s1 := ((s.afterCommand (.upd chm idx k1)).afterCommand (.upd chm idx k2)).afterCommand (.byp chm idx b)
  let s2 := (s.afterCommand (.byp chm idx b)).afterCommand (.upd chm idx k2)
  have hpar : s1.par = s2.par := by simp only [s1, s2, par_afterCommand]
  have hchan (d : Ch) : s1.chan d = s2.chan d := by
    simp only [s1, s2, chan_afterCommand, par_afterCommand]
    exact latest_update s.par chm idx k1 k2 b d (s.chan d)
  have hafter (d : Ch) : (s1.afterCommand (.proc c xs)).chan d = (s2.afterCommand (.proc c xs)).chan d := by
    rw [chan_afterCommand s1, chan_afterCommand s2, hpar, hchan]
  have hsec : (s2.chan c).secAt idx = { (s.chan c).secAt idx with cur := k2, bypc := b } := by
    simp only [s2, chan_afterCommand, chanAfter_upd, chanAfter_byp, if_pos hsel, onSec_onSec, secAt_onSec]
  obtain ⟨-, hact, -, hbypa, -⟩ := secAt_proc s1.par.NUM c (s1.chan c) xs idx
  rw [← chan_afterCommand_proc, hchan, hsec] at hact hbypa
  refine ⟨_, _, execAll_eq _ s, execAll_eq _ s, hact, hbypa, hafter .ch0, hafter .ch1, ?_⟩
  show (s1.afterCommand (.proc c xs)).lastResponse .rt = (s2.afterCommand (.proc c xs)).lastResponse .rt
  rw [lastResponse_proc, lastResponse_proc, hpar, hchan]

end Sys2Proof.Machine
end

section
/-! `PROC` (40_filter_chain.md R103 to R113). -/

namespace Sys2Proof.Machine

variable (N : Num) (c : Ch) (g : Channel)

/-- An empty block leaves every delay register (R113). -/
theorem secAt_proc_nil (i : SecIdx) : ((g.proc N c []).secAt i).z = (g.secAt i).z := by
  show (g.latch.sec[i]).z = _
  rw [latch_sec]
  rfl

/-- Settles O26: `PROC` works on its own channel's filter; section by section `secAt_proc` says what it does. -/
theorem procLatchesItsChannelOnly : Obligations.ProcLatchesItsChannelOnly := by
  intro s c xs
  refine ⟨_, (s.chan c).procOut s.par.NUM c xs, exec_eq (.proc c xs) s, answers_afterCommand s (.proc c xs),
    procOut_length .., chan_proc_ne (otherCh_ne c) xs, ?_⟩
  rw [chan_afterCommand_proc]
  refine ⟨⟨rfl, rfl, rfl⟩, fun i => ?_⟩
  obtain ⟨hcur, hact, hbypc, hbypa, hz⟩ := secAt_proc s.par.NUM c (s.chan c) xs i
  refine ⟨hact, hbypa, hcur, hbypc, fun h => ?_⟩
  rcases h with h | rfl
  · exact hz h
  · exact secAt_proc_nil ..

/-! A fully bypassed chain (R108). -/

section Bypassed
variable (bnan : Nat → Nat → Nat → NaNBits) {x : Vector Section 10} (h : ∀ i : SecIdx, x[i].bypa = true)
include h

theorem bankAfter_bypassed (nan : Nat → Nat → NaNBits) (v : F32) : bankAfter N nan x v = x :=
  sec_ext fun i => by rw [bankAfter_get, after_bypassed N (h i)]

theorem chainOut_bank_bypassed (nan : Nat → Nat → NaNBits) (v : F32) : chainOut N nan 0 x.toList v = v := by
  refine chainOut_bypassed N nan 0 (fun y hy => ?_) v
  obtain ⟨i, hi, rfl⟩ := List.getElem_of_mem hy
  exact h ⟨i, by simpa using hi⟩

/-- Bypassed sections pass a block with its bit patterns unchanged. -/
theorem blockOut_bypassed (n : Nat) (vs : List F32) : blockOut N bnan n x vs = vs := by
  induction vs generalizing n with
  | nil => rfl
  | cons v vs ih => rw [blockOut, chainOut_bank_bypassed N h, bankAfter_bypassed N h, ih]

end Bypassed

/-- A channel whose flags are all set answers its input. -/
theorem procOut_bypassed (h : ∀ i, (g.secAt i).bypc = true) (xs : List F32) : g.procOut N c xs = xs :=
  blockOut_bypassed N _ (fun i => by rw [latch_sec]; exact h i) _ xs

/-- Settles O28: the latch makes all ten flags active, and bypassed sections pass every sample. -/
theorem bypassedChainIsIdentity : Obligations.BypassedChainIsIdentity := by
  intro s c xs h
  refine ⟨_, exec_eq (.proc c xs) s, ?_, fun i => ?_⟩
  · rw [lastResponse_proc, procOut_bypassed _ _ _ h]
  · rw [chan_afterCommand_proc]
    exact (secAt_proc s.par.NUM c (s.chan c) xs i).2.2.2.2 (h i)

/-! A NaN in an active section (R107). -/

/-- With the later sections bypassed, what leaves an active section whose previous output is NaN leaves the chain. -/
theorem chainOut_nan (nan : Nat → Nat → NaNBits) {x : Vector Section 10} {i : SecIdx} (hact : x[i].bypa = false)
    (hlater : ∀ j, i < j → x[j].bypa = true) (hnan : F32.isNaN x[i].z.y1 = true) (v : F32) :
    F32.isNaN (chainOut Config.ieee754 nan 0 x.toList v) = true := by
  have hi : i.val < x.toList.length := by simp
  have hpass := inputAt_eq_of_bypassed Config.ieee754 nan 0 x.toList v hi (Nat.le_refl _) fun j hj hij _ =>
    hlater ⟨j, by simpa using hj⟩ hij
  have hget : x.toList[i.val] = x[i] := by simp
  rw [← inputAt_length, hpass, inputAt_succ _ _ _ _ _ _ hi, hget, out_active _ hact]
  exact biquadOut_nan hnan

/-- Then every sample of a block comes out NaN. -/
theorem blockOut_nan (bnan : Nat → Nat → Nat → NaNBits) (n : Nat) {x : Vector Section 10} {i : SecIdx}
    (hact : x[i].bypa = false) (hlater : ∀ j, i < j → x[j].bypa = true) (hnan : F32.isNaN x[i].z.y1 = true)
    (vs : List F32) : ∀ y ∈ blockOut Config.ieee754 bnan n x vs, F32.isNaN y = true := by
  intro y hy
  obtain ⟨k, hk, rfl⟩ := List.getElem_of_mem hy
  rw [blockOut_length] at hk
  have hout := blockOut_getElem? Config.ieee754 bnan n x vs k hk
  rw [List.getElem?_eq_getElem (by rwa [blockOut_length]), Option.some.injEq] at hout
  have keeps (j : SecIdx) := (blockAfter_keeps Config.ieee754 bnan n x (vs.take k) j).2.2.2.1
  rw [hout]
  exact chainOut_nan _ ((keeps i).trans hact) (fun j hj => (keeps j).trans (hlater j hj))
    (blockAfter_nan bnan n x _ i hact hnan) _

/-- Settles O31: the section is active and the later ones are bypassed after the latch, which leaves `y1`. -/
theorem naNSticksInActiveSection : Obligations.NaNSticksInActiveSection := by
  intro s c i xs hact hlater hnan hnum
  have hact' : (s.chan c).latch.sec[i].bypa = false := by rw [latch_sec]; exact hact
  have hnan' : F32.isNaN (s.chan c).latch.sec[i].z.y1 = true := by rw [latch_sec]; exact hnan
  refine ⟨_, _, exec_eq (.proc c xs) s, lastResponse_proc s c xs, procOut_length .., ?_, ?_⟩
  · rw [NUM_of_ieee754 hnum]
    exact blockOut_nan _ _ hact' (fun j hj => by rw [latch_sec]; exact hlater j hj) hnan' xs
  · rw [chan_afterCommand_proc, NUM_of_ieee754 hnum]
    exact blockAfter_nan _ _ _ xs i hact' hnan'

/-! The cascade over a whole block (R105, R106, R108). -/

/-- The ten sections of a channel as they stand when `n` samples of the block have been processed. -/
def bankAt (xs : List F32) (n : Nat) : Vector Section 10 :=
  blockAfter N (Config.freeNaN c) g.draws g.latch.sec (xs.take n)

/-- The sample that enters section `j` at time `n`. -/
def signalAt (xs : List F32) (n j : Nat) : F32 :=
  inputAt N (Config.freeNaN c (g.draws + n)) 0 (bankAt N c g xs n).toList j (xs.getD n 0)

variable (xs : List F32)

theorem bankAt_keeps (n : Nat) (j : SecIdx) :
    (bankAt N c g xs n)[j].act = (g.secAt j).cur ∧ (bankAt N c g xs n)[j].bypa = (g.secAt j).bypc := by
  obtain ⟨-, hact, -, hbypa, -⟩ := blockAfter_keeps N (Config.freeNaN c) g.draws g.latch.sec (xs.take n) j
  rw [latch_sec] at hact hbypa
  exact ⟨hact, hbypa⟩

theorem bankAt_zero (j : SecIdx) : (bankAt N c g xs 0)[j].z = (g.secAt j).z := by
  show (g.latch.sec[j]).z = _
  rw [latch_sec]
  rfl

theorem bankAt_length : bankAt N c g xs xs.length = (g.proc N c xs).sec :=
  congrArg (blockAfter N (Config.freeNaN c) g.draws g.latch.sec) (List.take_length)

/-- One sample more: each section goes on with the sample that enters it. -/
theorem bankAt_succ {n : Nat} (hn : n < xs.length) (j : SecIdx) : (bankAt N c g xs (n + 1))[j] =
    (bankAt N c g xs n)[j].after N (Config.freeNaN c (g.draws + n) j) (signalAt N c g xs n j) := by
  have hx : xs.getD n 0 = xs[n] := by simp [hn]
  have hsucc : bankAt N c g xs (n + 1) = bankAfter N (Config.freeNaN c (g.draws + n)) (bankAt N c g xs n) xs[n] :=
    blockAfter_take_succ N (Config.freeNaN c) g.draws g.latch.sec xs n hn
  rw [hsucc, bankAfter_get, signalAt, hx]

/-- What a section hands on is what enters the next. -/
theorem signalAt_succ (n : Nat) (j : SecIdx) : signalAt N c g xs n (j.val + 1) =
    (bankAt N c g xs n)[j].out N (Config.freeNaN c (g.draws + n) j) (signalAt N c g xs n j) := by
  have hget : (bankAt N c g xs n).toList[j.val]'(by simp) = (bankAt N c g xs n)[j] := by simp
  rw [signalAt, inputAt_succ N _ _ _ _ _ (by simp), hget, Nat.zero_add]
  rfl

/-- What leaves the last section is answered. -/
theorem procOut_getElem? {n : Nat} (hn : n < xs.length) : (g.procOut N c xs)[n]? = some (signalAt N c g xs n 10) := by
  have hx : xs.getD n 0 = xs[n] := by simp [hn]
  have hten : (bankAt N c g xs n).toList.length = 10 := by simp
  have hlast := inputAt_length N (Config.freeNaN c (g.draws + n)) 0 (bankAt N c g xs n).toList (xs.getD n 0)
  rw [hten] at hlast
  rw [signalAt, hlast, hx]
  exact blockOut_getElem? N (Config.freeNaN c) g.draws g.latch.sec xs n hn

/-- Settles O58: the signals are what enters each section, the registers those of the sections as they stand, and the
NaN bits each section's draws. -/
theorem procRunsCascadeInOrder : Obligations.ProcRunsCascadeInOrder := by
  intro s c xs
  let g := s.chan c
  refine ⟨_, _, signalAt s.par.NUM c g xs, fun n j => (bankAt s.par.NUM c g xs n)[j].z,
    fun n j => Config.freeNaN c (g.draws + n) j, exec_eq (.proc c xs) s, lastResponse_proc s c xs, procOut_length ..,
    fun n hn => ⟨?_, procOut_getElem? _ c g xs hn⟩, bankAt_zero _ c g xs, fun j => ?_, fun n hn j => ?_⟩
  · show xs[n]? = some (inputAt _ _ _ _ 0 _)
    rw [inputAt, List.getD_eq_getElem _ _ hn, List.getElem?_eq_getElem hn]
  · rw [chan_afterCommand_proc]
    exact congrArg (fun x : Vector Section 10 => x[j].z) (bankAt_length _ c g xs).symm
  · obtain ⟨hact, hbypa⟩ := bankAt_keeps s.par.NUM c g xs n j
    dsimp only
    rw [signalAt_succ, bankAt_succ _ _ _ _ hn]
    by_cases hb : (g.secAt j).bypc = true
    · rw [if_pos hb, out_bypassed _ (hbypa.trans hb), after_bypassed _ (hbypa.trans hb)]
      exact ⟨rfl, rfl⟩
    · have hb' := hbypa.trans (Bool.eq_false_iff.2 hb)
      rw [if_neg hb, out_active _ hb', after_active _ hb', hact]
      exact ⟨rfl, rfl⟩

end Sys2Proof.Machine
end

section
/-! The two loop orders of the cascade (40_filter_chain.md R110), over a list of sections of any length. -/

namespace Sys2Proof.Machine

variable (N : Num) (nan : Nat → Nat → Nat → NaNBits)

/-- Sample by sample: the outputs of a list of sections, the first being section `k` (R105). -/
def samplewiseOut (k : Nat) : Nat → List Section → List F32 → List F32
  | _, _, [] => []
  | n, xs, v :: vs => chainOut N (nan n) k xs v :: samplewiseOut k (n + 1) (chainAfter N (nan n) k xs v) vs

/-- Sample by sample: the sections after the block (R105). -/
def samplewiseAfter (k : Nat) : Nat → List Section → List F32 → List Section
  | _, xs, [] => xs
  | n, xs, v :: vs => samplewiseAfter k (n + 1) (chainAfter N (nan n) k xs v) vs

/-- The ten sections of a bank are a list of sections. -/
theorem blockOut_eq_samplewise (n : Nat) (x : Vector Section 10) (vs : List F32) :
    blockOut N nan n x vs = samplewiseOut N nan 0 n x.toList vs := by
  induction vs generalizing n x with
  | nil => rfl
  | cons v vs ih => exact congrArg (chainOut N (nan n) 0 x.toList v :: ·) (ih (n + 1) (bankAfter N (nan n) x v))

theorem blockAfter_eq_samplewise (n : Nat) (x : Vector Section 10) (vs : List F32) :
    (blockAfter N nan n x vs).toList = samplewiseAfter N nan 0 n x.toList vs := by
  induction vs generalizing n x with
  | nil => rfl
  | cons v vs ih => exact ih (n + 1) (bankAfter N (nan n) x v)

/-- No section: every sample passes. -/
theorem samplewiseOut_nil (k n : Nat) (vs : List F32) : samplewiseOut N nan k n [] vs = vs := by
  induction vs generalizing n with
  | nil => rfl
  | cons v vs ih => exact congrArg (v :: ·) (ih (n + 1))

theorem samplewiseAfter_nil (k n : Nat) (vs : List F32) : samplewiseAfter N nan k n [] vs = [] := by
  induction vs generalizing n with
  | nil => rfl
  | cons v vs ih => exact ih (n + 1)

/-- The first section's outputs are what the others get. -/
theorem samplewiseOut_cons (k n : Nat) (x : Section) (xs : List Section) (vs : List F32) :
    samplewiseOut N nan k n (x :: xs) vs =
      samplewiseOut N nan (k + 1) n xs (sectionBlockOut N (fun m => nan m k) n x vs) := by
  induction vs generalizing n x xs with
  | nil => rfl
  | cons v vs ih => exact congrArg (chainOut N (nan n) (k + 1) xs (x.out N (nan n k) v) :: ·) (ih (n + 1) _ _)

/-- The first section goes through the block on its own, before the others. -/
theorem samplewiseAfter_cons (k n : Nat) (x : Section) (xs : List Section) (vs : List F32) :
    samplewiseAfter N nan k n (x :: xs) vs = sectionBlockAfter N (fun m => nan m k) n x vs ::
      samplewiseAfter N nan (k + 1) n xs (sectionBlockOut N (fun m => nan m k) n x vs) := by
  induction vs generalizing n x xs with
  | nil => rfl
  | cons v vs ih => exact ih (n + 1) _ _

theorem samplewiseOut_eq_sectionwise (k n : Nat) (xs : List Section) (vs : List F32) :
    samplewiseOut N nan k n xs vs = sectionwiseOut N nan n k xs vs := by
  induction xs generalizing k vs with
  | nil => exact samplewiseOut_nil N nan k n vs
  | cons x xs ih => exact (samplewiseOut_cons N nan k n x xs vs).trans (ih (k + 1) _)

theorem samplewiseAfter_eq_sectionwise (k n : Nat) (xs : List Section) (vs : List F32) :
    samplewiseAfter N nan k n xs vs = sectionwiseAfter N nan n k xs vs := by
  induction xs generalizing k vs with
  | nil => exact samplewiseAfter_nil N nan k n vs
  | cons x xs ih => exact (samplewiseAfter_cons N nan k n x xs vs).trans (congrArg (_ :: ·) (ih (k + 1) _))

/-- Settles O29: by induction on the sections, the first one going through the whole block. -/
theorem loopOrdersAgree : Obligations.LoopOrdersAgree := by
  intro N nan n x vs
  exact ⟨(blockOut_eq_samplewise N nan n x vs).trans (samplewiseOut_eq_sectionwise N nan 0 n x.toList vs),
    (blockAfter_eq_samplewise N nan n x vs).trans (samplewiseAfter_eq_sectionwise N nan 0 n x.toList vs)⟩

end Sys2Proof.Machine
end

section
/-! A signal in blocks (40_filter_chain.md R112): `PROC` of two parts is `PROC` of one and then of the other. -/

namespace Sys2Proof.Machine

variable (N : Num) (c : Ch) (g : Channel)

/-- A second latch without an update in between changes nothing: `PROC` leaves the active copies equal to the current
ones (R103). -/
theorem latch_proc (xs : List F32) : (g.proc N c xs).latch = g.proc N c xs := by
  have hsec : (g.proc N c xs).latch.sec = (g.proc N c xs).sec := sec_ext fun i => by
    obtain ⟨hcur, hact, hbypc, hbypa, -⟩ := secAt_proc N c g xs i
    rw [latch_sec]
    show Section.latch ((g.proc N c xs).secAt i) = (g.proc N c xs).secAt i
    exact congrArg₂ (fun k b => { (g.proc N c xs).secAt i with act := k, bypa := b })
      (hcur.trans hact.symm) (hbypc.trans hbypa.symm)
  show { g.proc N c xs with sec := (g.proc N c xs).latch.sec } = g.proc N c xs
  rw [hsec]

theorem proc_append (xs ys : List F32) : g.proc N c (xs ++ ys) = (g.proc N c xs).proc N c ys := by
  have hsec : (g.proc N c (xs ++ ys)).sec = ((g.proc N c xs).proc N c ys).sec := by
    show _ = blockAfter N (Config.freeNaN c) (g.draws + xs.length) (g.proc N c xs).latch.sec ys
    rw [latch_proc]
    exact blockAfter_append ..
  have hdraws : (g.proc N c (xs ++ ys)).draws = ((g.proc N c xs).proc N c ys).draws := by
    rw [draws_proc, draws_proc, draws_proc, List.length_append, Nat.add_assoc]
  exact (congrArg₂ (fun x n => ({ g with sec := x, draws := n } : Channel)) hsec hdraws)

theorem procOut_append (xs ys : List F32) :
    g.procOut N c (xs ++ ys) = g.procOut N c xs ++ (g.proc N c xs).procOut N c ys := by
  show _ = _ ++ blockOut N (Config.freeNaN c) (g.draws + xs.length) (g.proc N c xs).latch.sec ys
  rw [latch_proc]
  exact blockOut_append ..

/-- What successive `PROC` of several blocks answer. -/
def procOuts : Channel → List (List F32) → List (List F32)
  | _, [] => []
  | g, b :: bs => g.procOut N c b :: procOuts (g.proc N c b) bs

theorem procOuts_cons (b : List F32) (bs : List (List F32)) :
    procOuts N c g (b :: bs) = g.procOut N c b :: procOuts N c (g.proc N c b) bs := rfl

theorem procOuts_lengths (bs : List (List F32)) : (procOuts N c g bs).map List.length = bs.map List.length := by
  induction bs generalizing g with
  | nil => rfl
  | cons b bs ih => rw [procOuts_cons, List.map_cons, List.map_cons, procOut_length, ih]

/-- The concatenation of a first block and others, against the blocks one by one. -/
theorem proc_flatten (b : List F32) (bs : List (List F32)) :
    g.proc N c (b ++ bs.flatten) = bs.foldl (Channel.proc N c) (g.proc N c b) ∧
      g.procOut N c (b ++ bs.flatten) = (procOuts N c g (b :: bs)).flatten := by
  induction bs generalizing g b with
  | nil => exact ⟨by rw [List.flatten_nil, List.append_nil]; rfl,
      by rw [List.flatten_nil, List.append_nil]; exact (List.append_nil _).symm⟩
  | cons b' bs ih =>
    obtain ⟨hproc, hout⟩ := ih (g.proc N c b) b'
    rw [List.flatten_cons, proc_append, procOut_append, hproc, hout]
    exact ⟨rfl, rfl⟩

/-- Successive `PROC` of one channel as commands. -/
theorem execAll_procs (bs : List (List F32)) (s : State) :
    ((bs.map (Instr.proc c)).foldl State.afterCommand s).chan c = bs.foldl (Channel.proc s.par.NUM c) (s.chan c) ∧
      (((bs.map (Instr.proc c)).foldl State.afterCommand s).port .rt).responses =
        (s.port .rt).responses ++ (procOuts s.par.NUM c (s.chan c) bs).map (response 0x3#4 .ok) := by
  induction bs generalizing s with
  | nil => exact ⟨rfl, (List.append_nil _).symm⟩
  | cons b bs ih =>
    obtain ⟨hchan, hresp⟩ := ih (s.afterCommand (.proc c b))
    have hanswer : ((s.afterCommand (.proc c b)).port .rt).responses =
        (s.port .rt).responses ++ [response 0x3#4 .ok ((s.chan c).procOut s.par.NUM c b)] :=
      (answers_afterCommand s (.proc c b)).responses
    rw [par_afterCommand, chan_afterCommand_proc] at hchan hresp
    refine ⟨hchan, hresp.trans ?_⟩
    rw [hanswer, procOuts_cons, List.map_cons, List.append_assoc]
    rfl

/-- Settles O30: by induction on the blocks, each `PROC` going on where the one before it left off. -/
theorem blockSplittingChangesNothing : Obligations.BlockSplittingChangesNothing := by
  intro s c b bs
  obtain ⟨hchan, hresp⟩ := execAll_procs c (b :: bs) s
  obtain ⟨hproc, hout⟩ := proc_flatten s.par.NUM c (s.chan c) b bs
  refine ⟨_, _, procOuts s.par.NUM c (s.chan c) (b :: bs), exec_eq _ s, execAll_eq _ s, ?_, procOuts_lengths ..,
    ?_, hresp⟩
  · rw [chan_afterCommand_proc, hproc, hchan]
    rfl
  · rw [lastResponse_proc, hout]

end Sys2Proof.Machine
end

section
/-! The two FIFOs as queues (41_sample_fifo.md R121 to R128, 42_spectrum.md R144, R145). -/

namespace Sys2Proof.Machine

/-- Reading an empty FIFO. -/
theorem Ring.read_nil {K : Nat} {f : Ring} (hf : f.Wf K) (h : f.unread K = []) :
    popAnswer K f = (.noData, []) ∧ f.afterPop K = f :=
  have hpop := Ring.pop_nil hf h
  ⟨popAnswer_of_none hpop, Ring.afterPop_of_none hpop⟩

/-- Reading a FIFO that is not empty. -/
theorem Ring.read_cons {K : Nat} {f : Ring} (hf : f.Wf K) {b : List F32} {q : List (List F32)}
    (h : f.unread K = b :: q) : popAnswer K f = (.ok, b) ∧ (f.afterPop K).Wf K ∧ (f.afterPop K).unread K = q ∧
      (f.afterPop K).rd = (f.rd + 1) % (2 * K) := by
  obtain ⟨g, hpop, hg, hq⟩ := Ring.pop_cons hf h
  have hne : f.wr ≠ f.rd := fun he => by rw [Ring.pop_eq, if_pos he] at hpop; cases hpop
  have hrd : (f.afterPop K).rd = ringNext K f.rd := by rw [Ring.afterPop_eq, if_neg hne]
  refine ⟨popAnswer_of_some hpop, ?_, ?_, hrd⟩
  · rw [Ring.afterPop_of_some hpop]; exact hg
  · rw [Ring.afterPop_of_some hpop]; exact hq

/-- Writing touches the one slot at the write index (R121). -/
theorem Ring.push_slots_ne {K : Nat} (f : Ring) (v : List F32) {j : Nat} (hj : j ≠ f.wr % K) :
    (f.push K v).slots[j]? = f.slots[j]? := List.getElem?_set_ne (Ne.symm hj)

/-! The four commands that work on a FIFO. -/

variable {s : State} {c : Ch}

/-- What `PUSH` leaves of its FIFO (R121, R128). -/
theorem push_queue (hP : s.par.Valid) (hf : (s.chan c).sf.Wf s.par.cap) (b : List F32) :
    ((s.afterCommand (.push c b)).chan c).sf.Wf s.par.cap ∧
      ((s.afterCommand (.push c b)).chan c).sf.unread s.par.cap =
        queuePush s.par.cap ((s.chan c).sf.unread s.par.cap) b := by
  rw [chan_afterCommand_push]
  exact Ring.push_spec hP.cap_pos hf b

/-- What `POP` answers and leaves of an empty FIFO (R122). -/
theorem pop_queue_nil (hf : (s.chan c).sf.Wf s.par.cap) (h : (s.chan c).sf.unread s.par.cap = []) :
    s.Answers (s.afterCommand (.pop c)) .an ⟨0x61000000#32, []⟩ ∧ (s.afterCommand (.pop c)).chan c = s.chan c := by
  obtain ⟨hanswer, hsame⟩ := Ring.read_nil hf h
  refine ⟨answers_literal (i := .pop c) (op := .pop) (n := 0) rfl hanswer rfl (by decide), ?_⟩
  rw [chan_afterCommand_pop, hsame]

/-- What `POP` answers and leaves of a FIFO that is not empty (R122). -/
theorem pop_queue_cons (hf : (s.chan c).sf.Wf s.par.cap) {b : List F32} {q : List (List F32)}
    (h : (s.chan c).sf.unread s.par.cap = b :: q) :
    s.Answers (s.afterCommand (.pop c)) .an (response 0x6#4 .ok b) ∧
      ((s.afterCommand (.pop c)).chan c).sf.Wf s.par.cap ∧
      ((s.afterCommand (.pop c)).chan c).sf.unread s.par.cap = q := by
  obtain ⟨hanswer, hwf, hq, -⟩ := Ring.read_cons hf h
  refine ⟨answers_of_answer (i := .pop c) hanswer, ?_⟩
  rw [chan_afterCommand_pop]
  exact ⟨hwf, hq⟩

/-- Settles O33: the FIFO's write is the queue's push. -/
theorem pushRefinesQueue : Obligations.PushRefinesQueue := by
  intro s c b hs
  have hwf := ((inv_iff s).1 hs).2.1 c
  refine ⟨_, exec_eq (.push c b) s,
    answers_literal (i := .push c b) (op := .push) (n := 0) rfl rfl rfl (by decide),
    (push_queue hs.par hwf.sf b).2, ?_⟩
  rw [chan_afterCommand_push]
  exact ⟨rfl, rfl, fun j hj => Ring.push_slots_ne _ b hj, ⟨rfl, rfl⟩, rfl, rfl,
    chan_push_ne (otherCh_ne c) b⟩

/-- Settles O34: the FIFO's read is the queue's pop, by the two cases of the queue. -/
theorem popRefinesQueue : Obligations.PopRefinesQueue := by
  intro s c hs
  have hwf := ((inv_iff s).1 hs).2.1 c
  refine ⟨_, exec_eq (.pop c) s, ?_, ?_⟩
  · cases h : (s.chan c).sf.unread s.par.cap with
    | nil => exact pop_queue_nil hwf.sf h
    | cons b q =>
      obtain ⟨hA, -, hq⟩ := pop_queue_cons hwf.sf h
      refine ⟨hA, hq, ?_⟩
      rw [chan_afterCommand_pop]
      exact (Ring.read_cons hwf.sf h).2.2.2
  · rw [chan_afterCommand_pop]
    exact ⟨Ring.afterPop_slots .., Ring.afterPop_wr .., ⟨rfl, rfl⟩, rfl, rfl,
      chan_pop_ne (otherCh_ne c)⟩

/-- Settles O48: the frame FIFO's read is the queue's pop, and an unread frame has the bin count's length. -/
theorem fpopRefinesQueue : Obligations.FpopRefinesQueue := by
  intro s c hs
  have hwf := ((inv_iff s).1 hs).2.1 c
  refine ⟨_, exec_eq (.fpop c) s, ?_, ?_⟩
  · cases h : (s.chan c).ff.unread s.par.frameCap with
    | nil =>
      obtain ⟨hanswer, hsame⟩ := Ring.read_nil hwf.ff h
      refine ⟨answers_literal (i := .fpop c) (op := .fpop) (n := 0) rfl hanswer rfl (by decide), ?_⟩
      rw [chan_afterCommand_fpop, hsame]
    | cons F q =>
      obtain ⟨hanswer, -, hq, hrd⟩ := Ring.read_cons hwf.ff h
      refine ⟨answers_of_answer (i := .fpop c) hanswer, ?_⟩
      rw [chan_afterCommand_fpop]
      exact ⟨hq, frames_len hwf F (by rw [h]; exact List.mem_cons_self ..), hrd⟩
  · rw [chan_afterCommand_fpop]
    exact ⟨Ring.afterPop_slots .., Ring.afterPop_wr .., ⟨rfl, rfl⟩, rfl, rfl,
      chan_fpop_ne (otherCh_ne c)⟩

/-- The newest unit of a pushed queue is the pushed one. -/
theorem getLast?_queuePush (K : Nat) (q : List (List F32)) (v : List F32) :
    (queuePush K q v).getLast? = some v := by
  rw [queuePush, List.getLast?_append]; rfl

/-- What `SPEC` leaves of its FIFO (R137, R144). -/
theorem spec_queue (hP : s.par.Valid) (hf : (s.chan c).ff.Wf s.par.frameCap) :
    ((s.afterCommand (.spec c)).chan c).ff.Wf s.par.frameCap ∧
      ((s.afterCommand (.spec c)).chan c).ff.unread s.par.frameCap =
        queuePush s.par.frameCap ((s.chan c).ff.unread s.par.frameCap) (frameOf s.par (s.chan c).roll) := by
  rw [chan_afterCommand_spec]
  exact Ring.push_spec hP.frame_pos hf _

/-- Settles O41: the frame FIFO's write is the queue's push; the buffer stays, so a second `SPEC` pushes the frame
again. -/
theorem specPushesFrameAndKeepsBuffer : Obligations.SpecPushesFrameAndKeepsBuffer := by
  intro s c hs
  have hwf := ((inv_iff s).1 hs).2.1 c
  obtain ⟨hff, hq⟩ := spec_queue hs.par hwf.ff
  have again := (spec_queue (s := s.afterCommand (.spec c)) (c := c) (by rw [par_afterCommand]; exact hs.par)
    (by rw [par_afterCommand]; exact hff)).2
  have hroll : ((s.afterCommand (.spec c)).chan c).roll = (s.chan c).roll := by rw [chan_afterCommand_spec]
  rw [par_afterCommand, hroll] at again
  refine ⟨_, exec_eq (.spec c) s,
    answers_literal (i := .spec c) (op := .spec) (n := 0) rfl rfl rfl (by decide),
    frameOf_length _, hq, ?_, ?_, ?_, hroll, ⟨_, exec_eq (.spec c) _, by rw [again, getLast?_queuePush]⟩, ?_⟩
  all_goals rw [chan_afterCommand_spec]
  · rfl
  · rfl
  · exact fun j hj => Ring.push_slots_ne _ _ hj
  · exact ⟨⟨rfl, rfl⟩, rfl, chan_spec_ne (otherCh_ne c)⟩

end Sys2Proof.Machine
end

section
/-! Sequences of `PUSH` and `POP` (41_sample_fifo.md R123, R124, 60_exceptions.md R196). -/

namespace Sys2Proof.Machine

/-- Pushing several units onto a queue of at most `K` keeps the newest `K` (R123). -/
theorem foldl_queuePush {K : Nat} (hK : 1 ≤ K) (bs q : List (List F32)) (hq : q.length ≤ K) :
    bs.foldl (queuePush K) q = (q ++ bs).drop ((q ++ bs).length - K) := by
  induction bs generalizing q with
  | nil => simp [Nat.sub_eq_zero_of_le hq]
  | cons b bs ih =>
    have hpush : queuePush K q b = (q ++ [b]).drop (q.length + 1 - K) := by
      rw [queuePush]
      split
      · next hfull => rw [hfull, Nat.add_sub_cancel_left, List.drop_append_of_le_length (by omega), List.drop_one]
      · rw [show q.length + 1 - K = 0 by omega, List.drop_zero]
    rw [List.foldl_cons, ih _ (by rw [hpush]; simp; omega), hpush, ← List.drop_append_of_le_length (by simp),
      List.append_assoc, List.drop_drop]
    congr 1
    simp
    omega

/-- Several `PUSH` on one channel: the queue's pushes, and no response on the other port. -/
theorem pushes_queue (c : Ch) (bs : List (List F32)) {s : State} (hP : s.par.Valid)
    (hf : (s.chan c).sf.Wf s.par.cap) :
    let t := (bs.map (Instr.push c)).foldl State.afterCommand s
    t.par = s.par ∧ (t.chan c).sf.Wf s.par.cap ∧
      (t.chan c).sf.unread s.par.cap = bs.foldl (queuePush s.par.cap) ((s.chan c).sf.unread s.par.cap) ∧
      (t.port .an).responses = (s.port .an).responses := by
  induction bs generalizing s with
  | nil => exact ⟨rfl, hf, rfl, rfl⟩
  | cons b bs ih =>
    obtain ⟨hwf, hq⟩ := push_queue hP hf b
    have hpar := par_afterCommand s (.push c b)
    obtain ⟨hpar', hwf', hq', hresp⟩ := ih (s := s.afterCommand (.push c b)) (by rw [hpar]; exact hP)
      (by rw [hpar]; exact hwf)
    rw [hpar] at hpar' hwf' hq'
    rw [hq] at hq'
    exact ⟨hpar', hwf', hq', hresp.trans (answers_afterCommand s (.push c b)).others⟩

/-- One `POP` more than there are unread blocks: each block in turn, and then `NODATA`. -/
theorem pops_answer (c : Ch) (q : List (List F32)) {s : State} (hf : (s.chan c).sf.Wf s.par.cap)
    (hq : (s.chan c).sf.unread s.par.cap = q) :
    (((List.replicate (q.length + 1) (Instr.pop c)).foldl State.afterCommand s).port .an).responses =
      (s.port .an).responses ++ q.map (response 0x6#4 .ok) ++ [⟨0x61000000#32, []⟩] := by
  induction q generalizing s with
  | nil =>
    show ((s.afterCommand (.pop c)).port .an).responses = _
    rw [(pop_queue_nil hf hq).1.responses, List.map_nil, List.append_nil]
  | cons b q ih =>
    obtain ⟨hA, hwf, hq'⟩ := pop_queue_cons hf hq
    have hpar := par_afterCommand s (.pop c)
    rw [List.length_cons, List.replicate_succ, List.foldl_cons, ih (by rw [hpar]; exact hwf) (by rw [hpar]; exact hq'),
      hA.responses, List.map_cons, List.append_assoc _ [_], List.singleton_append]

/-- Blocks pushed and then all popped: the newest `CAP` of what was there and what was pushed. -/
theorem pushes_then_pops {s : State} (hs : s.Inv) (c : Ch) (bs q : List (List F32))
    (hq : ((s.chan c).sf.unread s.par.cap ++ bs).drop
      (((s.chan c).sf.unread s.par.cap ++ bs).length - s.par.cap) = q) :
    ∃ t, execAll (bs.map (Instr.push c) ++ List.replicate (q.length + 1) (Instr.pop c)) s = .next t ∧
      (t.port .an).responses = (s.port .an).responses ++ q.map (response 0x6#4 .ok) ++ [⟨0x61000000#32, []⟩] := by
  have hwf := (((inv_iff s).1 hs).2.1 c).sf
  obtain ⟨hpar, hwf', hunread, hresp⟩ := pushes_queue c bs hs.par hwf
  rw [foldl_queuePush hs.par.cap_pos _ _ (by rw [Ring.unread_length]; exact hwf.cnt), hq] at hunread
  refine ⟨_, execAll_eq _ s, ?_⟩
  rw [List.foldl_append, pops_answer c q (by rw [hpar]; exact hwf') (by rw [hpar]; exact hunread), hresp]

/-- Settles O35: after the pushes the queue holds the last `CAP` blocks. -/
theorem overflowKeepsNewestBlocks : Obligations.OverflowKeepsNewestBlocks := by
  intro s c bs hs hempty hlt
  obtain ⟨t, ht, hresp⟩ := pushes_then_pops hs c bs (bs.drop (bs.length - s.par.cap)) (by rw [hempty]; rfl)
  rw [List.length_drop, Nat.sub_sub_self hlt.le] at ht
  exact ⟨t, ht, hresp⟩

/-- Settles O36: after the pushes the queue holds what was there and all the pushed blocks. -/
theorem popsReturnBlocksInPushOrder : Obligations.PopsReturnBlocksInPushOrder := by
  intro s c bs hs hroom
  obtain ⟨t, ht, hresp⟩ := pushes_then_pops hs c bs ((s.chan c).sf.unread s.par.cap ++ bs)
    (by rw [List.length_append, Nat.sub_eq_zero_of_le hroom, List.drop_zero])
  rw [List.length_append] at ht
  exact ⟨t, ht, hresp⟩

/-! `PUSH` and `POP` in both orders. -/

section Both
variable {s : State} (hs : s.Inv) (c : Ch) (b : List F32)
include hs

/-- `PUSH` and then `POP`: the pushed queue's oldest block is answered. -/
theorem push_then_pop {b' : List F32} {q : List (List F32)}
    (hq : queuePush s.par.cap ((s.chan c).sf.unread s.par.cap) b = b' :: q) :
    ∃ t, execAll [.push c b, .pop c] s = .next t ∧ (t.chan c).sf.unread s.par.cap = q ∧
      t.lastResponse .an = some (response 0x6#4 .ok b') := by
  obtain ⟨hwf, hunread⟩ := push_queue hs.par (((inv_iff s).1 hs).2.1 c).sf b
  have hpar := par_afterCommand s (.push c b)
  obtain ⟨hA, -, hq'⟩ := pop_queue_cons (s := s.afterCommand (.push c b)) (c := c) (b := b') (q := q)
    (by rw [hpar]; exact hwf) (by rw [hpar, hunread, hq])
  rw [hpar] at hq'
  exact ⟨_, execAll_eq _ s, hq', lastResponse_of_answers hA⟩

/-- `POP` and then `PUSH`: what `POP` has answered stays the newest answer of its port. -/
theorem pop_then_push {r : Packet} {q : List (List F32)} (hA : s.Answers (s.afterCommand (.pop c)) .an r)
    (hwf : ((s.afterCommand (.pop c)).chan c).sf.Wf s.par.cap)
    (hq : ((s.afterCommand (.pop c)).chan c).sf.unread s.par.cap = q) :
    ∃ t, execAll [.pop c, .push c b] s = .next t ∧ (t.chan c).sf.unread s.par.cap = queuePush s.par.cap q b ∧
      t.lastResponse .an = some r := by
  have hpar := par_afterCommand s (.pop c)
  obtain ⟨-, hunread⟩ := push_queue (s := s.afterCommand (.pop c)) (c := c) (by rw [hpar]; exact hs.par)
    (by rw [hpar]; exact hwf) b
  rw [hpar, hq] at hunread
  refine ⟨_, execAll_eq _ s, hunread, ?_⟩
  have hother := (answers_afterCommand (s.afterCommand (.pop c)) (.push c b)).others
  show (((s.afterCommand (.pop c)).afterCommand (.push c b)).port .an).responses.getLast? = some r
  exact (congrArg List.getLast? hother).trans (lastResponse_of_answers hA)

end Both

/-- Settles O19: on an empty FIFO the pushed block is the only one. -/
theorem pushPopOrdersOnEmptyFifo : Obligations.PushPopOrdersOnEmptyFifo := by
  intro s c b hs hempty
  have hcap := hs.par.cap_pos
  have hwf := (((inv_iff s).1 hs).2.1 c).sf
  have hpush : queuePush s.par.cap [] b = [b] := by
    rw [queuePush, if_neg (by simp; omega), List.nil_append]
  obtain ⟨hA, hsame⟩ := pop_queue_nil hwf hempty
  refine ⟨push_then_pop hs c b (by rw [hempty, hpush]), ?_⟩
  rw [← hpush]
  exact pop_then_push hs c b hA (by rw [hsame]; exact hwf) (by rw [hsame]; exact hempty)

/-- Settles O20: on a full FIFO `PUSH` first loses the oldest block, `POP` first answers it. -/
theorem pushPopOrdersOnFullFifo : Obligations.PushPopOrdersOnFullFifo := by
  intro s c b b1 q hs hunread hfull
  have hwf := (((inv_iff s).1 hs).2.1 c).sf
  obtain ⟨hA, hwf', hq⟩ := pop_queue_cons hwf hunread
  constructor
  · have hpush : queuePush s.par.cap q b = q ++ [b] := by rw [queuePush, if_neg (by omega)]
    rw [← hpush]
    exact pop_then_push hs c b hA hwf' hq
  · have hpush : queuePush s.par.cap ((s.chan c).sf.unread s.par.cap) b = q ++ [b] := by
      rw [hunread, queuePush, if_pos (by simpa using hfull), List.tail_cons]
    obtain ⟨b2, q2, h2⟩ := List.exists_cons_of_ne_nil (List.append_ne_nil_of_right_ne_nil q (List.cons_ne_nil b []))
    obtain ⟨t, ht, hrest, hlast⟩ := push_then_pop hs c b (hpush.trans h2)
    exact ⟨t, b2, ht, by rw [h2]; rfl, by rw [h2]; exact hrest, hlast⟩

end Sys2Proof.Machine
end

section
/-! The rolling buffer under feeds (42_spectrum.md R136). -/

namespace Sys2Proof.Machine

/-- Feeding several blocks in turn: the last of the buffer followed by all the blocks. -/
theorem foldl_feedRoll (bs : List (List F32)) (roll : List F32) (h : ∀ b ∈ bs, b.length ≤ roll.length) :
    bs.foldl feedRoll roll = (roll ++ bs.flatten).drop bs.flatten.length := by
  induction bs generalizing roll with
  | nil => simp
  | cons b bs ih =>
    have hb : b.length ≤ roll.length := h b (List.mem_cons_self ..)
    have hlen : ∀ b' ∈ bs, b'.length ≤ (feedRoll roll b).length := fun b' hb' => by
      rw [feedRoll_length roll hb]; exact h b' (List.mem_cons_of_mem _ hb')
    have hle : b.length ≤ (roll ++ b).length := by simp
    rw [List.foldl_cons, ih _ hlen, feedRoll_eq roll hb, List.flatten_cons, List.length_append,
      ← List.drop_append_of_le_length hle, List.append_assoc, List.drop_drop]

/-- Several `FEED` of one channel. -/
theorem chan_feeds (c : Ch) (bs : List (List F32)) (s : State) :
    (((bs.map (Instr.feed c)).foldl State.afterCommand s).chan c).roll = bs.foldl feedRoll (s.chan c).roll := by
  induction bs generalizing s with
  | nil => rfl
  | cons b bs ih =>
    rw [List.map_cons, List.foldl_cons, ih, chan_afterCommand_feed]
    rfl

/-- Settles O39: the entries of the buffer without its first `L`, with the block appended. -/
theorem feedShiftsRollingBuffer : Obligations.FeedShiftsRollingBuffer := by
  intro s c xs hs hle
  have hroll : (s.chan c).roll.length = s.par.fftSize := (((inv_iff s).1 hs).2.1 c).roll
  have hdrop : ((s.chan c).roll.drop xs.length).length = s.par.fftSize - xs.length := by simp [hroll]
  refine ⟨_, exec_eq (.feed c xs) s,
    answers_literal (i := .feed c xs) (op := .feed) (n := 0) rfl rfl rfl (by decide), ?_⟩
  rw [chan_afterCommand_feed]
  refine ⟨(feedRoll_length _ (by rwa [hroll])).trans hroll, fun n hn => ?_, fun j hj => ?_, ⟨rfl, rfl⟩, rfl, rfl,
    chan_feed_ne (otherCh_ne c) xs⟩
  · show ((s.chan c).roll.drop xs.length ++ xs)[n]? = _
    rw [List.getElem?_append_left (by omega), List.getElem?_drop, Nat.add_comm]
  · show ((s.chan c).roll.drop xs.length ++ xs)[_]? = _
    rw [List.getElem?_append_right (by omega), hdrop, Nat.add_sub_cancel_left]

/-- Settles O40: the buffer starts as `N` zeros, and no block is longer than it. -/
theorem rollingBufferHoldsLastSamplesFed : Obligations.RollingBufferHoldsLastSamplesFed := by
  intro P c bs hP hbs
  have hroll : ((State.init P).chan c).roll = List.replicate P.fftSize F32.posZero := by rw [chan_init]; rfl
  refine ⟨_, execAll_eq _ _, ?_⟩
  rw [chan_feeds, hroll, foldl_feedRoll]
  intro b hb
  rw [List.length_replicate]
  exact Nat.le_trans (hbs b hb) hP.block_fits

end Sys2Proof.Machine
end

section
/-! The pseudo-commands of the drivers (41_sample_fifo.md R125, 47_host_collaborators.md R176, R182). -/

namespace Sys2Proof.Machine

/-- What a `drain` of channel `c` does from `s` to `t`: the FIFO is emptied and its blocks are fed in pop order;
the rest of the channel, the other channel, the port `RT` and the error register of `AN` are as before. -/
def Drained (c : Ch) (s t : State) : Prop :=
  (∃ f : Ring, f.unread s.par.cap = [] ∧ t.chan c =
    { s.chan c with sf := f, roll := ((s.chan c).sf.unread s.par.cap).foldl feedRoll (s.chan c).roll }) ∧
  t.chan (otherCh c) = s.chan (otherCh c) ∧ t.rt = s.rt ∧ t.an.err = s.an.err ∧ t.par = s.par ∧ t.sched = s.sched

variable {s : State} {c : Ch}

/-- A command of `AN` leaves the port `RT`, and the error register of its own port. -/
theorem ports_afterCommand_an (i : Instr) (hi : i.port = .an) :
    (s.afterCommand i).rt = s.rt ∧ (s.afterCommand i).an.err = s.an.err := by
  have hother := port_afterCommand_other s i
  rw [hi] at hother
  exact ⟨hother, err_afterCommand s .an i⟩

/-- A `POP` that finds nothing ends the sequence. -/
theorem drainAtMost_nil (n : Nat) (hf : (s.chan c).sf.Wf s.par.cap) (h : (s.chan c).sf.unread s.par.cap = []) :
    drainAtMost c (n + 1) s = .next (s.afterCommand (.pop c)) := by
  have hlast := lastResponse_of_answers (pop_queue_nil hf h).1
  show andThen (exec (.pop c) s) _ = _
  rw [exec_eq]
  show (match (s.afterCommand (.pop c)).lastResponse .an with | none => _ | some r => _) = _
  rw [hlast]
  rfl

/-- A `POP` that finds a block is followed by a `FEED` of it, and the sequence goes on. -/
theorem drainAtMost_cons (n : Nat) (hf : (s.chan c).sf.Wf s.par.cap) {b : List F32} {q : List (List F32)}
    (h : (s.chan c).sf.unread s.par.cap = b :: q) :
    drainAtMost c (n + 1) s = drainAtMost c n ((s.afterCommand (.pop c)).afterCommand (.feed c b)) := by
  have hlast := lastResponse_of_answers (pop_queue_cons hf h).1
  have hstatus : fieldStatus (response 0x6#4 .ok b).word ≠ Status.noData.code := by
    rw [show fieldStatus (response 0x6#4 .ok b).word = Status.ok.code from (responseWord_fields _ _ _).2.1]
    decide
  show andThen (exec (.pop c) s) _ = _
  rw [exec_eq]
  show (match (s.afterCommand (.pop c)).lastResponse .an with | none => _ | some r => _) = _
  rw [hlast]
  show (if fieldStatus (response 0x6#4 .ok b).word = Status.noData.code then _ else andThen (exec _ _) _) = _
  rw [if_neg hstatus, exec_eq]
  rfl

/-- With enough pops allowed, the sequence drains the FIFO. -/
theorem drainAtMost_drains (n : Nat) {q : List (List F32)} (hf : (s.chan c).sf.Wf s.par.cap)
    (hq : (s.chan c).sf.unread s.par.cap = q) (hn : q.length ≤ n) :
    ∃ t, drainAtMost c n s = .next t ∧ Drained c s t := by
  induction q generalizing n s with
  | nil =>
    cases n with
    | zero => exact ⟨s, rfl, ⟨(s.chan c).sf, hq, by rw [hq]; rfl⟩, rfl, rfl, rfl, rfl, rfl⟩
    | succ n =>
      obtain ⟨hrt, herr⟩ := ports_afterCommand_an (s := s) (.pop c) rfl
      refine ⟨_, drainAtMost_nil n hf hq, ⟨(s.chan c).sf, hq, ?_⟩, chan_pop_ne (otherCh_ne c),
        hrt, herr, par_afterCommand .., sched_afterCommand ..⟩
      rw [(pop_queue_nil hf hq).2, hq]
      rfl
  | cons b q ih =>
    obtain ⟨m, rfl⟩ : ∃ m, n = m + 1 := ⟨n - 1, by simp at hn; omega⟩
    set u := (s.afterCommand (.pop c)).afterCommand (.feed c b) with hu
    have hpar : u.par = s.par := (par_afterCommand ..).trans (par_afterCommand ..)
    have hchan : u.chan c = { s.chan c with
        sf := (s.chan c).sf.afterPop s.par.cap, roll := feedRoll (s.chan c).roll b } := by
      rw [hu, chan_afterCommand_feed, chan_afterCommand_pop]
    obtain ⟨-, hwf, hrest, -⟩ := Ring.read_cons hf hq
    obtain ⟨t, ht, ⟨f, hempty, hroll⟩, hother, hrt, herr, hpar', hsched⟩ :=
      ih m (s := u) (by rw [hpar, hchan]; exact hwf) (by rw [hpar, hchan]; exact hrest) (by simpa using hn)
    have hports := ports_afterCommand_an (s := s) (.pop c) rfl
    have hports' := ports_afterCommand_an (s := s.afterCommand (.pop c)) (.feed c b) rfl
    refine ⟨t, (drainAtMost_cons m hf hq).trans ht, ⟨f, by rwa [hpar] at hempty, ?_⟩, ?_,
      hrt.trans (hports'.1.trans hports.1), herr.trans (hports'.2.trans hports.2), hpar'.trans hpar,
      hsched.trans ((sched_afterCommand ..).trans (sched_afterCommand ..))⟩
    · rw [hroll, hpar, hchan, hq, List.foldl_cons]
      exact congrArg (fun q => { s.chan c with sf := f, roll := q.foldl feedRoll (feedRoll (s.chan c).roll b) }) hrest
    · exact hother.trans ((chan_feed_ne (otherCh_ne c) b).trans (chan_pop_ne (otherCh_ne c)))

/-- `CAP` pops are enough: there are never more unread blocks. -/
theorem drain_drains (hf : (s.chan c).sf.Wf s.par.cap) : ∃ t, drain c s = .next t ∧ Drained c s t :=
  drainAtMost_drains s.par.cap hf rfl (by rw [Ring.unread_length]; exact hf.cnt)

/-- A channel after a `drain`: nothing unread, the blocks fed in pop order, the rest as before. -/
def DrainedChannel (P : Params) (g h : Channel) : Prop :=
  h.sf.unread P.cap = [] ∧
  h.roll = (g.roll ++ (g.sf.unread P.cap).flatten).drop (g.sf.unread P.cap).flatten.length ∧
  SameFilter g h ∧ h.ff = g.ff

theorem drainedChannel {t : State} (hP : s.par.Valid) (hg : (s.chan c).Wf s.par) (h : Drained c s t) :
    DrainedChannel s.par (s.chan c) (t.chan c) := by
  obtain ⟨⟨f, hempty, hchan⟩, -⟩ := h
  rw [hchan]
  refine ⟨hempty, foldl_feedRoll _ _ fun b hb => ?_, ⟨rfl, rfl⟩, rfl⟩
  rw [hg.roll]
  exact Nat.le_trans (hg.blocks b hb) hP.block_fits

/-- Settles O37: a `drain` drains. -/
theorem drainFeedsQueueInOrder : Obligations.DrainFeedsQueueInOrder := by
  intro s c hs
  have hwf := ((inv_iff s).1 hs).2.1 c
  obtain ⟨t, ht, hdrained⟩ := drain_drains hwf.sf
  obtain ⟨hempty, hroll, hfilter, hff⟩ := drainedChannel hs.par hwf hdrained
  obtain ⟨-, hother, hrt, herr, hpar, hsched⟩ := hdrained
  exact ⟨t, ht, hempty, hroll, hfilter, hff, hother, hrt, herr, hpar, hsched⟩

/-- Two drains, one after the other, drain both channels: the second does not touch the first channel. -/
theorem drain_both (hs : s.Inv) : ∃ t u, drain .ch0 s = .next t ∧ drain .ch1 t = .next u ∧ u.par = s.par ∧
    ∀ c, DrainedChannel s.par (s.chan c) (u.chan c) := by
  obtain ⟨hP, hC, -⟩ := (inv_iff s).1 hs
  obtain ⟨t, ht, hdt⟩ := drain_drains (hC .ch0).sf
  have h0 := drainedChannel hP (hC .ch0) hdt
  obtain ⟨-, hother, -, -, hpar, -⟩ := hdt
  have hch1 : t.chan .ch1 = s.chan .ch1 := hother
  have hwf : (t.chan .ch1).Wf t.par := by rw [hpar, hch1]; exact hC .ch1
  obtain ⟨u, hu, hdu⟩ := drain_drains hwf.sf
  have h1 := drainedChannel (by rw [hpar]; exact hP) hwf hdu
  obtain ⟨-, hother', -, -, hpar', -⟩ := hdu
  have hch0 : u.chan .ch0 = t.chan .ch0 := hother'
  rw [hpar, hch1] at h1
  refine ⟨t, u, ht, hu, hpar'.trans hpar, fun c => ?_⟩
  cases c with
  | ch0 => rw [hch0]; exact h0
  | ch1 => exact h1

/-- One `SPEC` for each channel. -/
theorem chan_spec_both (s : State) (c : Ch) : ((s.afterCommand (.spec .ch0)).afterCommand (.spec .ch1)).chan c =
    { s.chan c with ff := (s.chan c).ff.push s.par.frameCap (frameOf s.par (s.chan c).roll) } := by
  cases c with
  | ch0 =>
    rw [chan_spec_ne (by decide), chan_afterCommand_spec]
  | ch1 =>
    rw [chan_afterCommand_spec, chan_spec_ne (by decide), par_afterCommand]

/-- Settles O38: both channels are drained, and then each gets the frame of its new buffer. -/
theorem tickDrainsThenPushesOneFrameEach : Obligations.TickDrainsThenPushesOneFrameEach := by
  intro s hs
  obtain ⟨t, u, ht, hu, hpar, hdrained⟩ := drain_both hs
  have htick : tick s = .next ((u.afterCommand (.spec .ch0)).afterCommand (.spec .ch1)) := by
    show andThen (drain .ch0 s) _ = _
    rw [ht]
    show andThen (drain .ch1 t) _ = _
    rw [hu]
    exact execAll_eq [.spec .ch0, .spec .ch1] u
  refine ⟨_, htick, fun c => ?_⟩
  obtain ⟨hempty, hroll, -, hff⟩ := hdrained c
  rw [chan_spec_both, hpar]
  refine ⟨hempty, hroll, ?_⟩
  rw [hff]
  exact (Ring.push_spec hs.par.frame_pos (((inv_iff s).1 hs).2.1 c).ff _).2

/-! The audio callback. -/

/-- `PROC` and the rest of the sequence with the samples it has answered. -/
theorem procThen_eq (c : Ch) (xs : List F32) (f : List F32 → State → Host.Outcome State Fault Refusal) (s : State) :
    procThen c xs f s = f ((s.chan c).procOut s.par.NUM c xs) (s.afterCommand (.proc c xs)) := by
  show andThen (exec (.proc c xs) s) _ = _
  rw [exec_eq]
  show (match (s.afterCommand (.proc c xs)).lastResponse .rt with | none => _ | some r => _) = _
  rw [lastResponse_proc]
  rfl

/-- The four commands of a callback, with the samples that `PROC` answers. -/
theorem callback_eq (b0 b1 : List F32) (s : State) : callback b0 b1 s = execAll
    [.proc .ch0 b0, .proc .ch1 b1, .push .ch0 (s.ch0.procOut s.par.NUM .ch0 b0),
      .push .ch1 (s.ch1.procOut s.par.NUM .ch1 b1)] s := by
  have hch1 : (s.afterCommand (.proc .ch0 b0)).chan .ch1 = s.chan .ch1 :=
    chan_proc_ne (by decide) b0
  show procThen .ch0 b0 _ s = _
  rw [procThen_eq, procThen_eq, hch1, par_afterCommand, execAll_eq, execAll_eq]
  rfl

/-- `PROC` touches no FIFO. -/
theorem sf_afterCommand_proc (s : State) (c d : Ch) (xs : List F32) :
    ((s.afterCommand (.proc c xs)).chan d).sf = (s.chan d).sf := by
  rcases ch_eq_or_other c d with rfl | rfl
  · rw [chan_afterCommand_proc]; rfl
  · exact congrArg Channel.sf (chan_proc_ne (otherCh_ne c) xs)

/-- A pushed block is the newest unread one. -/
theorem getLast?_unread_push {s : State} {c : Ch} (hP : s.par.Valid) (hf : (s.chan c).sf.Wf s.par.cap) (b : List F32) :
    (((s.afterCommand (.push c b)).chan c).sf.unread s.par.cap).getLast? = some b := by
  rw [(push_queue hP hf b).2, getLast?_queuePush]

/-- Settles O57: each `PUSH` carries what the channel's `PROC` has answered, and touches its own channel's FIFO only. -/
theorem callbackPushesProcessedBlocks : Obligations.CallbackPushesProcessedBlocks := by
  intro s b0 b1 hs
  let o0 := s.ch0.procOut s.par.NUM .ch0 b0
  let o1 := s.ch1.procOut s.par.NUM .ch1 b1
  let s1 := s.afterCommand (.proc .ch0 b0)
  let s2 := s1.afterCommand (.proc .ch1 b1)
  let s3 := s2.afterCommand (.push .ch0 o0)
  let s4 := s3.afterCommand (.push .ch1 o1)
  have hpar2 : s2.par = s.par := (par_afterCommand s1 _).trans (par_afterCommand s _)
  have hpar3 : s3.par = s.par := (par_afterCommand s2 _).trans hpar2
  have hsf (c : Ch) : (s2.chan c).sf = (s.chan c).sf :=
    (sf_afterCommand_proc s1 .ch1 c b1).trans (sf_afterCommand_proc s .ch0 c b0)
  have h3ch1 : s3.chan .ch1 = s2.chan .ch1 := chan_push_ne (by decide) o0
  have h4ch0 : s4.chan .ch0 = s3.chan .ch0 := chan_push_ne (by decide) o1
  have h1ch1 : s1.chan .ch1 = s.chan .ch1 := chan_proc_ne (by decide) b0
  refine ⟨s4, o0, o1, (callback_eq b0 b1 s).trans (execAll_eq _ s), ?responses, ?newest0, ?newest1,
    procOut_length .., procOut_length ..⟩
  case responses =>
    have h1 : s1.rt.responses = s.rt.responses ++ [response 0x3#4 .ok o0] :=
      (answers_afterCommand s (.proc .ch0 b0)).responses
    have h2 : s2.rt.responses = s1.rt.responses ++ [response 0x3#4 .ok ((s1.chan .ch1).procOut s1.par.NUM .ch1 b1)] :=
      (answers_afterCommand s1 (.proc .ch1 b1)).responses
    have h3 : s3.rt.responses = s2.rt.responses ++ [⟨0x40000000#32, []⟩] :=
      (answers_literal (s := s2) (i := .push .ch0 o0) (op := .push) (n := 0) rfl rfl rfl (by decide)).responses
    have h4 : s4.rt.responses = s3.rt.responses ++ [⟨0x40000000#32, []⟩] :=
      (answers_literal (s := s3) (i := .push .ch1 o1) (op := .push) (n := 0) rfl rfl rfl (by decide)).responses
    rw [h1ch1, show s1.par = s.par from par_afterCommand s _] at h2
    show s4.rt.responses = s.rt.responses ++ _
    rw [h4, h3, h2, h1, List.append_assoc, List.append_assoc, List.append_assoc]
    rfl
  case newest0 =>
    have h := getLast?_unread_push (s := s2) (c := .ch0) (by rw [hpar2]; exact hs.par)
      (by rw [hpar2, hsf]; exact hs.ch0.sf) o0
    rw [hpar2] at h
    show ((s4.chan .ch0).sf.unread s.par.cap).getLast? = some o0
    rw [h4ch0]
    exact h
  case newest1 =>
    have h := getLast?_unread_push (s := s3) (c := .ch1) (by rw [hpar3]; exact hs.par)
      (by rw [hpar3, h3ch1, hsf]; exact hs.ch1.sf) o1
    rw [hpar3] at h
    exact h

/-! `setcut` (47_host_collaborators.md R174). -/

/-- What `setcut` with flag 0 sends for section `k` of the band. -/
def cutCommands (band : CutBand) (slope : Fin 4) (set : Fin 4 → Coeffs) (k : Fin 4) : List Instr :=
  if k ≤ slope then [updall (band.sec k) (set k), bypall (band.sec k) false] else [bypall (band.sec k) true]

/-- What these commands make of the section. -/
def cutSection (slope : Fin 4) (set : Fin 4 → Coeffs) (k : Fin 4) (x : Section) : Section :=
  if k ≤ slope then { x with cur := set k, bypc := false } else { x with bypc := true }

theorem cutSection_bypc (slope : Fin 4) (set : Fin 4 → Coeffs) (k : Fin 4) (x : Section) :
    (cutSection slope set k x).bypc = decide (slope < k) := by
  by_cases hk : k ≤ slope
  · rw [cutSection, if_pos hk, decide_eq_false (not_lt.2 hk)]
  · rw [cutSection, if_neg hk, decide_eq_true (not_le.1 hk)]

theorem cutSection_cur {slope : Fin 4} (set : Fin 4 → Coeffs) {k : Fin 4} (hk : k ≤ slope) (x : Section) :
    (cutSection slope set k x).cur = set k := by
  rw [cutSection, if_pos hk]

/-- The bands' sections differ from each other (R14). -/
theorem cutBand_sec_inj (band : CutBand) {k k' : Fin 4} (h : band.sec k = band.sec k') : k = k' := by
  have hval := congrArg Fin.val h
  cases band <;> simp only [CutBand.sec] at hval <;> omega

/-- A mask of both channels selects each. -/
theorem selects_both (c : Ch) : selects 3#2 c = true := by cases c <;> rfl

/-- The commands for one section of the band change that section of both channels, and no other. -/
theorem secAt_cutCommands (band : CutBand) (slope : Fin 4) (set : Fin 4 → Coeffs) (k : Fin 4) (s : State) (c : Ch) :
    ((cutCommands band slope set k).foldl State.afterCommand s).chan c =
      (s.chan c).onSec (band.sec k) (cutSection slope set k) := by
  by_cases hk : k ≤ slope
  · have hsection : cutSection slope set k = fun x => { x with cur := set k, bypc := false } :=
      funext fun x => by rw [cutSection, if_pos hk]
    rw [cutCommands, if_pos hk, hsection]
    show ((s.afterCommand (.upd 3#2 _ _)).afterCommand (.byp 3#2 _ _)).chan c = _
    rw [chan_afterCommand, chan_afterCommand, chanAfter_upd, chanAfter_byp, if_pos (selects_both c),
      if_pos (selects_both c), onSec_onSec]
  · have hsection : cutSection slope set k = fun x => { x with bypc := true } :=
      funext fun x => by rw [cutSection, if_neg hk]
    rw [cutCommands, if_neg hk, hsection]
    show (s.afterCommand (.byp 3#2 _ _)).chan c = _
    rw [chan_afterCommand, chanAfter_byp, if_pos (selects_both c)]

/-- The commands for several sections of the band, each once. -/
theorem secAt_foldl_cutCommands (band : CutBand) (slope : Fin 4) (set : Fin 4 → Coeffs) (ks : List (Fin 4))
    (hks : ks.Nodup) (s : State) (c : Ch) :
    (∀ k ∈ ks, (((ks.flatMap (cutCommands band slope set)).foldl State.afterCommand s).chan c).secAt (band.sec k) =
      cutSection slope set k ((s.chan c).secAt (band.sec k))) ∧
    ∀ j, (∀ k ∈ ks, j ≠ band.sec k) →
      (((ks.flatMap (cutCommands band slope set)).foldl State.afterCommand s).chan c).secAt j = (s.chan c).secAt j := by
  induction ks generalizing s with
  | nil => exact ⟨fun _ h => (List.not_mem_nil h).elim, fun _ _ => rfl⟩
  | cons k ks ih =>
    obtain ⟨hnotin, hks⟩ := List.nodup_cons.1 hks
    obtain ⟨hin, hout⟩ := ih hks ((cutCommands band slope set k).foldl State.afterCommand s)
    rw [List.flatMap_cons, List.foldl_append]
    rw [secAt_cutCommands] at hin hout
    refine ⟨fun k' hk' => ?_, fun j hj => ?_⟩
    · rcases List.mem_cons.1 hk' with rfl | hk'
      · rw [hout _ fun k2 hk2 he => hnotin (by rwa [cutBand_sec_inj band he]), secAt_onSec]
      · have hne : band.sec k' ≠ band.sec k := fun he => hnotin ((cutBand_sec_inj band he) ▸ hk')
        rw [hin k' hk', secAt_onSec_ne _ _ hne]
    · rw [hout j fun k' hk' => hj k' (List.mem_cons_of_mem _ hk'),
        secAt_onSec_ne _ _ (hj k (List.mem_cons_self ..))]

/-- Settles O56: the four sections of the band are changed one by one, those up to the slope to active ones. -/
theorem setcutActivatesSlopePlusOneSections : Obligations.SetcutActivatesSlopePlusOneSections := by
  intro s band slope set
  refine ⟨_, execAll_eq _ s, fun c => ?_⟩
  obtain ⟨hband, hout⟩ := secAt_foldl_cutCommands band slope set [0, 1, 2, 3] (by decide) s c
  have hall (k : Fin 4) : k ∈ [(0 : Fin 4), 1, 2, 3] := by revert k; decide
  refine ⟨fun k => ⟨?_, fun hk => ?_⟩, fun j hj => hout j fun k _ => hj k⟩
  · exact (congrArg Section.bypc (hband k (hall k))).trans (cutSection_bypc ..)
  · exact (congrArg Section.cur (hband k (hall k))).trans (cutSection_cur set hk _)

end Sys2Proof.Machine
end

section
/-! What a driver sees after reset (70_reset_and_hazards.md R217). -/

namespace Sys2Proof.Machine

/-- Settles O22: every section is bypassed with the set (1.0, 0, 0, 0, 0), both FIFOs are empty, the buffers are zeros
and the registers are 0. -/
theorem driverSeesResetState : Obligations.DriverSeesResetState := by
  intro P c hP
  have hwf : ((State.init P).chan c).Wf P := ((inv_iff _).1 (inv_init hP)).2.1 c
  have hsf : ((State.init P).chan c).sf.unread P.cap = [] := by rw [chan_init]; exact Ring.reset_unread ..
  have hff : ((State.init P).chan c).ff.unread P.frameCap = [] := by rw [chan_init]; exact Ring.reset_unread ..
  have hroll : ((State.init P).chan c).roll = List.replicate P.fftSize F32.posZero := by rw [chan_init]; rfl
  have hsec (i : SecIdx) : ((State.init P).chan c).secAt i = Section.reset := by rw [chan_init, secAt_reset]
  refine ⟨fun p i => ?rdc, fun xs => ?proc, ?pop, ?fpop, ?spec, fun p => ?rderr⟩
  case rdc =>
    refine ⟨_, exec_eq (.rdc p c i) _, lastResponse_of_answers
      (answers_literal (i := .rdc p c i) (op := .rdc) (st := .ok) (n := 6) rfl ?_ rfl (by decide))⟩
    exact congrArg (fun x : Section => (Status.ok, wordsOf x.cur ++ [flagWord x.bypc])) (hsec i)
  case proc =>
    refine ⟨_, exec_eq (.proc c xs) _, ?_⟩
    rw [lastResponse_proc, procOut_bypassed _ _ _ fun i => by rw [hsec]; rfl]
  case pop => exact ⟨_, exec_eq (.pop c) _, lastResponse_of_answers (pop_queue_nil hwf.sf hsf).1⟩
  case fpop =>
    exact ⟨_, exec_eq (.fpop c) _, lastResponse_of_answers
      (answers_literal (i := .fpop c) (op := .fpop) (n := 0) rfl (Ring.read_nil hwf.ff hff).1 rfl (by decide))⟩
  case spec =>
    have hframe : (((State.init P).afterCommand (.spec c)).chan c).ff.unread P.frameCap =
        [frameOf P (List.replicate P.fftSize F32.posZero)] := by
      have h := (spec_queue (s := State.init P) (c := c) hP hwf.ff).2
      rw [hroll] at h
      refine h.trans ?_
      have hcap := hP.frame_pos
      show queuePush P.frameCap (((State.init P).chan c).ff.unread P.frameCap) _ = _
      rw [hff, queuePush, if_neg (by simp; omega), List.nil_append]
      rfl
    refine ⟨_, exec_eq (.spec c) _, hframe, fun hnum => ?_⟩
    rw [hframe, frameOf_zero hP hnum fun x hx => by rw [List.eq_of_mem_replicate hx]; decide]
  case rderr =>
    refine ⟨_, exec_eq (.rderr p) _, lastResponse_of_answers
      (answers_literal (i := .rderr p) (op := .rderr) (st := .ok) (n := 1) rfl ?_ rfl (by decide))⟩
    exact congrArg (fun e => (Status.ok, [errWord e])) (err_init P p)

end Sys2Proof.Machine
end
